-- ==== Sys2Proof/Word.lean ====
section
/-!
DEFINITION. The words of CORE and their plainest arithmetic (spec/00_scope.md R5, R7, R8).
-/

namespace Sys2Proof

/-- A byte of the buffer memory (R34). -/
abbrev Byte := BitVec 8

/-- A scalar register, a 64-bit address, a word of the register port (R5 `XLEN`, R241). -/
abbrev Word := BitVec 64

/-- One lane of a vector register (R5 `LANEW`). -/
abbrev Lane := BitVec 32

/-- A wide value, held in an even and odd pair of scalar registers (R22). -/
abbrev WideWord := BitVec 128

/-- A command word (R5 `CMDLEN`, R70). -/
abbrev CmdWord := BitVec 32

/-- `ones(N)` of R8: the `N`-bit value of all ones. -/
abbrev ones (n : Nat) : BitVec n := BitVec.allOnes n

end Sys2Proof
end

