-- ==== Sys2Proof/Syntax.lean ====
section
/-!
DEFINITION. The commands of CORE, one constructor per row of spec/opcode_table.json, in the table's order
(spec/30_encoding.md section 7). The arguments of a constructor stand in the order of the assembler syntax of R85,
destination first. A register operand is the field's value used directly as the register number (R81).
-/

namespace Sys2Proof

/-- The number of a scalar register `x0..x15` (R20), a 4-bit field (R71). -/
abbrev XReg := BitVec 4

/-- The number of a mask register `m0..m15` (R23), a 4-bit field (R71). -/
abbrev MReg := BitVec 4

/-- The number of a vector register `v0..v7` (R26), a 3-bit field (R74). -/
abbrev VReg := BitVec 3

/-- The operand width `W` of a BitOps or Mask command (R5, R73). -/
inductive Width where
  | w8 | w16 | w32 | w64
deriving DecidableEq, Repr

/-- `W` in bits (R73). -/
def Width.bits : Width → Nat
  | .w8 => 8
  | .w16 => 16
  | .w32 => 32
  | .w64 => 64

/-- The bytes of an element of width `W`: `B = W / 8` (R138). -/
def Width.bytes (w : Width) : Nat := w.bits / 8

/-- The vector type a command works on: 4x32 (`L = 0`) or 8x32 (`L = 1`) (R80). -/
inductive Lanes where
  | four | eight
deriving DecidableEq, Repr

/-- `NL`, the lanes a vector command works on (R5, R199). -/
def Lanes.count : Lanes → Nat
  | .four => 4
  | .eight => 8

/-- A command. A wide operand `wd`, `ws`, `ws1`, `ws2` is the number of the even register of the pair (R22, R82). -/
inductive Instr where
  -- BitOps unit, spec/40_bitops.md
  | ispow2 (w : Width) (rd rs1 : XReg)
  | highbit (w : Width) (rd rs1 : XReg)
  | sigbytes (w : Width) (rd rs1 : XReg)
  | ctz (w : Width) (rd rs1 : XReg)
  | clog2 (w : Width) (rd rs1 : XReg)
  | clz (w : Width) (rd rs1 : XReg)
  -- Mask unit, spec/41_mask.md
  | mset (md : MReg)
  | mclr (md : MReg)
  | mexp (w : Width) (md : MReg) (rs1 : XReg)
  | misz (w : Width) (md : MReg) (rs1 : XReg)
  | meq (w : Width) (md : MReg) (rs1 rs2 : XReg)
  | mlt (w : Width) (md : MReg) (rs1 rs2 : XReg)
  | mgt (w : Width) (md : MReg) (rs1 rs2 : XReg)
  | mlte (w : Width) (md : MReg) (rs1 rs2 : XReg)
  | mgte (w : Width) (md : MReg) (rs1 rs2 : XReg)
  | mand (md ms1 ms2 : MReg)
  | mor (md ms1 ms2 : MReg)
  | mxor (md ms1 ms2 : MReg)
  | mnot (md ms1 : MReg)
  | sel (w : Width) (rd : XReg) (ms : MReg) (rs1 rs2 : XReg)
  | ifset (w : Width) (rd : XReg) (ms : MReg) (rs1 : XReg)
  | mval (w : Width) (rd : XReg) (ms : MReg)
  | seln (w : Width) (ms : MReg) (rpd rpx rpy rlen : XReg)
  | zout (w : Width) (ms : MReg) (rpd rlen : XReg)
  -- Wide unit, spec/42_wide.md
  | wmk (wd rs1 rs2 : XReg)
  | wshr (wd ws rsh : XReg)
  | wshl (wd ws rsh : XReg)
  | wadd (wd ws1 ws2 : XReg)
  | wor (wd ws1 ws2 : XReg)
  | wmul (wd ws1 rs2 : XReg)
  | wcsh (rd ws rsh : XReg)
  | wcmb (rd ws1 rsh1 ws2 rsh2 : XReg)
  -- SIMD unit, spec/43_simd.md
  | vzero (l : Lanes) (vd : VReg)
  | vpack (l : Lanes) (vd : VReg) (rs1 : XReg)
  | vsplat (l : Lanes) (vd : VReg) (rs1 : XReg)
  | vldle (l : Lanes) (vd : VReg) (imm : BitVec 12) (rs1 : XReg)
  | vldbe (l : Lanes) (vd : VReg) (imm : BitVec 12) (rs1 : XReg)
  | vstle (l : Lanes) (vs : VReg) (imm : BitVec 12) (rs1 : XReg)
  | vstbe (l : Lanes) (vs : VReg) (imm : BitVec 12) (rs1 : XReg)
  | vrotl (l : Lanes) (vd vs1 : VReg) (n : BitVec 5)
  | vrotr (l : Lanes) (vd vs1 : VReg) (n : BitVec 5)
  | vadd (l : Lanes) (vd vs1 vs2 : VReg)
  | vsub (l : Lanes) (vd vs1 vs2 : VReg)
  | vxor (l : Lanes) (vd vs1 vs2 : VReg)
  | vor (l : Lanes) (vd vs1 vs2 : VReg)
  | vand (l : Lanes) (vd vs1 vs2 : VReg)
  | vnot (l : Lanes) (vd vs1 : VReg)
  | vandc (l : Lanes) (vd vs1 vs2 : VReg)
  | vshl (l : Lanes) (vd vs1 : VReg) (n : BitVec 5)
  | vshr (l : Lanes) (vd vs1 : VReg) (n : BitVec 5)
  | vbswap (l : Lanes) (vd vs1 : VReg)
  | vtrn4 (va vb vc vd : VReg)
  | vtrn8 (t0 t1 t2 t3 t4 t5 t6 t7 : VReg)
  | vrho (l : Lanes) (vd vs1 : VReg) (r1 r2 r3 : BitVec 5)
deriving DecidableEq, Repr

end Sys2Proof
end

