-- ==== Sys2Proof/WellFormed.lean ====
section
/-!
DEFINITION. When a command word is illegal (spec/30_encoding.md R83), by name, and the checks of it that are about
the operands of an instruction term (items 3 to 8). Items 1 and 2 are about bits that no term holds; the decoder
makes them. A check reads the operands and `HAS_V8` only (R83's last sentence).
-/

namespace Sys2Proof

/-- Why a command word is not a legal command: the items of R83. Every one of them has the same outcome,
`IllegalCommand` (R87); the names are the model's (log 15). -/
inductive IllegalReason where
  /-- Item 1: `op` is not one of the 54 opcodes. -/
  | unknownOpcode
  /-- Item 2: a must-be-zero bit or an unused field is not 0 (R72). -/
  | unusedNotZero
  /-- Item 3: a wide register field is odd (R82). -/
  | oddWideRegister
  /-- Item 4: an 8-lane form without `HAS_V8` (R79, R80). -/
  | eightLanesAbsent
  /-- Item 5: `VTRN4` with `L = 1` (R78). -/
  | transpose4EightLanes
  /-- Item 6: a shift or rotate amount of 0 (R75, R77). -/
  | zeroAmount
  /-- Item 7: a transpose naming one vector register more than once (R78, R79). -/
  | repeatedRegister
  /-- Item 8: `VPACK` with `rs1 + NL > 16` (R181). -/
  | packPastX15
deriving DecidableEq, Repr

/-- R82: every named wide register is even. -/
def evenCheck (rs : List XReg) : Option IllegalReason :=
  if rs.all (fun r => !r.getLsbD 0) then none else some .oddWideRegister

/-- R80: the 8-lane type exists only with `HAS_V8`. -/
def lanesCheck (hasV8 : Bool) : Lanes → Option IllegalReason
  | .four => none
  | .eight => if hasV8 then none else some .eightLanesAbsent

/-- R75, R77: every amount is 1 to 31. -/
def amountCheck (ns : List (BitVec 5)) : Option IllegalReason :=
  if ns.all (fun n => n != 0) then none else some .zeroAmount

/-- No vector register is named twice. -/
def allDifferent : List VReg → Bool
  | [] => true
  | r :: rs => !rs.contains r && allDifferent rs

/-- R78, R79: the transposed registers are all different. -/
def differentCheck (rs : List VReg) : Option IllegalReason :=
  if allDifferent rs then none else some .repeatedRegister

/-- R181: the `NL` registers from `rs1` on end at `x15` at the latest. -/
def packCheck (l : Lanes) (rs1 : XReg) : Option IllegalReason :=
  if rs1.toNat + l.count ≤ 16 then none else some .packPastX15

/-- The first of R83's items 3 to 8 that the instruction breaks, `none` for a legal one. -/
def Instr.illegality (hasV8 : Bool) : Instr → Option IllegalReason
  | .ispow2 _ _ _ | .highbit _ _ _ | .sigbytes _ _ _ | .ctz _ _ _ | .clog2 _ _ _ | .clz _ _ _ => none
  | .mset _ | .mclr _ | .mexp _ _ _ | .misz _ _ _ => none
  | .meq _ _ _ _ | .mlt _ _ _ _ | .mgt _ _ _ _ | .mlte _ _ _ _ | .mgte _ _ _ _ => none
  | .mand _ _ _ | .mor _ _ _ | .mxor _ _ _ | .mnot _ _ => none
  | .sel _ _ _ _ _ | .ifset _ _ _ _ | .mval _ _ _ | .seln _ _ _ _ _ _ | .zout _ _ _ _ => none
  | .wmk wd _ _ => evenCheck [wd]
  | .wshr wd ws _ => evenCheck [wd, ws]
  | .wshl wd ws _ => evenCheck [wd, ws]
  | .wadd wd ws1 ws2 => evenCheck [wd, ws1, ws2]
  | .wor wd ws1 ws2 => evenCheck [wd, ws1, ws2]
  | .wmul wd ws1 _ => evenCheck [wd, ws1]
  | .wcsh _ ws _ => evenCheck [ws]
  | .wcmb _ ws1 _ ws2 _ => evenCheck [ws1, ws2]
  | .vzero l _ => lanesCheck hasV8 l
  | .vpack l _ rs1 => (lanesCheck hasV8 l).or (packCheck l rs1)
  | .vsplat l _ _ => lanesCheck hasV8 l
  | .vldle l _ _ _ => lanesCheck hasV8 l
  | .vldbe l _ _ _ => lanesCheck hasV8 l
  | .vstle l _ _ _ => lanesCheck hasV8 l
  | .vstbe l _ _ _ => lanesCheck hasV8 l
  | .vrotl l _ _ n => (lanesCheck hasV8 l).or (amountCheck [n])
  | .vrotr l _ _ n => (lanesCheck hasV8 l).or (amountCheck [n])
  | .vadd l _ _ _ => lanesCheck hasV8 l
  | .vsub l _ _ _ => lanesCheck hasV8 l
  | .vxor l _ _ _ => lanesCheck hasV8 l
  | .vor l _ _ _ => lanesCheck hasV8 l
  | .vand l _ _ _ => lanesCheck hasV8 l
  | .vnot l _ _ => lanesCheck hasV8 l
  | .vandc l _ _ _ => lanesCheck hasV8 l
  | .vshl l _ _ n => (lanesCheck hasV8 l).or (amountCheck [n])
  | .vshr l _ _ n => (lanesCheck hasV8 l).or (amountCheck [n])
  | .vbswap l _ _ => lanesCheck hasV8 l
  | .vtrn4 va vb vc vd => differentCheck [va, vb, vc, vd]
  | .vtrn8 t0 t1 t2 t3 t4 t5 t6 t7 =>
    (lanesCheck hasV8 .eight).or (differentCheck [t0, t1, t2, t3, t4, t5, t6, t7])
  | .vrho l _ _ r1 r2 r3 => (lanesCheck hasV8 l).or (amountCheck [r1, r2, r3])

/-- The instruction is a legal command of a block with this `HAS_V8` (R83). -/
abbrev Instr.WellFormed (hasV8 : Bool) (i : Instr) : Prop := i.illegality hasV8 = none

end Sys2Proof
end

