-- ==== Sys2Proof/Decode.lean ====
section
/-!
DEFINITION. Decoding and encoding of the 32-bit command word (spec/30_encoding.md). `decode` follows R87: look the
opcode up, split the word by its format, apply the checks of R83; a word that fails is rejected by name. `encode`
writes the word of an instruction from the same format tables. `opcodeTable` and `legalWord` are spec/opcode_table.json
and R83 written out a second time as bit tests on the word, apart from the decoder, to be compared with it.
-/

namespace Sys2Proof

/-! ### Fields of the word (R71, R74 to R79) -/

/-- `op`, bits 31:24, in every format (R70). -/
def fldOp (c : CmdWord) : BitVec 8 := c.extractLsb' 24 8
/-- Format S, `w`, bits 23:22 (R71). -/
def fldW (c : CmdWord) : BitVec 2 := c.extractLsb' 22 2
/-- Format S, the zero bits 21:20 (R71). -/
def fldZ (c : CmdWord) : BitVec 2 := c.extractLsb' 20 2
/-- Format S, `a`, bits 19:16 (R71); format VS, `rs1` (R76). -/
def fldA (c : CmdWord) : BitVec 4 := c.extractLsb' 16 4
/-- Format S, `b`, bits 15:12 (R71); format VS, the zero bits (R76). -/
def fldB (c : CmdWord) : BitVec 4 := c.extractLsb' 12 4
/-- Format S, `c`, bits 11:8 (R71). -/
def fldC (c : CmdWord) : BitVec 4 := c.extractLsb' 8 4
/-- Format S, `d`, bits 7:4 (R71). -/
def fldD (c : CmdWord) : BitVec 4 := c.extractLsb' 4 4
/-- Format S, `e`, bits 3:0 (R71). -/
def fldE (c : CmdWord) : BitVec 4 := c.extractLsb' 0 4
/-- Formats V, VS, VR, VT4, `L`, bit 23 (R80). -/
def fldL (c : CmdWord) : BitVec 1 := c.extractLsb' 23 1
/-- Formats V, VS, VR, `vd`, bits 22:20 (R74, R76, R77); format VT4, `va` (R78). -/
def fldVd (c : CmdWord) : BitVec 3 := c.extractLsb' 20 3
/-- Formats V, VR, `vs1`, bits 19:17 (R74, R77); format VT4, `vb` (R78). -/
def fldVs1 (c : CmdWord) : BitVec 3 := c.extractLsb' 17 3
/-- Format V, `vs2`, bits 16:14 (R74); format VT4, `vc` (R78). -/
def fldVs2 (c : CmdWord) : BitVec 3 := c.extractLsb' 14 3
/-- Format V, the zero bits 13:5 (R74). -/
def fldZV (c : CmdWord) : BitVec 9 := c.extractLsb' 5 9
/-- Format V, `imm5`, bits 4:0 (R74, R75); format VR, `R3` (R77). -/
def fldImm5 (c : CmdWord) : BitVec 5 := c.extractLsb' 0 5
/-- Format VS, `imm12`, bits 11:0 (R76). -/
def fldImm12 (c : CmdWord) : BitVec 12 := c.extractLsb' 0 12
/-- Format VR, the zero bits 16:15 (R77). -/
def fldZR (c : CmdWord) : BitVec 2 := c.extractLsb' 15 2
/-- Format VR, `R1`, bits 14:10 (R77). -/
def fldR1 (c : CmdWord) : BitVec 5 := c.extractLsb' 10 5
/-- Format VR, `R2`, bits 9:5 (R77). -/
def fldR2 (c : CmdWord) : BitVec 5 := c.extractLsb' 5 5
/-- Format VT4, `vd`, bits 13:11 (R78). -/
def fldT4 (c : CmdWord) : BitVec 3 := c.extractLsb' 11 3
/-- Format VT4, the zero bits 10:0 (R78). -/
def fldZ4 (c : CmdWord) : BitVec 11 := c.extractLsb' 0 11
/-- Format VT8, `t<k>`, bits 23 - 3k down to 21 - 3k (R79). -/
def fldT8 (c : CmdWord) (k : Nat) : BitVec 3 := c.extractLsb' (21 - 3 * k) 3

/-- The width a code selects (R73). -/
def Width.ofCode (b : BitVec 2) : Width :=
  if b = 0 then .w8 else if b = 1 then .w16 else if b = 2 then .w32 else .w64

/-- The code of a width (R73). -/
def Width.code : Width → BitVec 2
  | .w8 => 0
  | .w16 => 1
  | .w32 => 2
  | .w64 => 3

/-- The vector type an `L` bit selects (R80). -/
def Lanes.ofBit (b : BitVec 1) : Lanes := if b = 0 then .four else .eight

/-- The `L` bit of a vector type (R80). -/
def Lanes.bit : Lanes → BitVec 1
  | .four => 0
  | .eight => 1

/-- The width of a format S word (R73). -/
def width (c : CmdWord) : Width := Width.ofCode (fldW c)

/-- The vector type of a vector word (R80). -/
def lanesOf (c : CmdWord) : Lanes := Lanes.ofBit (fldL c)

/-! ### Decoding -/

/-- R72: the word is illegal unless its must-be-zero bits and unused fields are 0. -/
def whenZero (unusedAreZero : Bool) (i : Instr) : Except IllegalReason Instr :=
  if unusedAreZero then .ok i else .error .unusedNotZero

/-- Steps 1 and 2 of R87 with items 1, 2 and 5 of R83: the opcode map of section 7 and the split by format. -/
def decodeFields (c : CmdWord) : Except IllegalReason Instr :=
  match (fldOp c).toNat with
  | 0x10 => whenZero (fldZ c == 0 && fldC c == 0 && fldD c == 0 && fldE c == 0) (.ispow2 (width c) (fldA c) (fldB c))
  | 0x11 => whenZero (fldZ c == 0 && fldC c == 0 && fldD c == 0 && fldE c == 0) (.highbit (width c) (fldA c) (fldB c))
  | 0x12 => whenZero (fldZ c == 0 && fldC c == 0 && fldD c == 0 && fldE c == 0)
      (.sigbytes (width c) (fldA c) (fldB c))
  | 0x13 => whenZero (fldZ c == 0 && fldC c == 0 && fldD c == 0 && fldE c == 0) (.ctz (width c) (fldA c) (fldB c))
  | 0x14 => whenZero (fldZ c == 0 && fldC c == 0 && fldD c == 0 && fldE c == 0) (.clog2 (width c) (fldA c) (fldB c))
  | 0x15 => whenZero (fldZ c == 0 && fldC c == 0 && fldD c == 0 && fldE c == 0) (.clz (width c) (fldA c) (fldB c))
  | 0x20 => whenZero (fldW c == 0 && fldZ c == 0 && fldB c == 0 && fldC c == 0 && fldD c == 0 && fldE c == 0)
      (.mset (fldA c))
  | 0x21 => whenZero (fldW c == 0 && fldZ c == 0 && fldB c == 0 && fldC c == 0 && fldD c == 0 && fldE c == 0)
      (.mclr (fldA c))
  | 0x22 => whenZero (fldZ c == 0 && fldC c == 0 && fldD c == 0 && fldE c == 0) (.mexp (width c) (fldA c) (fldB c))
  | 0x23 => whenZero (fldZ c == 0 && fldC c == 0 && fldD c == 0 && fldE c == 0) (.misz (width c) (fldA c) (fldB c))
  | 0x24 => whenZero (fldZ c == 0 && fldD c == 0 && fldE c == 0) (.meq (width c) (fldA c) (fldB c) (fldC c))
  | 0x25 => whenZero (fldZ c == 0 && fldD c == 0 && fldE c == 0) (.mlt (width c) (fldA c) (fldB c) (fldC c))
  | 0x26 => whenZero (fldZ c == 0 && fldD c == 0 && fldE c == 0) (.mgt (width c) (fldA c) (fldB c) (fldC c))
  | 0x27 => whenZero (fldZ c == 0 && fldD c == 0 && fldE c == 0) (.mlte (width c) (fldA c) (fldB c) (fldC c))
  | 0x28 => whenZero (fldZ c == 0 && fldD c == 0 && fldE c == 0) (.mgte (width c) (fldA c) (fldB c) (fldC c))
  | 0x29 => whenZero (fldW c == 0 && fldZ c == 0 && fldB c == 0 && fldC c == 0) (.mand (fldA c) (fldE c) (fldD c))
  | 0x2A => whenZero (fldW c == 0 && fldZ c == 0 && fldB c == 0 && fldC c == 0) (.mor (fldA c) (fldE c) (fldD c))
  | 0x2B => whenZero (fldW c == 0 && fldZ c == 0 && fldB c == 0 && fldC c == 0) (.mxor (fldA c) (fldE c) (fldD c))
  | 0x2C => whenZero (fldW c == 0 && fldZ c == 0 && fldB c == 0 && fldC c == 0 && fldD c == 0)
      (.mnot (fldA c) (fldE c))
  | 0x2D => whenZero (fldZ c == 0 && fldD c == 0) (.sel (width c) (fldA c) (fldE c) (fldB c) (fldC c))
  | 0x2E => whenZero (fldZ c == 0 && fldC c == 0 && fldD c == 0) (.ifset (width c) (fldA c) (fldE c) (fldB c))
  | 0x2F => whenZero (fldZ c == 0 && fldB c == 0 && fldC c == 0 && fldD c == 0) (.mval (width c) (fldA c) (fldE c))
  | 0x30 => whenZero (fldZ c == 0) (.seln (width c) (fldE c) (fldA c) (fldB c) (fldC c) (fldD c))
  | 0x31 => whenZero (fldZ c == 0 && fldB c == 0 && fldC c == 0) (.zout (width c) (fldE c) (fldA c) (fldD c))
  | 0x40 => whenZero (fldW c == 0 && fldZ c == 0 && fldD c == 0 && fldE c == 0) (.wmk (fldA c) (fldB c) (fldC c))
  | 0x41 => whenZero (fldW c == 0 && fldZ c == 0 && fldD c == 0 && fldE c == 0) (.wshr (fldA c) (fldB c) (fldC c))
  | 0x42 => whenZero (fldW c == 0 && fldZ c == 0 && fldD c == 0 && fldE c == 0) (.wshl (fldA c) (fldB c) (fldC c))
  | 0x43 => whenZero (fldW c == 0 && fldZ c == 0 && fldD c == 0 && fldE c == 0) (.wadd (fldA c) (fldB c) (fldC c))
  | 0x44 => whenZero (fldW c == 0 && fldZ c == 0 && fldD c == 0 && fldE c == 0) (.wor (fldA c) (fldB c) (fldC c))
  | 0x45 => whenZero (fldW c == 0 && fldZ c == 0 && fldD c == 0 && fldE c == 0) (.wmul (fldA c) (fldB c) (fldC c))
  | 0x46 => whenZero (fldW c == 0 && fldZ c == 0 && fldD c == 0 && fldE c == 0) (.wcsh (fldA c) (fldB c) (fldC c))
  | 0x47 => whenZero (fldW c == 0 && fldZ c == 0) (.wcmb (fldA c) (fldB c) (fldC c) (fldD c) (fldE c))
  | 0x60 => whenZero (fldVs1 c == 0 && fldVs2 c == 0 && fldZV c == 0 && fldImm5 c == 0) (.vzero (lanesOf c) (fldVd c))
  | 0x61 => whenZero (fldB c == 0 && fldImm12 c == 0) (.vpack (lanesOf c) (fldVd c) (fldA c))
  | 0x62 => whenZero (fldB c == 0 && fldImm12 c == 0) (.vsplat (lanesOf c) (fldVd c) (fldA c))
  | 0x63 => whenZero (fldB c == 0) (.vldle (lanesOf c) (fldVd c) (fldImm12 c) (fldA c))
  | 0x64 => whenZero (fldB c == 0) (.vldbe (lanesOf c) (fldVd c) (fldImm12 c) (fldA c))
  | 0x65 => whenZero (fldB c == 0) (.vstle (lanesOf c) (fldVd c) (fldImm12 c) (fldA c))
  | 0x66 => whenZero (fldB c == 0) (.vstbe (lanesOf c) (fldVd c) (fldImm12 c) (fldA c))
  | 0x67 => whenZero (fldVs2 c == 0 && fldZV c == 0) (.vrotl (lanesOf c) (fldVd c) (fldVs1 c) (fldImm5 c))
  | 0x68 => whenZero (fldVs2 c == 0 && fldZV c == 0) (.vrotr (lanesOf c) (fldVd c) (fldVs1 c) (fldImm5 c))
  | 0x69 => whenZero (fldZV c == 0 && fldImm5 c == 0) (.vadd (lanesOf c) (fldVd c) (fldVs1 c) (fldVs2 c))
  | 0x6A => whenZero (fldZV c == 0 && fldImm5 c == 0) (.vsub (lanesOf c) (fldVd c) (fldVs1 c) (fldVs2 c))
  | 0x6B => whenZero (fldZV c == 0 && fldImm5 c == 0) (.vxor (lanesOf c) (fldVd c) (fldVs1 c) (fldVs2 c))
  | 0x6C => whenZero (fldZV c == 0 && fldImm5 c == 0) (.vor (lanesOf c) (fldVd c) (fldVs1 c) (fldVs2 c))
  | 0x6D => whenZero (fldZV c == 0 && fldImm5 c == 0) (.vand (lanesOf c) (fldVd c) (fldVs1 c) (fldVs2 c))
  | 0x6E => whenZero (fldVs2 c == 0 && fldZV c == 0 && fldImm5 c == 0) (.vnot (lanesOf c) (fldVd c) (fldVs1 c))
  | 0x6F => whenZero (fldZV c == 0 && fldImm5 c == 0) (.vandc (lanesOf c) (fldVd c) (fldVs1 c) (fldVs2 c))
  | 0x70 => whenZero (fldVs2 c == 0 && fldZV c == 0) (.vshl (lanesOf c) (fldVd c) (fldVs1 c) (fldImm5 c))
  | 0x71 => whenZero (fldVs2 c == 0 && fldZV c == 0) (.vshr (lanesOf c) (fldVd c) (fldVs1 c) (fldImm5 c))
  | 0x72 => whenZero (fldVs2 c == 0 && fldZV c == 0 && fldImm5 c == 0) (.vbswap (lanesOf c) (fldVd c) (fldVs1 c))
  | 0x73 =>
    if fldL c != 0 then .error .transpose4EightLanes
    else whenZero (fldZ4 c == 0) (.vtrn4 (fldVd c) (fldVs1 c) (fldVs2 c) (fldT4 c))
  | 0x74 =>
    .ok (.vtrn8 (fldT8 c 0) (fldT8 c 1) (fldT8 c 2) (fldT8 c 3) (fldT8 c 4) (fldT8 c 5) (fldT8 c 6) (fldT8 c 7))
  | 0x75 => whenZero (fldZR c == 0) (.vrho (lanesOf c) (fldVd c) (fldVs1 c) (fldR1 c) (fldR2 c) (fldImm5 c))
  | _ => .error .unknownOpcode

/-- Step 3 of R87: items 3 to 8 of R83, which depend on the operands and on `HAS_V8`. -/
def checkLegal (hasV8 : Bool) (i : Instr) : Except IllegalReason Instr :=
  match i.illegality hasV8 with
  | none => .ok i
  | some r => .error r

/-- R87: the command a word stands for on a block with this `HAS_V8`, or the item of R83 that makes it illegal. It
is total, and reads no register and no memory. -/
def decode (hasV8 : Bool) (c : CmdWord) : Except IllegalReason Instr :=
  match decodeFields c with
  | .ok i => checkLegal hasV8 i
  | .error r => .error r

/-! ### Encoding -/

/-- A word of format S (R71). -/
def wordS (op : BitVec 8) (w : BitVec 2) (a b c d e : BitVec 4) : CmdWord :=
  op ++ w ++ 0#2 ++ a ++ b ++ c ++ d ++ e

/-- A word of format V (R74). -/
def wordV (op : BitVec 8) (l : BitVec 1) (vd vs1 vs2 : BitVec 3) (imm5 : BitVec 5) : CmdWord :=
  op ++ l ++ vd ++ vs1 ++ vs2 ++ 0#9 ++ imm5

/-- A word of format VS (R76). -/
def wordVS (op : BitVec 8) (l : BitVec 1) (vd : BitVec 3) (rs1 : BitVec 4) (imm12 : BitVec 12) : CmdWord :=
  op ++ l ++ vd ++ rs1 ++ 0#4 ++ imm12

/-- A word of format VR (R77). -/
def wordVR (op : BitVec 8) (l : BitVec 1) (vd vs1 : BitVec 3) (r1 r2 r3 : BitVec 5) : CmdWord :=
  op ++ l ++ vd ++ vs1 ++ 0#2 ++ r1 ++ r2 ++ r3

/-- A word of format VT4 (R78). -/
def wordVT4 (op : BitVec 8) (va vb vc vd : BitVec 3) : CmdWord :=
  op ++ 0#1 ++ va ++ vb ++ vc ++ vd ++ 0#11

/-- A word of format VT8 (R79). -/
def wordVT8 (op : BitVec 8) (t0 t1 t2 t3 t4 t5 t6 t7 : BitVec 3) : CmdWord :=
  op ++ t0 ++ t1 ++ t2 ++ t3 ++ t4 ++ t5 ++ t6 ++ t7

/-- The word of an instruction (section 7's opcode map and the formats of R71, R74 to R79). Unused fields are 0
(R72). An instruction term that breaks a check of R83 has a word too: the illegal word its fields spell. -/
def encode : Instr → CmdWord
  | .ispow2 w rd rs1 => wordS 0x10 w.code rd rs1 0 0 0
  | .highbit w rd rs1 => wordS 0x11 w.code rd rs1 0 0 0
  | .sigbytes w rd rs1 => wordS 0x12 w.code rd rs1 0 0 0
  | .ctz w rd rs1 => wordS 0x13 w.code rd rs1 0 0 0
  | .clog2 w rd rs1 => wordS 0x14 w.code rd rs1 0 0 0
  | .clz w rd rs1 => wordS 0x15 w.code rd rs1 0 0 0
  | .mset md => wordS 0x20 0 md 0 0 0 0
  | .mclr md => wordS 0x21 0 md 0 0 0 0
  | .mexp w md rs1 => wordS 0x22 w.code md rs1 0 0 0
  | .misz w md rs1 => wordS 0x23 w.code md rs1 0 0 0
  | .meq w md rs1 rs2 => wordS 0x24 w.code md rs1 rs2 0 0
  | .mlt w md rs1 rs2 => wordS 0x25 w.code md rs1 rs2 0 0
  | .mgt w md rs1 rs2 => wordS 0x26 w.code md rs1 rs2 0 0
  | .mlte w md rs1 rs2 => wordS 0x27 w.code md rs1 rs2 0 0
  | .mgte w md rs1 rs2 => wordS 0x28 w.code md rs1 rs2 0 0
  | .mand md ms1 ms2 => wordS 0x29 0 md 0 0 ms2 ms1
  | .mor md ms1 ms2 => wordS 0x2A 0 md 0 0 ms2 ms1
  | .mxor md ms1 ms2 => wordS 0x2B 0 md 0 0 ms2 ms1
  | .mnot md ms1 => wordS 0x2C 0 md 0 0 0 ms1
  | .sel w rd ms rs1 rs2 => wordS 0x2D w.code rd rs1 rs2 0 ms
  | .ifset w rd ms rs1 => wordS 0x2E w.code rd rs1 0 0 ms
  | .mval w rd ms => wordS 0x2F w.code rd 0 0 0 ms
  | .seln w ms rpd rpx rpy rlen => wordS 0x30 w.code rpd rpx rpy rlen ms
  | .zout w ms rpd rlen => wordS 0x31 w.code rpd 0 0 rlen ms
  | .wmk wd rs1 rs2 => wordS 0x40 0 wd rs1 rs2 0 0
  | .wshr wd ws rsh => wordS 0x41 0 wd ws rsh 0 0
  | .wshl wd ws rsh => wordS 0x42 0 wd ws rsh 0 0
  | .wadd wd ws1 ws2 => wordS 0x43 0 wd ws1 ws2 0 0
  | .wor wd ws1 ws2 => wordS 0x44 0 wd ws1 ws2 0 0
  | .wmul wd ws1 rs2 => wordS 0x45 0 wd ws1 rs2 0 0
  | .wcsh rd ws rsh => wordS 0x46 0 rd ws rsh 0 0
  | .wcmb rd ws1 rsh1 ws2 rsh2 => wordS 0x47 0 rd ws1 rsh1 ws2 rsh2
  | .vzero l vd => wordV 0x60 l.bit vd 0 0 0
  | .vpack l vd rs1 => wordVS 0x61 l.bit vd rs1 0
  | .vsplat l vd rs1 => wordVS 0x62 l.bit vd rs1 0
  | .vldle l vd imm rs1 => wordVS 0x63 l.bit vd rs1 imm
  | .vldbe l vd imm rs1 => wordVS 0x64 l.bit vd rs1 imm
  | .vstle l vs imm rs1 => wordVS 0x65 l.bit vs rs1 imm
  | .vstbe l vs imm rs1 => wordVS 0x66 l.bit vs rs1 imm
  | .vrotl l vd vs1 n => wordV 0x67 l.bit vd vs1 0 n
  | .vrotr l vd vs1 n => wordV 0x68 l.bit vd vs1 0 n
  | .vadd l vd vs1 vs2 => wordV 0x69 l.bit vd vs1 vs2 0
  | .vsub l vd vs1 vs2 => wordV 0x6A l.bit vd vs1 vs2 0
  | .vxor l vd vs1 vs2 => wordV 0x6B l.bit vd vs1 vs2 0
  | .vor l vd vs1 vs2 => wordV 0x6C l.bit vd vs1 vs2 0
  | .vand l vd vs1 vs2 => wordV 0x6D l.bit vd vs1 vs2 0
  | .vnot l vd vs1 => wordV 0x6E l.bit vd vs1 0 0
  | .vandc l vd vs1 vs2 => wordV 0x6F l.bit vd vs1 vs2 0
  | .vshl l vd vs1 n => wordV 0x70 l.bit vd vs1 0 n
  | .vshr l vd vs1 n => wordV 0x71 l.bit vd vs1 0 n
  | .vbswap l vd vs1 => wordV 0x72 l.bit vd vs1 0 0
  | .vtrn4 va vb vc vd => wordVT4 0x73 va vb vc vd
  | .vtrn8 t0 t1 t2 t3 t4 t5 t6 t7 => wordVT8 0x74 t0 t1 t2 t3 t4 t5 t6 t7
  | .vrho l vd vs1 r1 r2 r3 => wordVR 0x75 l.bit vd vs1 r1 r2 r3

/-! ### The opcode table, as bit tests -/

/-- When a row's command is an 8-lane form, which needs `HAS_V8` (R83 item 4). -/
inductive EightLaneForm where
  /-- It is none. -/
  | never
  /-- It is one when bit 23, `L`, is 1. -/
  | lBit
  /-- It is one always. -/
  | always
deriving DecidableEq, Repr

/-- A row of spec/opcode_table.json with its constraints. -/
structure OpcodeRow where
  mnemonic : String
  /-- The value of the bits of `mask` in every word of the row. -/
  value : CmdWord
  /-- The opcode, must-be-zero and unused bits, and bit 0 of each wide field (R83 items 1, 2, 3, 5). -/
  mask : CmdWord
  /-- R83 item 4. -/
  eight : EightLaneForm
  /-- The low bit positions of the 5-bit amounts, which must not be 0 (R83 item 6). -/
  amounts : List Nat
  /-- The low bit positions of the 3-bit register fields, which must be pairwise different (R83 item 7). -/
  different : List Nat
  /-- `rs1 + NL <= 16` is required (R83 item 8). -/
  pack : Bool
deriving DecidableEq, Repr

/-- A row with no constraint beyond its mask. -/
def plainRow (mnemonic : String) (value mask : CmdWord) : OpcodeRow :=
  ⟨mnemonic, value, mask, .never, [], [], false⟩

/-- The BitOps unit's rows of spec/opcode_table.json. -/
def bitOpsRows : List OpcodeRow :=
  [plainRow "ISPOW2" 0x10000000 0xFF300FFF,
   plainRow "HIGHBIT" 0x11000000 0xFF300FFF,
   plainRow "SIGBYTES" 0x12000000 0xFF300FFF,
   plainRow "CTZ" 0x13000000 0xFF300FFF,
   plainRow "CLOG2" 0x14000000 0xFF300FFF,
   plainRow "CLZ" 0x15000000 0xFF300FFF]

/-- The Mask unit's rows of spec/opcode_table.json. -/
def maskRows : List OpcodeRow :=
  [plainRow "MSET" 0x20000000 0xFFF0FFFF,
   plainRow "MCLR" 0x21000000 0xFFF0FFFF,
   plainRow "MEXP" 0x22000000 0xFF300FFF,
   plainRow "MISZ" 0x23000000 0xFF300FFF,
   plainRow "MEQ" 0x24000000 0xFF3000FF,
   plainRow "MLT" 0x25000000 0xFF3000FF,
   plainRow "MGT" 0x26000000 0xFF3000FF,
   plainRow "MLTE" 0x27000000 0xFF3000FF,
   plainRow "MGTE" 0x28000000 0xFF3000FF,
   plainRow "MAND" 0x29000000 0xFFF0FF00,
   plainRow "MOR" 0x2A000000 0xFFF0FF00,
   plainRow "MXOR" 0x2B000000 0xFFF0FF00,
   plainRow "MNOT" 0x2C000000 0xFFF0FFF0,
   plainRow "SEL" 0x2D000000 0xFF3000F0,
   plainRow "IFSET" 0x2E000000 0xFF300FF0,
   plainRow "MVAL" 0x2F000000 0xFF30FFF0,
   plainRow "SELN" 0x30000000 0xFF300000,
   plainRow "ZOUT" 0x31000000 0xFF30FF00]

/-- The Wide unit's rows of spec/opcode_table.json. -/
def wideRows : List OpcodeRow :=
  [plainRow "WMK" 0x40000000 0xFFF100FF,
   plainRow "WSHR" 0x41000000 0xFFF110FF,
   plainRow "WSHL" 0x42000000 0xFFF110FF,
   plainRow "WADD" 0x43000000 0xFFF111FF,
   plainRow "WOR" 0x44000000 0xFFF111FF,
   plainRow "WMUL" 0x45000000 0xFFF110FF,
   plainRow "WCSH" 0x46000000 0xFFF010FF,
   plainRow "WCMB" 0x47000000 0xFFF01010]

/-- The SIMD unit's rows of spec/opcode_table.json. -/
def simdRows : List OpcodeRow :=
  [⟨"VZERO", 0x60000000, 0xFF0FFFFF, .lBit, [], [], false⟩,
   ⟨"VPACK", 0x61000000, 0xFF00FFFF, .lBit, [], [], true⟩,
   ⟨"VSPLAT", 0x62000000, 0xFF00FFFF, .lBit, [], [], false⟩,
   ⟨"VLDLE", 0x63000000, 0xFF00F000, .lBit, [], [], false⟩,
   ⟨"VLDBE", 0x64000000, 0xFF00F000, .lBit, [], [], false⟩,
   ⟨"VSTLE", 0x65000000, 0xFF00F000, .lBit, [], [], false⟩,
   ⟨"VSTBE", 0x66000000, 0xFF00F000, .lBit, [], [], false⟩,
   ⟨"VROTL", 0x67000000, 0xFF01FFE0, .lBit, [0], [], false⟩,
   ⟨"VROTR", 0x68000000, 0xFF01FFE0, .lBit, [0], [], false⟩,
   ⟨"VADD", 0x69000000, 0xFF003FFF, .lBit, [], [], false⟩,
   ⟨"VSUB", 0x6A000000, 0xFF003FFF, .lBit, [], [], false⟩,
   ⟨"VXOR", 0x6B000000, 0xFF003FFF, .lBit, [], [], false⟩,
   ⟨"VOR", 0x6C000000, 0xFF003FFF, .lBit, [], [], false⟩,
   ⟨"VAND", 0x6D000000, 0xFF003FFF, .lBit, [], [], false⟩,
   ⟨"VNOT", 0x6E000000, 0xFF01FFFF, .lBit, [], [], false⟩,
   ⟨"VANDC", 0x6F000000, 0xFF003FFF, .lBit, [], [], false⟩,
   ⟨"VSHL", 0x70000000, 0xFF01FFE0, .lBit, [0], [], false⟩,
   ⟨"VSHR", 0x71000000, 0xFF01FFE0, .lBit, [0], [], false⟩,
   ⟨"VBSWAP", 0x72000000, 0xFF01FFFF, .lBit, [], [], false⟩,
   ⟨"VTRN4", 0x73000000, 0xFF8007FF, .never, [], [20, 17, 14, 11], false⟩,
   ⟨"VTRN8", 0x74000000, 0xFF000000, .always, [], [21, 18, 15, 12, 9, 6, 3, 0], false⟩,
   ⟨"VRHO", 0x75000000, 0xFF018000, .lBit, [10, 5, 0], [], false⟩]

/-- spec/opcode_table.json: its 54 rows in its order. -/
def opcodeTable : List OpcodeRow := bitOpsRows ++ maskRows ++ wideRows ++ simdRows

/-- The word is a legal command of this row on a block with this `HAS_V8` (R83). -/
def OpcodeRow.admits (row : OpcodeRow) (hasV8 : Bool) (c : CmdWord) : Bool :=
  (c &&& row.mask == row.value)
    && (match row.eight with
        | .never => true
        | .lBit => hasV8 || !c.getLsbD 23
        | .always => hasV8)
    && row.amounts.all (fun p => c.extractLsb' p 5 != 0)
    && allDifferent (row.different.map fun p => c.extractLsb' p 3)
    && (!row.pack || (c.extractLsb' 16 4).toNat + (if c.getLsbD 23 then 8 else 4) ≤ 16)

/-- R83, read off the opcode table: the word is a legal command. -/
def legalWord (hasV8 : Bool) (c : CmdWord) : Bool := opcodeTable.any fun row => row.admits hasV8 c

/-! ### The host's question -/

/-- The instruction the decoder reads from a table row's word: every command is one 32-bit word (R70), bits above
`nbits` are 0, and the 8-lane forms are legal (`HAS_V8` as `State.reset` has it, log 12). -/
def decodeTableWord (nbits w : Nat) : Option Instr :=
  match decode true (BitVec.ofNat 32 (w % 2 ^ nbits)) with
  | .ok i => some i
  | .error _ => none

end Sys2Proof
end

