-- ==== Sys2Proof/Config.lean ====
section
/-!
DEFINITION. What the spec leaves to a value that `State.reset` must name. Each constant is a DESIGN CHOICE with a
row in notes/assumptions/, and none is the spec's: R36 calls the registers and the memory "unspecified" after
reset, and R5 leaves `HAS_V8` and `MEMSIZE` open. No command reads one of these constants but
`unwrittenByte`; every statement about a state holds for every value of the fields they initialise.
-/

namespace Sys2Proof.Config

/-- `HAS_V8` in `State.reset` (R5 leaves it open). DESIGN CHOICE, log 5. -/
def resetHasV8 : Bool := true

/-- `MEMSIZE` in `State.reset` (R5 leaves it open, at most 2^64). DESIGN CHOICE, log 6. -/
def resetMemSize : Nat := 2 ^ 64

/-- A scalar register in `State.reset` (R36: unspecified). DESIGN CHOICE, log 1. -/
def resetScalar : Word := 0

/-- A mask register in `State.reset` (R36: unspecified). DESIGN CHOICE, log 2. -/
def resetMask : Bool := false

/-- A vector lane in `State.reset` (R36: unspecified). DESIGN CHOICE, log 3. -/
def resetLane : Lane := 0

/-- What a byte of the buffer memory reads as when the memory list does not hold its address (R36: unspecified).
DESIGN CHOICE, log 4. -/
def unwrittenByte : Byte := 0

end Sys2Proof.Config
end

