-- ==== Sys2Proof/Machine/State.lean ====
section
/-!
DEFINITION. The state of CORE as plain data (spec/10_state.md), the host's transactions (spec/60_exceptions.md R240 to
R244, spec/70_reset_and_hazards.md R260), and the state after reset (R36). The access functions are in
Machine/Ops.lean, the view of the state through the register port in Machine/Port.lean.
-/

namespace Sys2Proof.Machine

/-- A model of CORE never stops with a fault: CORE's errors are precise and are reported in `STATUS` while the block
goes on (R230, R231), there is "no lockup state, no machine check", and "the block never stops answering the register
port" (R249). So the type has no constructor, raised by nothing, and this is safe. -/
inductive Fault where
deriving DecidableEq, Repr

/-- Why the model gives no next state. -/
inductive Refusal where
  /-- `exec` answers it for a command that has no meaning yet (none in this model). Safe: nothing can be proved of
  such a command. -/
  | notModelled (mnemonic : String)
  /-- `transact` answers it for a host memory access at an address that does not exist, `address >= MEMSIZE`: "the
  host's error and the spec gives it no meaning" (R243), treatment `refuse` (93_implementation_defined.md U8). Safe:
  nothing can be proved of a run that does this (log 9). -/
  | hostMemoryOutOfRange (address : Nat)
deriving DecidableEq, Repr

/-- The errors of R230. -/
inductive ErrorKind where
  | illegalCommand
  | argError
  | addrError
deriving DecidableEq, Repr

/-- The two stored fields of `STATUS` (R28). Its other bits read 0 and ignore writes (log 13). -/
structure Status where
  /-- Bit 0, `ERR`. -/
  err : Bool
  /-- Bits 7:4, `CAUSE`. -/
  cause : BitVec 4
deriving DecidableEq, Repr

/-- One transaction of the host, an atomic step (R240 to R244). A `CMD` write is a register write at index `0x104`
(R31, R240). -/
inductive HostTxn where
  /-- `RegRead(ra)` (R241). -/
  | regRead (ra : BitVec 12)
  /-- `RegWrite(ra, data)` (R242). -/
  | regWrite (ra : BitVec 12) (data : Word)
  /-- `HostMemRead(a)` (R243). -/
  | memRead (a : Nat)
  /-- `HostMemWrite(a, b)` (R243). -/
  | memWrite (a : Nat) (b : Byte)
  /-- The reset the host may apply between two transactions (R260). -/
  | reset
deriving DecidableEq, Repr

/-- What a transaction returns to the host (R244). -/
inductive Reply where
  /-- Nothing: a write, a reset, or no transaction yet. -/
  | none
  /-- The 64-bit word of `RegRead` (R241). -/
  | word (w : Word)
  /-- The byte of `HostMemRead` (R243). -/
  | byte (b : Byte)
deriving DecidableEq, Repr

/-- The state. `hasV8` and `memSize` are the two parameters of R5: fields that no step writes, so that a statement
about every state is one about every block. `pending` and `reply` are the model's own (log 7, log 8); everything else
is the state of 10_state.md section 1. -/
structure State where
  /-- `HAS_V8` (R5, R38), what `CAP` shows (R27). -/
  hasV8 : Bool
  /-- `MEMSIZE` in bytes, at most 2^64 (R5, R38), what `MEMSZ` shows (R30). -/
  memSize : Nat
  /-- `x0..x15` (R20). -/
  x : Vector Word 16
  /-- `m0..m15` (R23): true is set. -/
  m : Vector Bool 16
  /-- `v0..v7`, lane 0 first (R26). Lanes 4 to 7 exist for software only with `HAS_V8` (log 14). -/
  v : Vector (Vector Lane 8) 8
  /-- `STATUS` (R28). -/
  status : Status
  /-- Bits 31:0 of `ERRCMD`; bits 63:32 read 0 (R29). -/
  errcmd : CmdWord
  /-- The buffer memory (R34, R50): the bytes that differ from `Config.unwrittenByte`, addresses strictly rising. -/
  mem : List Host.Cell
  /-- The host's transactions not yet performed, first at the head (R244). The model's own. -/
  pending : List HostTxn
  /-- What the last transaction returned (R244). The model's own. -/
  reply : Reply
deriving DecidableEq, Repr

/-- The state after the first reset since power was applied (R36, R260): `STATUS` and `ERRCMD` are 0 as the spec
states; everything the spec calls unspecified, and the two open parameters, are at the values of `Config`
(DESIGN CHOICE, log 1 to 6); the host has asked for nothing yet (log 7). -/
def State.reset : State where
  hasV8 := Config.resetHasV8
  memSize := Config.resetMemSize
  x := Vector.replicate 16 Config.resetScalar
  m := Vector.replicate 16 Config.resetMask
  v := Vector.replicate 8 (Vector.replicate 8 Config.resetLane)
  status := ⟨false, 0⟩
  errcmd := 0
  mem := []
  pending := []
  reply := .none

end Sys2Proof.Machine
end

