-- ==== Sys2Proof/Machine/Ops.lean ====
section
/-!
DEFINITION. The named operations every meaning is written over: registers (spec/10_state.md sections 2 to 6), bytes of
the buffer memory (spec/20_memory.md R50 to R53) with the access log of R268, raising an error and clearing it
(spec/60_exceptions.md R232, R237), and the checks that raise one.
-/

namespace Sys2Proof.Machine

/-- What a meaning answers. -/
abbrev Result := Host.Outcome State Fault Refusal

/-! ### Registers -/

/-- `x[r]` (R8, R20). -/
def State.getX (s : State) (r : XReg) : Word := s.x[r.toNat]

/-- `x[r] <- w` (R8). -/
def State.setX (s : State) (r : XReg) (w : Word) : State := { s with x := s.x.set r.toNat w }

/-- `m[r]` (R8, R23). -/
def State.getM (s : State) (r : MReg) : Bool := s.m[r.toNat]

/-- `m[r] <- b` (R8). -/
def State.setM (s : State) (r : MReg) (b : Bool) : State := { s with m := s.m.set r.toNat b }

/-- `wide(r) = x[r+1] ++ x[r]` for even `r` (R8, R22). -/
def State.getWide (s : State) (r : XReg) : WideWord := s.getX (r + 1) ++ s.getX r

/-- `wide(r) <- t`, both halves at once (R8, R168). -/
def State.setWide (s : State) (r : XReg) (t : WideWord) : State :=
  (s.setX r (t.extractLsb' 0 64)).setX (r + 1) (t.extractLsb' 64 64)

/-- `v[r].lane[k]` (R8, R26). -/
def State.getLane (s : State) (r : VReg) (k : Fin 8) : Lane := s.v[r.toNat][k]

/-- Write lanes 0 to `NL - 1` of `v[r]`; lanes `NL` to 7 keep their values (R37, R199). -/
def State.setLanes (s : State) (l : Lanes) (r : VReg) (f : Fin 8 → Lane) : State :=
  { s with v := s.v.set r.toNat (Vector.ofFn fun k => if k.val < l.count then f k else s.getLane r k) }

/-- Write one lane of a vector register (R33). -/
def State.setLane (s : State) (r : VReg) (k : Fin 8) (u : Lane) : State :=
  { s with v := s.v.set r.toNat (Vector.ofFn fun j => if j = k then u else s.getLane r j) }

/-! ### Bytes of the buffer memory -/

/-- Byte `a` of a memory list (R50). -/
def memGet : List Host.Cell → Nat → Byte
  | [], _ => Config.unwrittenByte
  | c :: rest, a => if c.1 = a then c.2 else memGet rest a

/-- The memory list without address `a`. -/
def memErase : List Host.Cell → Nat → List Host.Cell
  | [], _ => []
  | c :: rest, a => if c.1 = a then memErase rest a else c :: memErase rest a

/-- Put a cell in its place by address. -/
def memInsert (new : Host.Cell) : List Host.Cell → List Host.Cell
  | [] => [new]
  | c :: rest => if new.1 < c.1 then new :: c :: rest else c :: memInsert new rest

/-- `mem[a] <- b` (R53), keeping the canonical form: the entry goes when `b` is what an unlisted byte reads as. -/
def memSet (mem : List Host.Cell) (a : Nat) (b : Byte) : List Host.Cell :=
  if b = Config.unwrittenByte then memErase mem a else memInsert (a, b) (memErase mem a)

/-- `MemRead(a, n)`: `[mem[a], mem[a+1], ..., mem[a+n-1]]` (R52). -/
def memRead (mem : List Host.Cell) (a : Nat) : Nat → List Byte
  | 0 => []
  | n + 1 => memGet mem a :: memRead mem (a + 1) n

/-- `MemWrite(a, n, bytes)`: the bytes in address order from `a` (R53). -/
def memWrite (mem : List Host.Cell) (a : Nat) : List Byte → List Host.Cell
  | [] => mem
  | b :: bs => memWrite (memSet mem a b) (a + 1) bs

/-- The canonical form of a memory list: addresses strictly rising, no entry equal to what an unlisted address reads
as. -/
def Memory.wf : List Host.Cell → Bool
  | [] => true
  | c :: rest => c.2 != Config.unwrittenByte && rest.all (fun d => c.1 < d.1) && Memory.wf rest

/-! ### The memory with its access log (R268) -/

/-- One access of a command: `n` bytes from `a`. -/
inductive Access where
  | read (a n : Nat)
  | write (a n : Nat)
deriving DecidableEq, Repr

/-- The memory as a command works on it: its bytes, and the accesses made so far in their order (R268). The log is no
state of CORE (R35): a meaning keeps the bytes alone, and `accessTrace` shows the log (log 11). -/
structure Bus where
  mem : List Host.Cell
  log : List Access
deriving DecidableEq, Repr

/-- `MemRead(a, n)` on the bus: the bytes, and the bus with the access logged (R52). -/
def Bus.read (b : Bus) (a n : Nat) : List Byte × Bus :=
  (memRead b.mem a n, { b with log := b.log ++ [.read a n] })

/-- `MemWrite(a, n, bytes)` on the bus (R53). -/
def Bus.write (b : Bus) (a : Nat) (bytes : List Byte) : Bus :=
  { mem := memWrite b.mem a bytes, log := b.log ++ [.write a bytes.length] }

/-- The bus at the start of a command. -/
def State.bus (s : State) : Bus := ⟨s.mem, []⟩

/-- The state with the memory a command has left on the bus. -/
def State.withBus (s : State) (b : Bus) : State := { s with mem := b.mem }

/-! ### Errors -/

/-- The cause code of an error (R28, R230). -/
def ErrorKind.code : ErrorKind → BitVec 4
  | .illegalCommand => 1
  | .argError => 2
  | .addrError => 3

/-- `raise <Error>(C)` (R232): `STATUS.ERR <- 1`, `STATUS.CAUSE <- k`, `ERRCMD <- C`, and nothing else. -/
def raiseError (k : ErrorKind) (c : CmdWord) (s : State) : State :=
  { s with status := ⟨true, k.code⟩, errcmd := c }

/-- The host's clear (R28, R237): `ERR`, `CAUSE` and `ERRCMD` become 0 together, and nothing else changes. -/
def clearError (s : State) : State := { s with status := ⟨false, 0⟩, errcmd := 0 }

/-- A command that ends in an error: the word captured is the command's own (R232), `encode i` (log 18). -/
def raise (k : ErrorKind) (i : Instr) (s : State) : Result := .next (raiseError k (encode i) s)

/-- R239 step 2: an illegal command raises `IllegalCommand` (R233), whatever the operands' values. -/
def whenLegal (i : Instr) (s : State) (body : Result) : Result :=
  if i.WellFormed s.hasV8 then body else raise .illegalCommand i s

/-- R51, R235: a buffer of `n` bytes at `a` lies inside the buffer memory. -/
def inRange (s : State) (a n : Nat) : Bool := a + n ≤ s.memSize

/-- R239 step 3, memory commands: every buffer is checked before any byte is read or written (R51, R235). -/
def whenInRange (i : Instr) (buffers : List (Nat × Nat)) (s : State) (body : Result) : Result :=
  if buffers.all (fun b => inRange s b.1 b.2) then body else raise .addrError i s

/-- R239 step 3, Wide commands: the operand precondition of R234. -/
def whenArgs (i : Instr) (ok : Bool) (s : State) (body : Result) : Result :=
  if ok then body else raise .argError i s

/-- The output line `err_o`, whose level equals `STATUS.ERR` at all times (R238). -/
def errO (s : State) : Bool := s.status.err

end Sys2Proof.Machine
end

