-- ==== Sys2Proof/Machine/Operands.lean ====
section
/-!
DEFINITION. The operand forms of CORE: a scalar register at width `W` (spec/00_scope.md R9, spec/10_state.md R21), a
shift amount in a register (R234), the effective address of a vector load or store (spec/20_memory.md R65), the lane
values of a vector register, and the two byte orders of a lane (R54).
-/

namespace Sys2Proof.Machine

/-- A scalar source of a command of width `W`: `x[r][W-1:0]` (R9, R21). -/
def State.readW (s : State) (w : Width) (r : XReg) : BitVec w.bits := (s.getX r).setWidth w.bits

/-- A scalar result of width `W`: `x[r] <- zext_64(v)` (R9). -/
def State.writeW (s : State) (w : Width) (r : XReg) (v : BitVec w.bits) : State := s.setX r (v.setWidth 64)

/-- A natural number result, at most 64, written to all 64 bits of `x[r]` (R100). -/
def State.writeNat (s : State) (r : XReg) (n : Nat) : State := s.setX r (BitVec.ofNat 64 n)

/-- R234: the shift amount in `x[r]` is below 64, the whole 64-bit value compared. -/
def shiftOk (s : State) (r : XReg) : Bool := (s.getX r).toNat < 64

/-- The shift amount in `x[r]`. -/
def shiftAmount (s : State) (r : XReg) : Nat := (s.getX r).toNat

/-- `EA = x[rs1] + zext_64(imm12)`, a sum of natural numbers that does not wrap (R65). -/
def effAddr (s : State) (rs1 : XReg) (imm : BitVec 12) : Nat := (s.getX rs1).toNat + imm.toNat

/-- A buffer address of `SELN` or `ZOUT`: the full 64-bit value of a register (R65). -/
def bufAddr (s : State) (r : XReg) : Nat := (s.getX r).toNat

/-- The bytes of a buffer of `x[rlen]` elements of width `W`: `len * B`, a natural number that does not wrap (R138). -/
def bufBytes (s : State) (w : Width) (rlen : XReg) : Nat := (s.getX rlen).toNat * w.bytes

/-- The bytes of a vector load or store: `4 * NL` (R57). -/
def vecBytes (l : Lanes) : Nat := 4 * l.count

/-- Bits 31:0 of a scalar register, what `VPACK` and `VSPLAT` read (R21). -/
def lowLane (s : State) (r : XReg) : Lane := (s.getX r).setWidth 32

/-- Lanes 0 to `NL - 1` of a vector register, lane 0 first (R37). -/
def State.laneList (s : State) (l : Lanes) (r : VReg) : List Lane := s.v[r.toNat].toList.take l.count

/-- Lane `k` of a list of lane values. -/
def laneAt (us : List Lane) (k : Fin 8) : Lane := us.getD k.val 0

/-- The lane of four bytes, little-endian: `b3 ++ b2 ++ b1 ++ b0` (R183). -/
def laneOfLE : List Byte → Lane
  | [b0, b1, b2, b3] => b3 ++ b2 ++ b1 ++ b0
  | _ => 0

/-- The lane of four bytes, big-endian: `b0 ++ b1 ++ b2 ++ b3` (R184). -/
def laneOfBE : List Byte → Lane
  | [b0, b1, b2, b3] => b0 ++ b1 ++ b2 ++ b3
  | _ => 0

/-- The four bytes of a lane, little-endian: `[u[7:0], u[15:8], u[23:16], u[31:24]]` (R185). -/
def bytesLE (u : Lane) : List Byte :=
  [u.extractLsb' 0 8, u.extractLsb' 8 8, u.extractLsb' 16 8, u.extractLsb' 24 8]

/-- The four bytes of a lane, big-endian: `[u[31:24], u[23:16], u[15:8], u[7:0]]` (R186). -/
def bytesBE (u : Lane) : List Byte :=
  [u.extractLsb' 24 8, u.extractLsb' 16 8, u.extractLsb' 8 8, u.extractLsb' 0 8]

/-- Read `n` lanes from `a` on: lane `l` from the four bytes at `a + 4*l`, lane 0 first (R55, R183, R184). -/
def loadLanes (order : List Byte → Lane) : Nat → Nat → Bus → List Lane × Bus
  | 0, _, b => ([], b)
  | n + 1, a, b =>
    let r := b.read a 4
    let rest := loadLanes order n (a + 4) r.2
    (order r.1 :: rest.1, rest.2)

/-- Write lanes from `a` on: lane `l` to the four bytes at `a + 4*l`, lane 0 first (R55, R185, R186). -/
def storeLanes (order : Lane → List Byte) : List Lane → Nat → Bus → Bus
  | [], _, b => b
  | u :: us, a, b => storeLanes order us (a + 4) (b.write a (order u))

end Sys2Proof.Machine
end

