-- ==== Sys2Proof/Machine/BitOps.lean ====
section
/-!
DEFINITION. The BitOps unit (spec/40_bitops.md): the six functions on a `W`-bit operand, and the meanings of `ISPOW2`,
`HIGHBIT`, `SIGBYTES`, `CTZ`, `CLOG2`, `CLZ`. Each reads `x[rs1]` at width `W` and writes a natural number to `x[rd]`
(R100); none has an error of its own.
-/

namespace Sys2Proof.Machine

/-- The first `k` from `k` on, among the next `fuel` numbers, with `p k`; `k + fuel` when there is none. -/
def firstFrom (p : Nat → Bool) : Nat → Nat → Nat
  | 0, k => k
  | fuel + 1, k => if p k then k else firstFrom p fuel (k + 1)

/-- A power of two strictly greater than 1: `n >= 2 and (n & (n - 1)) = 0` (R101). -/
def isPow2 {w : Nat} (n : BitVec w) : Bool := decide (2 ≤ n.toNat) && (n &&& (n - 1)) == 0

/-- The 1-based index of the highest set bit among bits 0 to `k - 1`, 0 when there is none. -/
def highBitBelow {w : Nat} (n : BitVec w) : Nat → Nat
  | 0 => 0
  | k + 1 => if n.getLsbD k then k + 1 else highBitBelow n k

/-- The 1-based index of the highest set bit, 0 for 0 (R102). -/
def highBit {w : Nat} (n : BitVec w) : Nat := highBitBelow n w

/-- The least `k` in `0 .. W/8` with `n < 2^(8*k)` (R103). -/
def sigBytes {w : Nat} (n : BitVec w) : Nat := firstFrom (fun k => decide (n.toNat < 2 ^ (8 * k))) (w / 8) 0

/-- `W` for 0, else the least `i` with `n[i] = 1` (R104). -/
def trailingZeros {w : Nat} (n : BitVec w) : Nat := if n = 0 then w else firstFrom (fun i => n.getLsbD i) w 0

/-- `W` when bit `W - 1` is set, else the least `k` with `2^k >= n` (R105, 90_conflicts.md C1). -/
def ceilLog2 {w : Nat} (n : BitVec w) : Nat :=
  if n.getLsbD (w - 1) then w else firstFrom (fun k => decide (n.toNat ≤ 2 ^ k)) w 0

/-- `W - HIGHBIT(n)` (R106). -/
def leadingZeros {w : Nat} (n : BitVec w) : Nat := w - highBit n

/-- The shift amounts `W/2, W/4, ..., 1` of R102's second definition. -/
def halvings : Width → List Nat
  | .w8 => [4, 2, 1]
  | .w16 => [8, 4, 2, 1]
  | .w32 => [16, 8, 4, 2, 1]
  | .w64 => [32, 16, 8, 4, 2, 1]

/-- R102's second definition of `HIGHBIT`, the binary-search-style reduction. `CORE` follows the first; a statement
says they agree. -/
def highBitByHalving : List Nat → Nat → Nat → Nat
  | [], hb, n => hb + n
  | h :: hs, hb, n => if n >>> h ≠ 0 then highBitByHalving hs (hb + h) (n >>> h) else highBitByHalving hs hb n

/-- `ISPOW2.W rd, rs1` (R101): 1 for a power of two greater than 1, else 0. -/
def execIspow2 (w : Width) (rd rs1 : XReg) (s : State) : Result :=
  .next (s.writeNat rd (if isPow2 (s.readW w rs1) then 1 else 0))

/-- `HIGHBIT.W rd, rs1` (R102). -/
def execHighbit (w : Width) (rd rs1 : XReg) (s : State) : Result :=
  .next (s.writeNat rd (highBit (s.readW w rs1)))

/-- `SIGBYTES.W rd, rs1` (R103). -/
def execSigbytes (w : Width) (rd rs1 : XReg) (s : State) : Result :=
  .next (s.writeNat rd (sigBytes (s.readW w rs1)))

/-- `CTZ.W rd, rs1` (R104). -/
def execCtz (w : Width) (rd rs1 : XReg) (s : State) : Result :=
  .next (s.writeNat rd (trailingZeros (s.readW w rs1)))

/-- `CLOG2.W rd, rs1` (R105). -/
def execClog2 (w : Width) (rd rs1 : XReg) (s : State) : Result :=
  .next (s.writeNat rd (ceilLog2 (s.readW w rs1)))

/-- `CLZ.W rd, rs1` (R106). -/
def execClz (w : Width) (rd rs1 : XReg) (s : State) : Result :=
  .next (s.writeNat rd (leadingZeros (s.readW w rs1)))

end Sys2Proof.Machine
end

