-- ==== Sys2Proof/Machine/Flags.lean ====
section
/-!
DEFINITION. CORE has no condition codes and no arithmetic flags (spec/10_state.md R25): no command writes a flag as a
side effect, and a carry is kept nowhere. Its only predicates are the mask registers, written by the factories and
combinators of spec/41_mask.md; this file holds what they compute, and the top-bit formulas of R134, which are
informative (a model uses R123 to R129) and are stated equal to them.
-/

namespace Sys2Proof.Machine

/-- `expand_W(b)`: all ones when the mask is set, else 0 (R8). -/
def expand (w : Nat) (b : Bool) : BitVec w := if b then ones w else 0

/-- `MEXP`: not zero (R123). -/
def isNonZero {w : Nat} (v : BitVec w) : Bool := decide (v ≠ 0)

/-- `MISZ`: zero (R124). -/
def isZero {w : Nat} (v : BitVec w) : Bool := decide (v = 0)

/-- `MEQ`: equal (R125). -/
def isEq {w : Nat} (p q : BitVec w) : Bool := decide (p = q)

/-- `MLT`: unsigned less (R126). -/
def isLt {w : Nat} (p q : BitVec w) : Bool := decide (p.toNat < q.toNat)

/-- `MGT`: unsigned greater (R127). -/
def isGt {w : Nat} (p q : BitVec w) : Bool := decide (p.toNat > q.toNat)

/-- `MLTE`: unsigned less or equal (R128). -/
def isLte {w : Nat} (p q : BitVec w) : Bool := decide (p.toNat ≤ q.toNat)

/-- `MGTE`: unsigned greater or equal (R129). -/
def isGte {w : Nat} (p q : BitVec w) : Bool := decide (p.toNat ≥ q.toNat)

/-- `select(x, y)` as the document has it: `q ^ (k & (p ^ q))` (R135). -/
def selectBits {w : Nat} (k p q : BitVec w) : BitVec w := q ^^^ (k &&& (p ^^^ q))

/-! ### The top-bit formulas of R134 -/

/-- `top(a) = a[W-1]`. -/
def top {w : Nat} (a : BitVec w) : Bool := a.getLsbD (w - 1)

/-- `is_zero(x) = top(~x & (x - 1))`. -/
def topIsZero {w : Nat} (v : BitVec w) : Bool := top (~~~v &&& (v - 1))

/-- `is_lt(x, y) = top(x ^ ((x ^ y) | ((x - y) ^ x)))`. -/
def topIsLt {w : Nat} (p q : BitVec w) : Bool := top (p ^^^ ((p ^^^ q) ||| ((p - q) ^^^ p)))

/-- `is_equal(x, y) = is_zero(x ^ y)`. -/
def topIsEq {w : Nat} (p q : BitVec w) : Bool := topIsZero (p ^^^ q)

/-- `is_gt(x, y) = is_lt(y, x)`. -/
def topIsGt {w : Nat} (p q : BitVec w) : Bool := topIsLt q p

/-- `is_lte(x, y) = not is_gt(x, y)`. -/
def topIsLte {w : Nat} (p q : BitVec w) : Bool := !topIsGt p q

/-- `is_gte(x, y) = not is_lt(x, y)`. -/
def topIsGte {w : Nat} (p q : BitVec w) : Bool := !topIsLt p q

/-- `expand(v) = not is_zero(v)`. -/
def topIsNonZero {w : Nat} (v : BitVec w) : Bool := !topIsZero v

end Sys2Proof.Machine
end

