-- ==== Sys2Proof/Machine/Mask.lean ====
section
/-!
DEFINITION. The Mask unit (spec/41_mask.md): the factories (R121 to R129), the combinators (R130 to R133), the
consumers on registers (R135 to R137) and on buffers (R138, R139). No command of it raises `ArgError` (R120).
-/

namespace Sys2Proof.Machine

/-! ### Factories -/

/-- `MSET md` (R121): `m[md] <- 1`. -/
def execMset (md : MReg) (s : State) : Result := .next (s.setM md true)

/-- `MCLR md` (R122): `m[md] <- 0`. -/
def execMclr (md : MReg) (s : State) : Result := .next (s.setM md false)

/-- `MEXP.W md, rs1` (R123). -/
def execMexp (w : Width) (md : MReg) (rs1 : XReg) (s : State) : Result :=
  .next (s.setM md (isNonZero (s.readW w rs1)))

/-- `MISZ.W md, rs1` (R124). -/
def execMisz (w : Width) (md : MReg) (rs1 : XReg) (s : State) : Result :=
  .next (s.setM md (isZero (s.readW w rs1)))

/-- `MEQ.W md, rs1, rs2` (R125). -/
def execMeq (w : Width) (md : MReg) (rs1 rs2 : XReg) (s : State) : Result :=
  .next (s.setM md (isEq (s.readW w rs1) (s.readW w rs2)))

/-- `MLT.W md, rs1, rs2` (R126). -/
def execMlt (w : Width) (md : MReg) (rs1 rs2 : XReg) (s : State) : Result :=
  .next (s.setM md (isLt (s.readW w rs1) (s.readW w rs2)))

/-- `MGT.W md, rs1, rs2` (R127). -/
def execMgt (w : Width) (md : MReg) (rs1 rs2 : XReg) (s : State) : Result :=
  .next (s.setM md (isGt (s.readW w rs1) (s.readW w rs2)))

/-- `MLTE.W md, rs1, rs2` (R128). -/
def execMlte (w : Width) (md : MReg) (rs1 rs2 : XReg) (s : State) : Result :=
  .next (s.setM md (isLte (s.readW w rs1) (s.readW w rs2)))

/-- `MGTE.W md, rs1, rs2` (R129). -/
def execMgte (w : Width) (md : MReg) (rs1 rs2 : XReg) (s : State) : Result :=
  .next (s.setM md (isGte (s.readW w rs1) (s.readW w rs2)))

/-! ### Combinators -/

/-- `MAND md, ms1, ms2` (R130). -/
def execMand (md ms1 ms2 : MReg) (s : State) : Result := .next (s.setM md (s.getM ms1 && s.getM ms2))

/-- `MOR md, ms1, ms2` (R131). -/
def execMor (md ms1 ms2 : MReg) (s : State) : Result := .next (s.setM md (s.getM ms1 || s.getM ms2))

/-- `MXOR md, ms1, ms2` (R132). -/
def execMxor (md ms1 ms2 : MReg) (s : State) : Result := .next (s.setM md (s.getM ms1 ^^ s.getM ms2))

/-- `MNOT md, ms1` (R133). -/
def execMnot (md ms1 : MReg) (s : State) : Result := .next (s.setM md (!s.getM ms1))

/-! ### Consumers on registers -/

/-- `SEL.W rd, ms, rs1, rs2` (R135): `x[rd] <- zext_64(q ^ (k & (p ^ q)))`. -/
def execSel (w : Width) (rd : XReg) (ms : MReg) (rs1 rs2 : XReg) (s : State) : Result :=
  .next (s.writeW w rd (selectBits (expand w.bits (s.getM ms)) (s.readW w rs1) (s.readW w rs2)))

/-- `IFSET.W rd, ms, rs1` (R136): `x[rd] <- zext_64(k & p)`. -/
def execIfset (w : Width) (rd : XReg) (ms : MReg) (rs1 : XReg) (s : State) : Result :=
  .next (s.writeW w rd (expand w.bits (s.getM ms) &&& s.readW w rs1))

/-- `MVAL.W rd, ms` (R137): `x[rd] <- zext_64(expand_W(m[ms]))`. -/
def execMval (w : Width) (rd : XReg) (ms : MReg) (s : State) : Result :=
  .next (s.writeW w rd (expand w.bits (s.getM ms)))

/-! ### Consumers on buffers -/

/-- The loop of R138 over `len` elements of `n` bytes: in ascending order, read the element of `X`, read the element
of `Y`, write the one the mask picks to `D`. Both are read whatever the mask (R268). -/
def selectLoop (n : Nat) (set : Bool) : Nat → Nat → Nat → Nat → Bus → Bus
  | 0, _, _, _, b => b
  | len + 1, d, x, y, b =>
    let ex := b.read x n
    let ey := ex.2.read y n
    selectLoop n set len (d + n) (x + n) (y + n) (ey.2.write d (if set then ex.1 else ey.1))

/-- The three buffers of `SELN`: start address and byte count of `D`, `X`, `Y` (R138, R235). -/
def selnBuffers (w : Width) (rpd rpx rpy rlen : XReg) (s : State) : List (Nat × Nat) :=
  [(bufAddr s rpd, bufBytes s w rlen), (bufAddr s rpx, bufBytes s w rlen), (bufAddr s rpy, bufBytes s w rlen)]

/-- The bus after `SELN`'s loop over `x[rlen]` elements (R138). -/
def selnBus (w : Width) (ms : MReg) (rpd rpx rpy rlen : XReg) (s : State) : Bus :=
  selectLoop w.bytes (s.getM ms) (s.getX rlen).toNat (bufAddr s rpd) (bufAddr s rpx) (bufAddr s rpy) s.bus

/-- `SELN.W ms, (rpd), (rpx), (rpy), rlen` (R138). -/
def execSeln (w : Width) (ms : MReg) (rpd rpx rpy rlen : XReg) (s : State) : Result :=
  whenInRange (.seln w ms rpd rpx rpy rlen) (selnBuffers w rpd rpx rpy rlen s) s <|
    .next (s.withBus (selnBus w ms rpd rpx rpy rlen s))

/-- The loop of R139 over `n` bytes: in ascending order, read the byte and write it back when the mask is set, 0 when
it is cleared (90_conflicts.md C2). Every byte is read and written whatever the mask (R268). -/
def zeroLoop (set : Bool) : Nat → Nat → Bus → Bus
  | 0, _, b => b
  | n + 1, d, b =>
    let t := b.read d 1
    zeroLoop set n (d + 1) (t.2.write d (if set then t.1 else [0]))

/-- The buffer of `ZOUT` (R139, R235). -/
def zoutBuffers (w : Width) (rpd rlen : XReg) (s : State) : List (Nat × Nat) := [(bufAddr s rpd, bufBytes s w rlen)]

/-- The bus after `ZOUT`'s loop over its `x[rlen] * B` bytes (R139). -/
def zoutBus (w : Width) (ms : MReg) (rpd rlen : XReg) (s : State) : Bus :=
  zeroLoop (s.getM ms) (bufBytes s w rlen) (bufAddr s rpd) s.bus

/-- `ZOUT.W ms, (rpd), rlen` (R139). -/
def execZout (w : Width) (ms : MReg) (rpd rlen : XReg) (s : State) : Result :=
  whenInRange (.zout w ms rpd rlen) (zoutBuffers w rpd rlen s) s <|
    .next (s.withBus (zoutBus w ms rpd rlen s))

end Sys2Proof.Machine
end

