-- ==== Sys2Proof/Machine/Simd.lean ====
section
/-!
DEFINITION. The SIMD unit (spec/43_simd.md): the lane functions, the shapes its commands share, and the meanings of its
22 commands. A command works on exactly `NL` lanes; lanes `NL` to 7 of a destination keep their values (R37, R199).
No command of it raises `ArgError` (R199).
-/

namespace Sys2Proof.Machine

/-! ### Functions of one lane -/

/-- `trunc_32(u << N) | (u >> (32 - N))` (R187, R8 `rotl32`). -/
def rotl32 (u : Lane) (n : Nat) : Lane := (u <<< n) ||| (u >>> (32 - n))

/-- `(u >> N) | trunc_32(u << (32 - N))` (R188, R8 `rotr32`). -/
def rotr32 (u : Lane) (n : Nat) : Lane := (u >>> n) ||| (u <<< (32 - n))

/-- `u[7:0] ++ u[15:8] ++ u[23:16] ++ u[31:24]` (R8, R198). -/
def bswap32 (u : Lane) : Lane :=
  u.extractLsb' 0 8 ++ u.extractLsb' 8 8 ++ u.extractLsb' 16 8 ++ u.extractLsb' 24 8

/-- `rotr32(u, R1) ^ rotr32(u, R2) ^ rotr32(u, R3)` (R207). -/
def rho32 (u : Lane) (r1 r2 r3 : Nat) : Lane := rotr32 u r1 ^^^ rotr32 u r2 ^^^ rotr32 u r3

/-! ### Shapes -/

/-- Lane by lane from one source (R199). -/
def mapLanes (l : Lanes) (vd vs1 : VReg) (f : Lane → Lane) (s : State) : State :=
  s.setLanes l vd fun k => f (s.getLane vs1 k)

/-- Lane by lane from two sources (R199). -/
def zipLanes (l : Lanes) (vd vs1 vs2 : VReg) (f : Lane → Lane → Lane) (s : State) : State :=
  s.setLanes l vd fun k => f (s.getLane vs1 k) (s.getLane vs2 k)

/-- The buffer of a vector load or store: `4 * NL` bytes at `EA` (R65, R235). -/
def vecBuffers (l : Lanes) (imm : BitVec 12) (rs1 : XReg) (s : State) : List (Nat × Nat) :=
  [(effAddr s rs1 imm, vecBytes l)]

/-- The `NL` lanes at `EA`, and the bus after reading them (R183, R184). -/
def loadRun (order : List Byte → Lane) (l : Lanes) (imm : BitVec 12) (rs1 : XReg) (s : State) : List Lane × Bus :=
  loadLanes order l.count (effAddr s rs1 imm) s.bus

/-- A vector load (R183, R184): the range check, then `NL` lanes from `EA` on. -/
def loadVec (i : Instr) (order : List Byte → Lane) (l : Lanes) (vd : VReg) (imm : BitVec 12) (rs1 : XReg)
    (s : State) : Result :=
  whenLegal i s <| whenInRange i (vecBuffers l imm rs1 s) s <|
    .next (s.setLanes l vd (laneAt (loadRun order l imm rs1 s).1))

/-- The bus after writing the `NL` lanes of a register to `EA` on (R185, R186). -/
def storeRun (order : Lane → List Byte) (l : Lanes) (vs : VReg) (imm : BitVec 12) (rs1 : XReg) (s : State) : Bus :=
  storeLanes order (s.laneList l vs) (effAddr s rs1 imm) s.bus

/-- A vector store (R185, R186): the range check, then the `NL` lanes of the register to `EA` on. -/
def storeVec (i : Instr) (order : Lane → List Byte) (l : Lanes) (vs : VReg) (imm : BitVec 12) (rs1 : XReg)
    (s : State) : Result :=
  whenLegal i s <| whenInRange i (vecBuffers l imm rs1 s) s <|
    .next (s.withBus (storeRun order l vs imm rs1 s))

/-- Write registers `B_j, B_{j+1}, ...` of a transpose: lane `i` of `B_j` after is lane `j` of `B_i` of `old`, the state
before the command (R205, R206). -/
def writeTransposed (l : Lanes) (regs : List VReg) (old : State) : List VReg → Nat → State → State
  | [], _, s => s
  | r :: rs, j, s =>
    writeTransposed l regs old rs (j + 1)
      (s.setLanes l r fun i => old.getLane (regs.getD i.val 0) (Fin.ofNat 8 j))

/-- The transpose of the vectors `regs` in place: all lanes are read, then all are written (R205, R206). -/
def transpose (l : Lanes) (regs : List VReg) (s : State) : State := writeTransposed l regs s regs 0 s

/-! ### Construction -/

/-- `VZERO.L vd` (R180). -/
def execVzero (l : Lanes) (vd : VReg) (s : State) : Result :=
  whenLegal (.vzero l vd) s <| .next (s.setLanes l vd fun _ => 0)

/-- `VPACK.L vd, rs1` (R181): lane `k` from `x[rs1 + k][31:0]`. -/
def execVpack (l : Lanes) (vd : VReg) (rs1 : XReg) (s : State) : Result :=
  whenLegal (.vpack l vd rs1) s <| .next (s.setLanes l vd fun k => lowLane s (rs1 + BitVec.ofNat 4 k.val))

/-- `VSPLAT.L vd, rs1` (R182). -/
def execVsplat (l : Lanes) (vd : VReg) (rs1 : XReg) (s : State) : Result :=
  whenLegal (.vsplat l vd rs1) s <| .next (s.setLanes l vd fun _ => lowLane s rs1)

/-! ### Loads and stores -/

/-- `VLDLE.L vd, imm12(rs1)` (R183). -/
def execVldle (l : Lanes) (vd : VReg) (imm : BitVec 12) (rs1 : XReg) (s : State) : Result :=
  loadVec (.vldle l vd imm rs1) laneOfLE l vd imm rs1 s

/-- `VLDBE.L vd, imm12(rs1)` (R184). -/
def execVldbe (l : Lanes) (vd : VReg) (imm : BitVec 12) (rs1 : XReg) (s : State) : Result :=
  loadVec (.vldbe l vd imm rs1) laneOfBE l vd imm rs1 s

/-- `VSTLE.L vs, imm12(rs1)` (R185). -/
def execVstle (l : Lanes) (vs : VReg) (imm : BitVec 12) (rs1 : XReg) (s : State) : Result :=
  storeVec (.vstle l vs imm rs1) bytesLE l vs imm rs1 s

/-- `VSTBE.L vs, imm12(rs1)` (R186). -/
def execVstbe (l : Lanes) (vs : VReg) (imm : BitVec 12) (rs1 : XReg) (s : State) : Result :=
  storeVec (.vstbe l vs imm rs1) bytesBE l vs imm rs1 s

/-! ### Rotates -/

/-- `VROTL.L vd, vs1, N` (R187). -/
def execVrotl (l : Lanes) (vd vs1 : VReg) (n : BitVec 5) (s : State) : Result :=
  whenLegal (.vrotl l vd vs1 n) s <| .next (mapLanes l vd vs1 (fun u => rotl32 u n.toNat) s)

/-- `VROTR.L vd, vs1, N` (R188). -/
def execVrotr (l : Lanes) (vd vs1 : VReg) (n : BitVec 5) (s : State) : Result :=
  whenLegal (.vrotr l vd vs1 n) s <| .next (mapLanes l vd vs1 (fun u => rotr32 u n.toNat) s)

/-! ### Arithmetic and logic -/

/-- `VADD.L vd, vs1, vs2` (R189): modulo `2^32` in each lane. -/
def execVadd (l : Lanes) (vd vs1 vs2 : VReg) (s : State) : Result :=
  whenLegal (.vadd l vd vs1 vs2) s <| .next (zipLanes l vd vs1 vs2 (fun a b => a + b) s)

/-- `VSUB.L vd, vs1, vs2` (R190): first minus second, modulo `2^32` in each lane. -/
def execVsub (l : Lanes) (vd vs1 vs2 : VReg) (s : State) : Result :=
  whenLegal (.vsub l vd vs1 vs2) s <| .next (zipLanes l vd vs1 vs2 (fun a b => a - b) s)

/-- `VXOR.L vd, vs1, vs2` (R191). -/
def execVxor (l : Lanes) (vd vs1 vs2 : VReg) (s : State) : Result :=
  whenLegal (.vxor l vd vs1 vs2) s <| .next (zipLanes l vd vs1 vs2 (fun a b => a ^^^ b) s)

/-- `VOR.L vd, vs1, vs2` (R192). -/
def execVor (l : Lanes) (vd vs1 vs2 : VReg) (s : State) : Result :=
  whenLegal (.vor l vd vs1 vs2) s <| .next (zipLanes l vd vs1 vs2 (fun a b => a ||| b) s)

/-- `VAND.L vd, vs1, vs2` (R193). -/
def execVand (l : Lanes) (vd vs1 vs2 : VReg) (s : State) : Result :=
  whenLegal (.vand l vd vs1 vs2) s <| .next (zipLanes l vd vs1 vs2 (fun a b => a &&& b) s)

/-- `VNOT.L vd, vs1` (R194). -/
def execVnot (l : Lanes) (vd vs1 : VReg) (s : State) : Result :=
  whenLegal (.vnot l vd vs1) s <| .next (mapLanes l vd vs1 (fun u => ~~~u) s)

/-- `VANDC.L vd, vs1, vs2` (R195): the first source is complemented. -/
def execVandc (l : Lanes) (vd vs1 vs2 : VReg) (s : State) : Result :=
  whenLegal (.vandc l vd vs1 vs2) s <| .next (zipLanes l vd vs1 vs2 (fun a b => ~~~a &&& b) s)

/-! ### Shifts and byte swap -/

/-- `VSHL.L vd, vs1, N` (R196). -/
def execVshl (l : Lanes) (vd vs1 : VReg) (n : BitVec 5) (s : State) : Result :=
  whenLegal (.vshl l vd vs1 n) s <| .next (mapLanes l vd vs1 (fun u => u <<< n.toNat) s)

/-- `VSHR.L vd, vs1, N` (R197): zero fill. -/
def execVshr (l : Lanes) (vd vs1 : VReg) (n : BitVec 5) (s : State) : Result :=
  whenLegal (.vshr l vd vs1 n) s <| .next (mapLanes l vd vs1 (fun u => u >>> n.toNat) s)

/-- `VBSWAP.L vd, vs1` (R198). -/
def execVbswap (l : Lanes) (vd vs1 : VReg) (s : State) : Result :=
  whenLegal (.vbswap l vd vs1) s <| .next (mapLanes l vd vs1 bswap32 s)

/-! ### Transposes and the fused rotate-XOR -/

/-- `VTRN4 va, vb, vc, vd` (R205). -/
def execVtrn4 (va vb vc vd : VReg) (s : State) : Result :=
  whenLegal (.vtrn4 va vb vc vd) s <| .next (transpose .four [va, vb, vc, vd] s)

/-- `VTRN8 t0, ..., t7` (R206). -/
def execVtrn8 (t0 t1 t2 t3 t4 t5 t6 t7 : VReg) (s : State) : Result :=
  whenLegal (.vtrn8 t0 t1 t2 t3 t4 t5 t6 t7) s <| .next (transpose .eight [t0, t1, t2, t3, t4, t5, t6, t7] s)

/-- `VRHO.L vd, vs1, R1, R2, R3` (R207). -/
def execVrho (l : Lanes) (vd vs1 : VReg) (r1 r2 r3 : BitVec 5) (s : State) : Result :=
  whenLegal (.vrho l vd vs1 r1 r2 r3) s <|
    .next (mapLanes l vd vs1 (fun u => rho32 u r1.toNat r2.toNat r3.toNat) s)

end Sys2Proof.Machine
end

