-- ==== Sys2Proof/Machine/Wide.lean ====
section
/-!
DEFINITION. The Wide unit (spec/42_wide.md): 128-bit values in even and odd pairs of scalar registers (R22). Every
command is illegal with an odd wide field (R82, R168); an `ArgError` writes nothing (R234, R168).
-/

namespace Sys2Proof.Machine

/-- The wide value of a 64-bit scalar: `zext_128`. -/
def zext128 (u : Word) : WideWord := u.setWidth 128

/-- `WMK wd, rs1, rs2` (R160): the low half from `rs1`, the high half from `rs2`. -/
def execWmk (wd rs1 rs2 : XReg) (s : State) : Result :=
  whenLegal (.wmk wd rs1 rs2) s <| .next (s.setWide wd (s.getX rs2 ++ s.getX rs1))

/-- `WSHR wd, ws, rsh` (R161). -/
def execWshr (wd ws rsh : XReg) (s : State) : Result :=
  whenLegal (.wshr wd ws rsh) s <| whenArgs (.wshr wd ws rsh) (shiftOk s rsh) s <|
    .next (s.setWide wd (s.getWide ws >>> shiftAmount s rsh))

/-- `WSHL wd, ws, rsh` (R162). -/
def execWshl (wd ws rsh : XReg) (s : State) : Result :=
  whenLegal (.wshl wd ws rsh) s <| whenArgs (.wshl wd ws rsh) (shiftOk s rsh) s <|
    .next (s.setWide wd (s.getWide ws <<< shiftAmount s rsh))

/-- `WADD wd, ws1, ws2` (R163): the sum modulo `2^128`. -/
def execWadd (wd ws1 ws2 : XReg) (s : State) : Result :=
  whenLegal (.wadd wd ws1 ws2) s <| .next (s.setWide wd (s.getWide ws1 + s.getWide ws2))

/-- `WOR wd, ws1, ws2` (R164). -/
def execWor (wd ws1 ws2 : XReg) (s : State) : Result :=
  whenLegal (.wor wd ws1 ws2) s <| .next (s.setWide wd (s.getWide ws1 ||| s.getWide ws2))

/-- `WMUL wd, ws1, rs2` (R165): the exact product; `ArgError` when the high half of the multiplicand is not 0. -/
def execWmul (wd ws1 rs2 : XReg) (s : State) : Result :=
  whenLegal (.wmul wd ws1 rs2) s <| whenArgs (.wmul wd ws1 rs2) (s.getX (ws1 + 1) == 0) s <|
    .next (s.setWide wd (zext128 (s.getX ws1) * zext128 (s.getX rs2)))

/-- `WCSH rd, ws, rsh` (R166): bits `s+63 .. s` of the wide value. -/
def execWcsh (rd ws rsh : XReg) (s : State) : Result :=
  whenLegal (.wcsh rd ws rsh) s <| whenArgs (.wcsh rd ws rsh) (shiftOk s rsh) s <|
    .next (s.setX rd ((s.getWide ws >>> shiftAmount s rsh).setWidth 64))

/-- `WCMB rd, ws1, rsh1, ws2, rsh2` (R167). -/
def execWcmb (rd ws1 rsh1 ws2 rsh2 : XReg) (s : State) : Result :=
  whenLegal (.wcmb rd ws1 rsh1 ws2 rsh2) s <|
    whenArgs (.wcmb rd ws1 rsh1 ws2 rsh2) (shiftOk s rsh1 && shiftOk s rsh2) s <|
    .next (s.setX rd
      (((s.getWide ws1 >>> shiftAmount s rsh1) ||| (s.getWide ws2 <<< shiftAmount s rsh2)).setWidth 64))

end Sys2Proof.Machine
end

