-- ==== Sys2Proof/Machine/Dispatch.lean ====
section
/-!
DEFINITION. What each command does (step 4 of spec/60_exceptions.md R239, with its own checks of steps 2 and 3), one arm
per row of spec/opcode_table.json.
-/

namespace Sys2Proof.Machine

def exec (i : Instr) (s : State) : Host.Outcome State Fault Refusal :=
  match i with
  | .ispow2 w rd rs1 => Sys2Proof.Machine.execIspow2 w rd rs1 s
  | .highbit w rd rs1 => Sys2Proof.Machine.execHighbit w rd rs1 s
  | .sigbytes w rd rs1 => Sys2Proof.Machine.execSigbytes w rd rs1 s
  | .ctz w rd rs1 => Sys2Proof.Machine.execCtz w rd rs1 s
  | .clog2 w rd rs1 => Sys2Proof.Machine.execClog2 w rd rs1 s
  | .clz w rd rs1 => Sys2Proof.Machine.execClz w rd rs1 s
  | .mset md => Sys2Proof.Machine.execMset md s
  | .mclr md => Sys2Proof.Machine.execMclr md s
  | .mexp w md rs1 => Sys2Proof.Machine.execMexp w md rs1 s
  | .misz w md rs1 => Sys2Proof.Machine.execMisz w md rs1 s
  | .meq w md rs1 rs2 => Sys2Proof.Machine.execMeq w md rs1 rs2 s
  | .mlt w md rs1 rs2 => Sys2Proof.Machine.execMlt w md rs1 rs2 s
  | .mgt w md rs1 rs2 => Sys2Proof.Machine.execMgt w md rs1 rs2 s
  | .mlte w md rs1 rs2 => Sys2Proof.Machine.execMlte w md rs1 rs2 s
  | .mgte w md rs1 rs2 => Sys2Proof.Machine.execMgte w md rs1 rs2 s
  | .mand md ms1 ms2 => Sys2Proof.Machine.execMand md ms1 ms2 s
  | .mor md ms1 ms2 => Sys2Proof.Machine.execMor md ms1 ms2 s
  | .mxor md ms1 ms2 => Sys2Proof.Machine.execMxor md ms1 ms2 s
  | .mnot md ms1 => Sys2Proof.Machine.execMnot md ms1 s
  | .sel w rd ms rs1 rs2 => Sys2Proof.Machine.execSel w rd ms rs1 rs2 s
  | .ifset w rd ms rs1 => Sys2Proof.Machine.execIfset w rd ms rs1 s
  | .mval w rd ms => Sys2Proof.Machine.execMval w rd ms s
  | .seln w ms rpd rpx rpy rlen => Sys2Proof.Machine.execSeln w ms rpd rpx rpy rlen s
  | .zout w ms rpd rlen => Sys2Proof.Machine.execZout w ms rpd rlen s
  | .wmk wd rs1 rs2 => Sys2Proof.Machine.execWmk wd rs1 rs2 s
  | .wshr wd ws rsh => Sys2Proof.Machine.execWshr wd ws rsh s
  | .wshl wd ws rsh => Sys2Proof.Machine.execWshl wd ws rsh s
  | .wadd wd ws1 ws2 => Sys2Proof.Machine.execWadd wd ws1 ws2 s
  | .wor wd ws1 ws2 => Sys2Proof.Machine.execWor wd ws1 ws2 s
  | .wmul wd ws1 rs2 => Sys2Proof.Machine.execWmul wd ws1 rs2 s
  | .wcsh rd ws rsh => Sys2Proof.Machine.execWcsh rd ws rsh s
  | .wcmb rd ws1 rsh1 ws2 rsh2 => Sys2Proof.Machine.execWcmb rd ws1 rsh1 ws2 rsh2 s
  | .vzero l vd => Sys2Proof.Machine.execVzero l vd s
  | .vpack l vd rs1 => Sys2Proof.Machine.execVpack l vd rs1 s
  | .vsplat l vd rs1 => Sys2Proof.Machine.execVsplat l vd rs1 s
  | .vldle l vd imm rs1 => Sys2Proof.Machine.execVldle l vd imm rs1 s
  | .vldbe l vd imm rs1 => Sys2Proof.Machine.execVldbe l vd imm rs1 s
  | .vstle l vs imm rs1 => Sys2Proof.Machine.execVstle l vs imm rs1 s
  | .vstbe l vs imm rs1 => Sys2Proof.Machine.execVstbe l vs imm rs1 s
  | .vrotl l vd vs1 n => Sys2Proof.Machine.execVrotl l vd vs1 n s
  | .vrotr l vd vs1 n => Sys2Proof.Machine.execVrotr l vd vs1 n s
  | .vadd l vd vs1 vs2 => Sys2Proof.Machine.execVadd l vd vs1 vs2 s
  | .vsub l vd vs1 vs2 => Sys2Proof.Machine.execVsub l vd vs1 vs2 s
  | .vxor l vd vs1 vs2 => Sys2Proof.Machine.execVxor l vd vs1 vs2 s
  | .vor l vd vs1 vs2 => Sys2Proof.Machine.execVor l vd vs1 vs2 s
  | .vand l vd vs1 vs2 => Sys2Proof.Machine.execVand l vd vs1 vs2 s
  | .vnot l vd vs1 => Sys2Proof.Machine.execVnot l vd vs1 s
  | .vandc l vd vs1 vs2 => Sys2Proof.Machine.execVandc l vd vs1 vs2 s
  | .vshl l vd vs1 n => Sys2Proof.Machine.execVshl l vd vs1 n s
  | .vshr l vd vs1 n => Sys2Proof.Machine.execVshr l vd vs1 n s
  | .vbswap l vd vs1 => Sys2Proof.Machine.execVbswap l vd vs1 s
  | .vtrn4 va vb vc vd => Sys2Proof.Machine.execVtrn4 va vb vc vd s
  | .vtrn8 t0 t1 t2 t3 t4 t5 t6 t7 => Sys2Proof.Machine.execVtrn8 t0 t1 t2 t3 t4 t5 t6 t7 s
  | .vrho l vd vs1 r1 r2 r3 => Sys2Proof.Machine.execVrho l vd vs1 r1 r2 r3 s

end Sys2Proof.Machine
end

