-- ==== Sys2Proof/Machine/Port.lean ====
section
/-!
DEFINITION. The register port (spec/10_state.md section 7, R27 to R33; spec/60_exceptions.md R241, R242): the map of the
12-bit index, what a read returns, and what a write other than a `CMD` write does. Reads and writes here do not depend
on `STATUS.ERR` (R33, R242).
-/

namespace Sys2Proof.Machine

/-- What an index of the register port names (10_state.md section 7). -/
inductive PortReg where
  | x (r : XReg)
  | m (r : MReg)
  | lane (r : VReg) (k : Fin 8)
  | cap
  | status
  | errcmd
  | memsz
  | cmd
  | reserved
deriving DecidableEq, Repr

/-- The map of the register port (10_state.md section 7). -/
def portReg (ra : BitVec 12) : PortReg :=
  if ra.toNat < 0x10 then .x (BitVec.ofNat 4 ra.toNat)
  else if ra.toNat < 0x20 then .m (BitVec.ofNat 4 (ra.toNat - 0x10))
  else if 0x40 ≤ ra.toNat ∧ ra.toNat < 0x80 then
    .lane (BitVec.ofNat 3 ((ra.toNat - 0x40) / 8)) (Fin.ofNat 8 ((ra.toNat - 0x40) % 8))
  else if ra = 0x100 then .cap
  else if ra = 0x101 then .status
  else if ra = 0x102 then .errcmd
  else if ra = 0x103 then .memsz
  else if ra = 0x104 then .cmd
  else .reserved

/-- The index of `CMD` (R31). -/
def cmdIndex : BitVec 12 := 0x104

/-- Lanes 4 to 7 exist at the port only with `HAS_V8` (R26, R33). -/
def laneExists (s : State) (k : Fin 8) : Bool := s.hasV8 || k.val < 4

/-- `CAP` (R27): `V4` in bit 0, `V8` in bit 1, `W8`, `W16`, `W32`, `W64` in bits 2 to 5, `VER = 1` in bits 11:8. -/
def capWord (s : State) : Word :=
  0#52 ++ 1#4 ++ 0#2 ++ 1#1 ++ 1#1 ++ 1#1 ++ 1#1 ++ BitVec.ofBool s.hasV8 ++ 1#1

/-- `STATUS` (R28): `ERR` in bit 0, `CAUSE` in bits 7:4, every other bit 0. -/
def statusWord (s : State) : Word := 0#56 ++ s.status.cause ++ 0#3 ++ BitVec.ofBool s.status.err

/-- `ERRCMD` (R29): bits 63:32 read 0. -/
def errcmdWord (s : State) : Word := s.errcmd.setWidth 64

/-- `MEMSZ` (R30): `MEMSIZE`, and 0 when `MEMSIZE = 2^64`. -/
def memszWord (s : State) : Word := BitVec.ofNat 64 s.memSize

/-- `RegRead(ra)` (R27 to R33, R241). -/
def regRead (s : State) (ra : BitVec 12) : Word :=
  match portReg ra with
  | .x r => s.getX r
  | .m r => (BitVec.ofBool (s.getM r)).setWidth 64
  | .lane r k => if laneExists s k then (s.getLane r k).setWidth 64 else 0
  | .cap => capWord s
  | .status => statusWord s
  | .errcmd => errcmdWord s
  | .memsz => memszWord s
  | .cmd => 0
  | .reserved => 0

/-- `RegWrite(ra, data)` at an index other than `CMD`'s (R27 to R33, R242): a store into a scalar, mask or vector-lane
register, the clear of the error, or nothing. -/
def regStore (ra : BitVec 12) (data : Word) (s : State) : State :=
  match portReg ra with
  | .x r => s.setX r data
  | .m r => s.setM r (data.getLsbD 0)
  | .lane r k => if laneExists s k then s.setLane r k (data.setWidth 32) else s
  | .status => if data.getLsbD 0 then clearError s else s
  | .cap => s
  | .errcmd => s
  | .memsz => s
  | .cmd => s
  | .reserved => s

end Sys2Proof.Machine
end

