-- ==== Sys2Proof/Machine/Issue.lean ====
section
/-!
DEFINITION. Issuing a command word (spec/60_exceptions.md R236, R239, R240) and the host's transactions (R240 to R244,
spec/70_reset_and_hazards.md R260).
-/

namespace Sys2Proof.Machine

/-- A write of the command word `c` to `CMD` (R240), in the order of R239: dropped while `STATUS.ERR` is 1 (R236),
decoded, and executed or ended in `IllegalCommand` (R233). -/
def issue (c : CmdWord) (s : State) : Result :=
  if s.status.err then .next s
  else
    match decode s.hasV8 c with
    | .ok i => exec i s
    | .error _ => .next (raiseError .illegalCommand c s)

/-- `RegWrite(ra, data)` (R242): at `CMD` it issues `data[31:0]` (R31). -/
def regWrite (ra : BitVec 12) (data : Word) (s : State) : Result :=
  if ra = cmdIndex then issue (data.setWidth 32) s else .next (regStore ra data s)

/-- One transaction of the host, with the value it returns in `reply` (R241 to R244, R260). -/
def transact (t : HostTxn) (s : State) : Result :=
  match t with
  | .regRead ra => .next { s with reply := .word (regRead s ra) }
  | .regWrite ra data => regWrite ra data { s with reply := .none }
  | .memRead a =>
    if a < s.memSize then .next { s with reply := .byte (memGet s.mem a) } else .refused (.hostMemoryOutOfRange a)
  | .memWrite a b =>
    if a < s.memSize then .next { s with mem := memSet s.mem a b, reply := .none }
    else .refused (.hostMemoryOutOfRange a)
  | .reset => .next { clearError s with reply := .none }

end Sys2Proof.Machine
end

