-- ==== Sys2Proof/Machine/Step.lean ====
section
/-!
DEFINITION. One step: the host's next transaction (spec/60_exceptions.md R244). CORE has no step of its own
(spec/00_scope.md R6): with no transaction pending the state stays as it is.
-/

namespace Sys2Proof.Machine

/-- The host performs its next transaction (R244); with none pending the block does nothing (R6, R261). -/
def step (s : State) : Host.Outcome State Fault Refusal :=
  match s.pending with
  | [] => .next s
  | t :: rest => transact t { s with pending := rest }

/-- `s` with the host about to issue the word `w` of `nbits` bits (the bits above are 0): CORE fetches nothing (R24), so
the word's place is a `CMD` write at the head of `pending` (R240). A set `STATUS.ERR`, which would drop the command
(R236), is cleared first; nothing else changes (log 7). -/
def State.withFetchWord (s : State) (nbits w : Nat) : State :=
  { (if s.status.err then clearError s else s) with
    pending := .regWrite cmdIndex (BitVec.ofNat 64 (w % 2 ^ nbits)) :: s.pending }

end Sys2Proof.Machine
end

