-- ==== Sys2Proof/Machine/Access.lean ====
section
/-!
DEFINITION. The access pattern of a command (spec/70_reset_and_hazards.md R268): the addresses it reads and writes and
the order in which it touches them, taken from the bus its meaning works on, and the values R268 lets it depend on.
Every other command touches no memory (spec/10_state.md R34).
-/

namespace Sys2Proof.Machine

/-- The log of a bus, for a command that runs; a command that ends in an error reads and writes nothing (R51, R231). -/
def whenAccessed (i : Instr) (buffers : List (Nat × Nat)) (b : Bus) (s : State) : List Access :=
  if i.WellFormed s.hasV8 ∧ buffers.all (fun f => inRange s f.1 f.2) then b.log else []

/-- The accesses a command makes from this state, in their order (R268). -/
def accessTrace (i : Instr) (s : State) : List Access :=
  match i with
  | .ispow2 _ _ _ | .highbit _ _ _ | .sigbytes _ _ _ | .ctz _ _ _ | .clog2 _ _ _ | .clz _ _ _ | .mset _
  | .mclr _ | .mexp _ _ _ | .misz _ _ _ | .meq _ _ _ _ | .mlt _ _ _ _ | .mgt _ _ _ _ | .mlte _ _ _ _
  | .mgte _ _ _ _ | .mand _ _ _ | .mor _ _ _ | .mxor _ _ _ | .mnot _ _ | .sel _ _ _ _ _ | .ifset _ _ _ _
  | .mval _ _ _ => []
  | .seln w ms rpd rpx rpy rlen =>
    whenAccessed (.seln w ms rpd rpx rpy rlen) (selnBuffers w rpd rpx rpy rlen s) (selnBus w ms rpd rpx rpy rlen s) s
  | .zout w ms rpd rlen =>
    whenAccessed (.zout w ms rpd rlen) (zoutBuffers w rpd rlen s) (zoutBus w ms rpd rlen s) s
  | .wmk _ _ _ | .wshr _ _ _ | .wshl _ _ _ | .wadd _ _ _ | .wor _ _ _ | .wmul _ _ _ | .wcsh _ _ _
  | .wcmb _ _ _ _ _ | .vzero _ _ | .vpack _ _ _ | .vsplat _ _ _ => []
  | .vldle l vd imm rs1 =>
    whenAccessed (.vldle l vd imm rs1) (vecBuffers l imm rs1 s) (loadRun laneOfLE l imm rs1 s).2 s
  | .vldbe l vd imm rs1 =>
    whenAccessed (.vldbe l vd imm rs1) (vecBuffers l imm rs1 s) (loadRun laneOfBE l imm rs1 s).2 s
  | .vstle l vs imm rs1 =>
    whenAccessed (.vstle l vs imm rs1) (vecBuffers l imm rs1 s) (storeRun bytesLE l vs imm rs1 s) s
  | .vstbe l vs imm rs1 =>
    whenAccessed (.vstbe l vs imm rs1) (vecBuffers l imm rs1 s) (storeRun bytesBE l vs imm rs1 s) s
  | .vrotl _ _ _ _ | .vrotr _ _ _ _ | .vadd _ _ _ _ | .vsub _ _ _ _ | .vxor _ _ _ _ | .vor _ _ _ _
  | .vand _ _ _ _ | .vnot _ _ _ | .vandc _ _ _ _ | .vshl _ _ _ _ | .vshr _ _ _ _ | .vbswap _ _ _
  | .vtrn4 _ _ _ _ | .vtrn8 _ _ _ _ _ _ _ _ | .vrho _ _ _ _ _ _ => []

/-- The values a command uses as addresses and lengths: `x[rs1]` of a vector load or store; `x[rpd]`, `x[rpx]`,
`x[rpy]`, `x[rlen]` of `SELN` and `ZOUT` (R268). -/
def addressInputs (i : Instr) (s : State) : List Word :=
  match i with
  | .ispow2 _ _ _ | .highbit _ _ _ | .sigbytes _ _ _ | .ctz _ _ _ | .clog2 _ _ _ | .clz _ _ _ | .mset _
  | .mclr _ | .mexp _ _ _ | .misz _ _ _ | .meq _ _ _ _ | .mlt _ _ _ _ | .mgt _ _ _ _ | .mlte _ _ _ _
  | .mgte _ _ _ _ | .mand _ _ _ | .mor _ _ _ | .mxor _ _ _ | .mnot _ _ | .sel _ _ _ _ _ | .ifset _ _ _ _
  | .mval _ _ _ => []
  | .seln _ _ rpd rpx rpy rlen => [s.getX rpd, s.getX rpx, s.getX rpy, s.getX rlen]
  | .zout _ _ rpd rlen => [s.getX rpd, s.getX rlen]
  | .wmk _ _ _ | .wshr _ _ _ | .wshl _ _ _ | .wadd _ _ _ | .wor _ _ _ | .wmul _ _ _ | .wcsh _ _ _
  | .wcmb _ _ _ _ _ | .vzero _ _ | .vpack _ _ _ | .vsplat _ _ _ => []
  | .vldle _ _ _ rs1 => [s.getX rs1]
  | .vldbe _ _ _ rs1 => [s.getX rs1]
  | .vstle _ _ _ rs1 => [s.getX rs1]
  | .vstbe _ _ _ rs1 => [s.getX rs1]
  | .vrotl _ _ _ _ | .vrotr _ _ _ _ | .vadd _ _ _ _ | .vsub _ _ _ _ | .vxor _ _ _ _ | .vor _ _ _ _
  | .vand _ _ _ _ | .vnot _ _ _ | .vandc _ _ _ _ | .vshl _ _ _ _ | .vshr _ _ _ _ | .vbswap _ _ _
  | .vtrn4 _ _ _ _ | .vtrn8 _ _ _ _ _ _ _ _ | .vrho _ _ _ _ _ _ => []

end Sys2Proof.Machine
end

