-- ==== Sys2Proof/Safety.lean ====
section
/-!
DEFINITION. What counts as a legal state and a legal error record, when a command ends in an error by the tables of
spec/60_exceptions.md R234 and R235, runs and `L = 0` forms of commands, and the frames: what a command leaves unchanged.
-/

namespace Sys2Proof.Machine

/-! ### Legal states -/

/-- R28, R29: `ERR = 0` implies `CAUSE = 0` and `ERRCMD = 0`; `ERR = 1` implies `CAUSE` in {1, 2, 3}. -/
def StatusLegal (s : State) : Prop :=
  (s.status.err = false → s.status.cause = 0 ∧ s.errcmd = 0) ∧
    (s.status.err = true → s.status.cause = 1 ∨ s.status.cause = 2 ∨ s.status.cause = 3)

/-- R26, log 14: without `HAS_V8` lanes 4 to 7 do not exist, and State keeps them 0. -/
def HighLanesAbsent (s : State) : Prop :=
  s.hasV8 = false → ∀ (r : VReg) (k : Fin 8), 4 ≤ k.val → s.getLane r k = 0

/-- The states CORE can be in: the parameter `MEMSIZE` in its range (R5), the memory in canonical form and inside
`0 .. MEMSIZE - 1` (R50), `STATUS` and `ERRCMD` as R28 and R29 say, no lane that does not exist (R26). -/
structure State.Legal (s : State) : Prop where
  memSize_le : s.memSize ≤ 2 ^ 64
  mem_wf : Memory.wf s.mem = true
  mem_inside : ∀ c ∈ s.mem, c.1 < s.memSize
  status : StatusLegal s
  highLanes : HighLanesAbsent s

/-- The commands that can raise `ArgError` (R230, R234). -/
def Instr.canArgError : Instr → Bool
  | .wmul _ _ _ | .wshr _ _ _ | .wshl _ _ _ | .wcsh _ _ _ | .wcmb _ _ _ _ _ => true
  | _ => false

/-- The commands that can raise `AddrError` (R230, R235). -/
def Instr.canAddrError : Instr → Bool
  | .vldle _ _ _ _ | .vldbe _ _ _ _ | .vstle _ _ _ _ | .vstbe _ _ _ _ | .seln _ _ _ _ _ _ | .zout _ _ _ _ => true
  | _ => false

/-- R29, R230: while `ERR` is 1, `ERRCMD` is a word that raises the error `CAUSE` names: an illegal word for 1, a legal
Wide command with an operand precondition for 2, a legal memory command for 3. -/
def ErrorRecordLegal (s : State) : Prop :=
  s.status.err = true →
    (s.status.cause = 1 ∧ ∃ r, decode s.hasV8 s.errcmd = .error r) ∨
    (s.status.cause = 2 ∧ ∃ i, decode s.hasV8 s.errcmd = .ok i ∧ Instr.canArgError i = true) ∨
    (s.status.cause = 3 ∧ ∃ i, decode s.hasV8 s.errcmd = .ok i ∧ Instr.canAddrError i = true)

/-! ### When a command ends in an error -/

/-- R234's table: an operand precondition of the command does not hold. -/
def argViolation (s : State) : Instr → Prop
  | .wmul _ ws1 _ => s.getX (ws1 + 1) ≠ 0
  | .wshr _ _ rsh => 64 ≤ (s.getX rsh).toNat
  | .wshl _ _ rsh => 64 ≤ (s.getX rsh).toNat
  | .wcsh _ _ rsh => 64 ≤ (s.getX rsh).toNat
  | .wcmb _ _ rsh1 _ rsh2 => 64 ≤ (s.getX rsh1).toNat ∨ 64 ≤ (s.getX rsh2).toNat
  | _ => False

/-- The first address after a vector load's or store's bytes: `EA + 4 * NL` (R65, R235). -/
def vecEnd (s : State) (l : Lanes) (imm : BitVec 12) (rs1 : XReg) : Nat :=
  (s.getX rs1).toNat + imm.toNat + 4 * l.count

/-- The first address after a `SELN` or `ZOUT` buffer: `x[rp] + x[rlen] * W / 8` (R235). -/
def bufEnd (s : State) (w : Width) (rp rlen : XReg) : Nat := (s.getX rp).toNat + (s.getX rlen).toNat * w.bits / 8

/-- R235: a buffer of the command does not lie inside the buffer memory. -/
def addrViolation (s : State) : Instr → Prop
  | .vldle l _ imm rs1 => s.memSize < vecEnd s l imm rs1
  | .vldbe l _ imm rs1 => s.memSize < vecEnd s l imm rs1
  | .vstle l _ imm rs1 => s.memSize < vecEnd s l imm rs1
  | .vstbe l _ imm rs1 => s.memSize < vecEnd s l imm rs1
  | .seln w _ rpd rpx rpy rlen =>
    s.memSize < bufEnd s w rpd rlen ∨ s.memSize < bufEnd s w rpx rlen ∨ s.memSize < bufEnd s w rpy rlen
  | .zout w _ rpd rlen => s.memSize < bufEnd s w rpd rlen
  | _ => False

/-- The command ends in `IllegalCommand` (R233), and R232's effect is all that happens. -/
def RaisesIllegal (i : Instr) (s : State) : Prop := exec i s = .next (raiseError .illegalCommand (encode i) s)

/-- The command ends in `ArgError` (R234). -/
def RaisesArg (i : Instr) (s : State) : Prop := exec i s = .next (raiseError .argError (encode i) s)

/-- The command ends in `AddrError` (R235). -/
def RaisesAddr (i : Instr) (s : State) : Prop := exec i s = .next (raiseError .addrError (encode i) s)

/-! ### Sequences and forms of commands -/

/-- The state after the commands of `is`, executed one after the other; `none` where one of them gives no next state. -/
def execAll : List Instr → State → Option State
  | [], s => some s
  | i :: is, s =>
    match exec i s with
    | .next t => execAll is t
    | .fault _ => none
    | .refused _ => none

/-- The `L = 0` form of an `L = 1` command that writes lanes of a vector register (R199); `none` for any other
command. The stores have an `L` bit too, and write no lane; the transposes have none. -/
def fourLaneForm : Instr → Option Instr
  | .vzero .eight vd => some (.vzero .four vd)
  | .vpack .eight vd rs1 => some (.vpack .four vd rs1)
  | .vsplat .eight vd rs1 => some (.vsplat .four vd rs1)
  | .vldle .eight vd imm rs1 => some (.vldle .four vd imm rs1)
  | .vldbe .eight vd imm rs1 => some (.vldbe .four vd imm rs1)
  | .vrotl .eight vd vs1 n => some (.vrotl .four vd vs1 n)
  | .vrotr .eight vd vs1 n => some (.vrotr .four vd vs1 n)
  | .vadd .eight vd vs1 vs2 => some (.vadd .four vd vs1 vs2)
  | .vsub .eight vd vs1 vs2 => some (.vsub .four vd vs1 vs2)
  | .vxor .eight vd vs1 vs2 => some (.vxor .four vd vs1 vs2)
  | .vor .eight vd vs1 vs2 => some (.vor .four vd vs1 vs2)
  | .vand .eight vd vs1 vs2 => some (.vand .four vd vs1 vs2)
  | .vnot .eight vd vs1 => some (.vnot .four vd vs1)
  | .vandc .eight vd vs1 vs2 => some (.vandc .four vd vs1 vs2)
  | .vshl .eight vd vs1 n => some (.vshl .four vd vs1 n)
  | .vshr .eight vd vs1 n => some (.vshr .four vd vs1 n)
  | .vbswap .eight vd vs1 => some (.vbswap .four vd vs1)
  | .vrho .eight vd vs1 r1 r2 r3 => some (.vrho .four vd vs1 r1 r2 r3)
  | _ => none

/-! ### Values -/

/-- A scalar operand at width `W` as a natural number: `x[r][W-1:0]` (R7, R9). -/
def operandNat (s : State) (w : Width) (r : XReg) : Nat := (s.getX r).toNat % 2 ^ w.bits

/-- A wide value as a natural number: `x[r+1] * 2^64 + x[r]` (R22). -/
def wideNat (s : State) (r : XReg) : Nat := (s.getX (r + 1)).toNat * 2 ^ 64 + (s.getX r).toNat

/-- `r` is the number of an even register, as a wide field must be (R22, R82). -/
def EvenReg (r : XReg) : Prop := r.toNat % 2 = 0

/-- The vector type exists on this block (R80, R199). -/
def LanesExist (s : State) (l : Lanes) : Prop := l = .four ∨ s.hasV8 = true

/-- Byte `j` of a 32-bit lane: bits `8*j + 7` down to `8*j`. -/
def laneByte (u : Lane) (j : Nat) : Byte := u.extractLsb' (8 * j) 8

/-- The host is about to write `data` to register index `ra`, and then the transactions `rest` (R242, R244). -/
def AboutToWrite (s : State) (ra : BitVec 12) (data : Word) (rest : List HostTxn) : Prop :=
  s.pending = .regWrite ra data :: rest

/-- The state a register write acts on: the transaction is taken from `pending`, and a write returns nothing. -/
def State.afterWrite (s : State) (rest : List HostTxn) : State := { s with pending := rest, reply := .none }

/-- A reserved index of the register port: every index that 10_state.md section 7 does not list (R32). -/
def ReservedIndex (ra : BitVec 12) : Prop :=
  (0x20 ≤ ra.toNat ∧ ra.toNat < 0x40) ∨ (0x80 ≤ ra.toNat ∧ ra.toNat < 0x100) ∨ 0x105 ≤ ra.toNat

/-! ### Frames -/

/-- What no command touches: the parameters, and the host's transactions and replies (R38, R244). -/
def SameHost (s t : State) : Prop :=
  t.hasV8 = s.hasV8 ∧ t.memSize = s.memSize ∧ t.pending = s.pending ∧ t.reply = s.reply

/-- Every scalar register but those of `rs` is unchanged. -/
def SameX (rs : List XReg) (s t : State) : Prop := ∀ r, r ∉ rs → t.getX r = s.getX r

/-- Every mask register but those of `rs` is unchanged. -/
def SameM (rs : List MReg) (s t : State) : Prop := ∀ r, r ∉ rs → t.getM r = s.getM r

/-- Every lane of every vector register is unchanged, but lanes 0 to `n - 1` of those of `rs`. -/
def SameV (rs : List VReg) (n : Nat) (s t : State) : Prop :=
  ∀ (r : VReg) (k : Fin 8), (r ∉ rs ∨ n ≤ k.val) → t.getLane r k = s.getLane r k

/-- Every byte of memory reads the same, but the `n` bytes at `a`. -/
def SameBytes (a n : Nat) (s t : State) : Prop :=
  ∀ b, (b < a ∨ a + n ≤ b) → memGet t.mem b = memGet s.mem b

/-- `STATUS` and `ERRCMD` are unchanged: the command ended in no error. -/
def SameError (s t : State) : Prop := t.status = s.status ∧ t.errcmd = s.errcmd

/-- Only the scalar registers of `rs` may differ. -/
def OnlyX (rs : List XReg) (s t : State) : Prop :=
  SameX rs s t ∧ SameM [] s t ∧ SameV [] 0 s t ∧ SameBytes 0 0 s t ∧ SameError s t ∧ SameHost s t

/-- Only the mask register `md` may differ. -/
def OnlyM (md : MReg) (s t : State) : Prop :=
  SameX [] s t ∧ SameM [md] s t ∧ SameV [] 0 s t ∧ SameBytes 0 0 s t ∧ SameError s t ∧ SameHost s t

/-- Only lanes 0 to `NL - 1` of the vector registers of `rs` may differ. -/
def OnlyV (rs : List VReg) (l : Lanes) (s t : State) : Prop :=
  SameX [] s t ∧ SameM [] s t ∧ SameV rs l.count s t ∧ SameBytes 0 0 s t ∧ SameError s t ∧ SameHost s t

/-- Only the `n` bytes of memory at `a` may differ. -/
def OnlyBytes (a n : Nat) (s t : State) : Prop :=
  SameX [] s t ∧ SameM [] s t ∧ SameV [] 0 s t ∧ SameBytes a n s t ∧ SameError s t ∧ SameHost s t

/-- Only `STATUS` and `ERRCMD` may differ: what an error leaves (R231, R232). -/
def OnlyError (s t : State) : Prop :=
  SameX [] s t ∧ SameM [] s t ∧ SameV [] 0 s t ∧ SameBytes 0 0 s t ∧ SameHost s t

end Sys2Proof.Machine
end

