-- ==== Sys2Proof/Certificates/Slice0/Obligations.lean ====
section
/-!
DEFINITION. The statements for the provers, in the order of the machine: decoding, the host's transactions and the error
mechanism, the invariants, then the four units. A statement of a command's result says that `exec` answers a next
state, what the destination holds there, and that nothing else changed. `exec` is what a command does once it is
issued and not dropped (R239 step 1 is `issue`'s), so these statements hold whatever `STATUS.ERR` is.
-/

open Sys2Proof Sys2Proof.Machine

/-! ### Decoding and encoding -/

/-- Words of every family, written out from the spec's encodings (30_encoding.md section 10), decode to their commands. -/
def Obligations.DecodesWordsOfEveryFamily : Prop :=
  decode false 0x11831000 = .ok (.highbit .w32 3 1) ∧
  decode false 0x2D864502 = .ok (.sel .w32 6 2 4 5) ∧
  decode false 0x43024600 = .ok (.wadd 2 4 6) ∧
  decode false 0x63020010 = .ok (.vldle .four 0 16 2) ∧
  decode true 0x67B20007 = .ok (.vrotl .eight 3 1 7) ∧
  decode false 0x73029800 = .ok (.vtrn4 0 1 2 3) ∧
  decode true 0x74053977 = .ok (.vtrn8 0 1 2 3 4 5 6 7) ∧
  decode false 0x751009B6 = .ok (.vrho .four 1 0 2 13 22)

/-- The word of every instruction, every operand at every value of its field, decodes to the instruction when it is
legal, and is refused for the reason its check gives when it is not. -/
def Obligations.DecodeUndoesEncode : Prop :=
  ∀ (hasV8 : Bool) (i : Instr),
    (i.WellFormed hasV8 → decode hasV8 (encode i) = .ok i) ∧
    (∀ r, i.illegality hasV8 = some r → decode hasV8 (encode i) = .error r)

/-- Every word the decoder accepts is the encoding of the legal instruction it gives: no bit of a legal word is
dropped, and two words never mean one command. -/
def Obligations.LegalWordIsEncodingOfItsCommand : Prop :=
  ∀ (hasV8 : Bool) (c : CmdWord) (i : Instr), decode hasV8 c = .ok i → i.WellFormed hasV8 ∧ encode i = c

/-- The decoder accepts exactly the words that R83 calls legal, R83 being read as bit tests on the rows of
spec/opcode_table.json. -/
def Obligations.LegalWordsAreTheOpcodeTables : Prop :=
  ∀ (hasV8 : Bool) (c : CmdWord), (∃ i, decode hasV8 c = .ok i) ↔ legalWord hasV8 c = true

/-! ### The host's transactions -/

/-- A `CMD` write whose word decodes to `i`, with `STATUS.ERR` 0, makes the step `exec i` on the state with the
transaction taken and no value returned (R240). -/
def Obligations.StepRunsDecodedCommand : Prop :=
  ∀ (s : State) (data : Word) (rest : List HostTxn) (i : Instr),
    AboutToWrite s 0x104 data rest → s.status.err = false → decode s.hasV8 (data.setWidth 32) = .ok i →
    step s = exec i (s.afterWrite rest)

/-- A `CMD` write of a word that is not legal raises `IllegalCommand` with the word in `ERRCMD` and changes nothing else,
and a legal word never raises it: R83's "exactly when", and R233, whose check reads the word and `HAS_V8` only. -/
def Obligations.IllegalWordsRaiseIllegalCommand : Prop :=
  ∀ (s : State) (data : Word) (rest : List HostTxn), AboutToWrite s 0x104 data rest → s.status.err = false →
    (legalWord s.hasV8 (data.setWidth 32) = false →
      ∃ t, step s = .next t ∧ t.status = ⟨true, 1⟩ ∧ t.errcmd = data.setWidth 32 ∧ OnlyError (s.afterWrite rest) t) ∧
    (legalWord s.hasV8 (data.setWidth 32) = true → ∃ t, step s = .next t ∧ t.status ≠ ⟨true, 1⟩)

/-- While `STATUS.ERR` is 1 a `CMD` write changes nothing, whatever the word (R236). -/
def Obligations.CommandDroppedWhileErrorSet : Prop :=
  ∀ (s : State) (data : Word) (rest : List HostTxn),
    AboutToWrite s 0x104 data rest → s.status.err = true → step s = .next (s.afterWrite rest)

/-- A write to `STATUS` clears `ERR`, `CAUSE` and `ERRCMD` together when bit 0 of the data is 1, and changes nothing
when it is 0 (R28, R237). -/
def Obligations.StatusWriteClearsError : Prop :=
  ∀ (s : State) (data : Word) (rest : List HostTxn), AboutToWrite s 0x101 data rest →
    (data.getLsbD 0 = true →
      step s = .next { s.afterWrite rest with status := ⟨false, 0⟩, errcmd := 0 }) ∧
    (data.getLsbD 0 = false → step s = .next (s.afterWrite rest))

/-- The register files through the port (R33): what a read returns, what a write stores, and that it stores nothing else,
for scalar registers, mask registers and vector lanes, a lane that does not exist among them; whatever `STATUS.ERR`
is. -/
def Obligations.PortAccessesRegisterFiles : Prop :=
  (∀ (s : State) (r : XReg) (data : Word) (rest : List HostTxn),
    regRead s (BitVec.ofNat 12 r.toNat) = s.getX r ∧
    (AboutToWrite s (BitVec.ofNat 12 r.toNat) data rest →
      ∃ t, step s = .next t ∧ t.getX r = data ∧ OnlyX [r] (s.afterWrite rest) t)) ∧
  (∀ (s : State) (r : MReg) (data : Word) (rest : List HostTxn),
    (regRead s (BitVec.ofNat 12 (0x10 + r.toNat))).toNat = (if s.getM r then 1 else 0) ∧
    (AboutToWrite s (BitVec.ofNat 12 (0x10 + r.toNat)) data rest →
      ∃ t, step s = .next t ∧ t.getM r = data.getLsbD 0 ∧ OnlyM r (s.afterWrite rest) t)) ∧
  (∀ (s : State) (r : VReg) (k : Fin 8) (data : Word) (rest : List HostTxn),
    ((k.val < 4 ∨ s.hasV8 = true) →
      (regRead s (BitVec.ofNat 12 (0x40 + 8 * r.toNat + k.val))).toNat = (s.getLane r k).toNat ∧
      (AboutToWrite s (BitVec.ofNat 12 (0x40 + 8 * r.toNat + k.val)) data rest →
        ∃ t, step s = .next t ∧ (t.getLane r k).toNat = data.toNat % 2 ^ 32 ∧
          (∀ q j, (q ≠ r ∨ j ≠ k) → t.getLane q j = s.getLane q j) ∧ OnlyV [r] .eight (s.afterWrite rest) t)) ∧
    (4 ≤ k.val → s.hasV8 = false →
      regRead s (BitVec.ofNat 12 (0x40 + 8 * r.toNat + k.val)) = 0 ∧
      (AboutToWrite s (BitVec.ofNat 12 (0x40 + 8 * r.toNat + k.val)) data rest →
        step s = .next (s.afterWrite rest))))

/-- `CAP` (R27) and `MEMSZ` (R30) read as the two parameters say, a reserved index reads 0 (R32), and a write to any of them
is ignored, with no error and no change of any state. `MEMSIZE` is at most `2^64` (R5). -/
def Obligations.ConstantAndReservedIndices : Prop :=
  ∀ s : State,
    regRead s 0x100 = (if s.hasV8 then 0x13F else 0x13D) ∧
    (s.memSize < 2 ^ 64 → (regRead s 0x103).toNat = s.memSize) ∧
    (s.memSize = 2 ^ 64 → regRead s 0x103 = 0) ∧
    (∀ ra, ReservedIndex ra → regRead s ra = 0) ∧
    (∀ (ra : BitVec 12) (data : Word) (rest : List HostTxn), AboutToWrite s ra data rest →
      ra = 0x100 ∨ ra = 0x103 ∨ ReservedIndex ra → step s = .next (s.afterWrite rest))

/-- What `STATUS` (R28), `ERRCMD` (R29) and `CMD` (R31) read as, and that a write to `ERRCMD` is ignored. -/
def Obligations.StatusAndErrcmdRead : Prop :=
  ∀ s : State,
    (regRead s 0x101).toNat = (if s.status.err then 1 else 0) + 16 * s.status.cause.toNat ∧
    (regRead s 0x102).toNat = s.errcmd.toNat ∧
    regRead s 0x104 = 0 ∧
    (∀ (data : Word) (rest : List HostTxn), AboutToWrite s 0x102 data rest → step s = .next (s.afterWrite rest))

/-- A register read, at any index, returns the register's word and changes no state of the block (R241). -/
def Obligations.RegReadChangesNothing : Prop :=
  ∀ (s : State) (ra : BitVec 12) (rest : List HostTxn), s.pending = .regRead ra :: rest →
    step s = .next { s with pending := rest, reply := .word (regRead s ra) }

/-- The host's own accesses to the buffer memory (R243): inside it, a read returns the byte and a write changes that
byte alone; outside it, the model refuses (93_implementation_defined.md U8). -/
def Obligations.HostMemoryTransactions : Prop :=
  (∀ (s : State) (a : Nat) (rest : List HostTxn), s.pending = .memRead a :: rest →
    (a < s.memSize → step s = .next { s with pending := rest, reply := .byte (memGet s.mem a) }) ∧
    (s.memSize ≤ a → step s = .refused (.hostMemoryOutOfRange a))) ∧
  (∀ (s : State) (a : Nat) (b : Byte) (rest : List HostTxn), s.pending = .memWrite a b :: rest →
    (a < s.memSize →
      ∃ t, step s = .next t ∧ memGet t.mem a = b ∧ OnlyBytes a 1 (s.afterWrite rest) t) ∧
    (s.memSize ≤ a → step s = .refused (.hostMemoryOutOfRange a)))

/-- The host's reset sets `STATUS` and `ERRCMD`, and with it `err_o`, to 0 and touches no register and no byte of
memory (R260). -/
def Obligations.ResetTouchesOnlyTheErrorState : Prop :=
  ∀ (s : State) (rest : List HostTxn), s.pending = .reset :: rest →
    ∃ t, step s = .next t ∧ t = { s.afterWrite rest with status := ⟨false, 0⟩, errcmd := 0 } ∧ errO t = false

/-! ### Errors -/

/-- Precision (R231, R232): when a command gives a next state, either `STATUS` and `ERRCMD` are as before, or the
command raised one of the three errors with its own word in `ERRCMD` and changed nothing else. A term that no legal
word has raises `IllegalCommand` with the word it spells (log 18, 19). -/
def Obligations.CommandErrorIsPrecise : Prop :=
  ∀ (i : Instr) (s t : State), exec i s = .next t →
    SameError s t ∨
      ∃ k : ErrorKind, t.status = ⟨true, k.code⟩ ∧ t.errcmd = encode i ∧ OnlyError s t

/-- Which error a command raises, and when it raises none: a legal one raises `ArgError` exactly on R234's conditions,
`AddrError` exactly on R235's, and otherwise completes with no error; no command can raise both, and an ill-formed
one raises `IllegalCommand` before either (R233, and the order of R239). That `exec` of an ill-formed term, which no
word decodes to, raises `IllegalCommand` with the word it spells is the model's reading (log 19, DEDUCED). -/
def Obligations.ErrorConditionsAreTheTables : Prop :=
  ∀ (i : Instr) (s : State),
    ¬ (argViolation s i ∧ addrViolation s i) ∧
    (¬ i.WellFormed s.hasV8 → exec i s = .next (raiseError .illegalCommand (encode i) s)) ∧
    (i.WellFormed s.hasV8 → argViolation s i → exec i s = .next (raiseError .argError (encode i) s)) ∧
    (i.WellFormed s.hasV8 → addrViolation s i → exec i s = .next (raiseError .addrError (encode i) s)) ∧
    (i.WellFormed s.hasV8 → ¬ argViolation s i → ¬ addrViolation s i →
      ∃ t, exec i s = .next t ∧ SameError s t)

/-! ### Invariants -/

/-- The state after reset is legal, with `STATUS` and `ERRCMD` 0 (R36). The memory, the registers, `HAS_V8` and `MEMSIZE`
are the model's choices (log 1 to 6). -/
def Obligations.ResetStateIsLegal : Prop :=
  State.reset.Legal ∧ ErrorRecordLegal State.reset ∧ State.reset.status = ⟨false, 0⟩ ∧ State.reset.errcmd = 0

/-- Every step keeps a state legal: the memory's canonical form and its bounds, `STATUS` and `ERRCMD` as R28 and R29
say, no lane that does not exist. -/
def Obligations.StepKeepsLegalState : Prop := ∀ s t : State, s.Legal → step s = .next t → t.Legal

/-- Every step keeps the error record true: while `ERR` is 1, `ERRCMD` is a word that raises what `CAUSE` names. -/
def Obligations.StepKeepsErrorRecord : Prop :=
  ∀ s t : State, ErrorRecordLegal s → step s = .next t → ErrorRecordLegal t

/-- The block never stops answering (R249): a step gives a next state, or the host asked for a byte of memory that does
not exist. -/
def Obligations.StepRefusesOnlyMissingHostBytes : Prop :=
  ∀ s : State, (∃ t, step s = .next t) ∨
    ∃ a rest, ((s.pending = .memRead a :: rest) ∨ ∃ b, s.pending = .memWrite a b :: rest) ∧ s.memSize ≤ a ∧
      step s = .refused (.hostMemoryOutOfRange a)

/-- A step takes exactly one transaction from the host's sequence (R244) and never changes the parameters (R38); with none
pending the block does nothing on its own (R6, R261). -/
def Obligations.StepTakesOneTransaction : Prop :=
  ∀ s : State, (s.pending = [] → step s = .next s) ∧
    ∀ t, step s = .next t → t.pending = s.pending.tail ∧ t.hasV8 = s.hasV8 ∧ t.memSize = s.memSize

/-! ### BitOps unit -/

/-- `ISPOW2` (R101): 1 when the operand is a power of two strictly greater than 1, else 0. -/
def Obligations.Ispow2TestsPowerOfTwo : Prop :=
  ∀ (w : Width) (rd rs1 : XReg) (s : State),
    encode (.ispow2 w rd rs1) = 0x10#8 ++ w.code ++ 0#2 ++ rd ++ rs1 ++ 0#4 ++ 0#4 ++ 0#4 ∧
    ∃ t, exec (.ispow2 w rd rs1) s = .next t ∧ OnlyX [rd] s t ∧
      ((∃ k, 1 ≤ k ∧ operandNat s w rs1 = 2 ^ k) → t.getX rd = 1) ∧
      ((¬ ∃ k, 1 ≤ k ∧ operandNat s w rs1 = 2 ^ k) → t.getX rd = 0) ∧
      (t.getX rd = 1 ↔ 2 ≤ operandNat s w rs1 ∧ operandNat s w rs1 &&& (operandNat s w rs1 - 1) = 0)

/-- `HIGHBIT` (R102): 0 for 0, else one more than the largest `i` with `n[i] = 1`; the least `k` with `n < 2^k`. -/
def Obligations.HighbitIsTheBitWidth : Prop :=
  ∀ (w : Width) (rd rs1 : XReg) (s : State),
    encode (.highbit w rd rs1) = 0x11#8 ++ w.code ++ 0#2 ++ rd ++ rs1 ++ 0#4 ++ 0#4 ++ 0#4 ∧
    ∃ t k, exec (.highbit w rd rs1) s = .next t ∧ OnlyX [rd] s t ∧ t.getX rd = BitVec.ofNat 64 k ∧ k ≤ w.bits ∧
      (operandNat s w rs1 = 0 → k = 0) ∧
      (operandNat s w rs1 ≠ 0 → 1 ≤ k ∧ (operandNat s w rs1).testBit (k - 1) = true) ∧
      (∀ j, k ≤ j → (operandNat s w rs1).testBit j = false) ∧
      operandNat s w rs1 < 2 ^ k ∧ (∀ j, operandNat s w rs1 < 2 ^ j → k ≤ j)

/-- `SIGBYTES` (R103): the least `k` with `n < 2^(8*k)`. -/
def Obligations.SigbytesCountsBytes : Prop :=
  ∀ (w : Width) (rd rs1 : XReg) (s : State),
    encode (.sigbytes w rd rs1) = 0x12#8 ++ w.code ++ 0#2 ++ rd ++ rs1 ++ 0#4 ++ 0#4 ++ 0#4 ∧
    ∃ t k, exec (.sigbytes w rd rs1) s = .next t ∧ OnlyX [rd] s t ∧ t.getX rd = BitVec.ofNat 64 k ∧
      k ≤ w.bits / 8 ∧ operandNat s w rs1 < 2 ^ (8 * k) ∧ (∀ j, operandNat s w rs1 < 2 ^ (8 * j) → k ≤ j)

/-- `CTZ` (R104): `W` for 0, else the least `i` with `n[i] = 1`. -/
def Obligations.CtzCountsTrailingZeros : Prop :=
  ∀ (w : Width) (rd rs1 : XReg) (s : State),
    encode (.ctz w rd rs1) = 0x13#8 ++ w.code ++ 0#2 ++ rd ++ rs1 ++ 0#4 ++ 0#4 ++ 0#4 ∧
    ∃ t k, exec (.ctz w rd rs1) s = .next t ∧ OnlyX [rd] s t ∧ t.getX rd = BitVec.ofNat 64 k ∧
      (operandNat s w rs1 = 0 → k = w.bits) ∧
      (operandNat s w rs1 ≠ 0 → k < w.bits ∧ (operandNat s w rs1).testBit k = true) ∧
      (∀ j, j < k → (operandNat s w rs1).testBit j = false)

/-- `CLOG2` (R105, 90_conflicts.md C1): `W` when the top bit is set, `2^(W-1)` included, else the least `k` with
`2^k >= n`. -/
def Obligations.Clog2IsCeilingLog : Prop :=
  ∀ (w : Width) (rd rs1 : XReg) (s : State),
    encode (.clog2 w rd rs1) = 0x14#8 ++ w.code ++ 0#2 ++ rd ++ rs1 ++ 0#4 ++ 0#4 ++ 0#4 ∧
    ∃ t k, exec (.clog2 w rd rs1) s = .next t ∧ OnlyX [rd] s t ∧ t.getX rd = BitVec.ofNat 64 k ∧
      (2 ^ (w.bits - 1) ≤ operandNat s w rs1 → k = w.bits) ∧
      (operandNat s w rs1 < 2 ^ (w.bits - 1) →
        operandNat s w rs1 ≤ 2 ^ k ∧ ∀ j, operandNat s w rs1 ≤ 2 ^ j → k ≤ j)

/-- `CLZ` (40_bitops.md section 2; the command is the spec's own addition, G1 and C3, log 16 and 17):
`W - HIGHBIT(n)`, which is `W` for 0 and else the number of zero bits above the highest set bit. -/
def Obligations.ClzCountsLeadingZeros : Prop :=
  ∀ (w : Width) (rd rs1 : XReg) (s : State),
    encode (.clz w rd rs1) = 0x15#8 ++ w.code ++ 0#2 ++ rd ++ rs1 ++ 0#4 ++ 0#4 ++ 0#4 ∧
    ∃ t k, exec (.clz w rd rs1) s = .next t ∧ OnlyX [rd] s t ∧ t.getX rd = BitVec.ofNat 64 k ∧
      k = w.bits - highBit (s.readW w rs1) ∧ k ≤ w.bits ∧
      (operandNat s w rs1 = 0 → k = w.bits) ∧
      (operandNat s w rs1 ≠ 0 → k < w.bits ∧ (operandNat s w rs1).testBit (w.bits - 1 - k) = true) ∧
      (∀ j, w.bits - k ≤ j → (operandNat s w rs1).testBit j = false)

/-- The identities of the BitOps functions at every width and between widths, that no result exceeds `W`, and that
`HIGHBIT` is what the halving reduction computes (the spec's derivations, 40_bitops.md sections 2 and 3). -/
def Obligations.BitOpsIdentities : Prop :=
  (∀ (w : Width) (n : BitVec w.bits),
    leadingZeros n + highBit n = w.bits ∧
    sigBytes n = (highBit n + 7) / 8 ∧
    (isPow2 n = true ↔ n ≠ 0 ∧ trailingZeros n + 1 = highBit n ∧ 2 ≤ highBit n) ∧
    (2 ≤ n.toNat → n.toNat < 2 ^ (w.bits - 1) → ceilLog2 n = highBit (n - 1)) ∧
    (n.toNat ≤ 1 → ceilLog2 n = 0) ∧
    (2 ^ (w.bits - 1) ≤ n.toNat → ceilLog2 n = w.bits) ∧
    highBit n ≤ w.bits ∧ sigBytes n ≤ w.bits ∧ trailingZeros n ≤ w.bits ∧ ceilLog2 n ≤ w.bits ∧
    leadingZeros n ≤ w.bits ∧ highBitByHalving (halvings w) 0 n.toNat = highBit n) ∧
  (∀ (w w' : Width) (n : BitVec w.bits), w.bits < w'.bits →
    highBit (n.setWidth w'.bits) = highBit n ∧
    sigBytes (n.setWidth w'.bits) = sigBytes n ∧
    leadingZeros (n.setWidth w'.bits) = leadingZeros n + (w'.bits - w.bits) ∧
    (n ≠ 0 → trailingZeros (n.setWidth w'.bits) = trailingZeros n) ∧
    (n = 0 → trailingZeros (n.setWidth w'.bits) = w'.bits))

/-! ### Mask unit -/

/-- `MSET`, `MCLR`, `MEXP`, `MISZ` (R121 to R124). -/
def Obligations.MaskFactoriesOfOneOperand : Prop :=
  ∀ (w : Width) (md : MReg) (rs1 : XReg) (s : State),
    (encode (.mset md) = 0x20#8 ++ 0#2 ++ 0#2 ++ md ++ 0#4 ++ 0#4 ++ 0#4 ++ 0#4 ∧
      ∃ t, exec (.mset md) s = .next t ∧ OnlyM md s t ∧ t.getM md = true) ∧
    (encode (.mclr md) = 0x21#8 ++ 0#2 ++ 0#2 ++ md ++ 0#4 ++ 0#4 ++ 0#4 ++ 0#4 ∧
      ∃ t, exec (.mclr md) s = .next t ∧ OnlyM md s t ∧ t.getM md = false) ∧
    (encode (.mexp w md rs1) = 0x22#8 ++ w.code ++ 0#2 ++ md ++ rs1 ++ 0#4 ++ 0#4 ++ 0#4 ∧
      ∃ t, exec (.mexp w md rs1) s = .next t ∧ OnlyM md s t ∧ (t.getM md = true ↔ operandNat s w rs1 ≠ 0)) ∧
    (encode (.misz w md rs1) = 0x23#8 ++ w.code ++ 0#2 ++ md ++ rs1 ++ 0#4 ++ 0#4 ++ 0#4 ∧
      ∃ t, exec (.misz w md rs1) s = .next t ∧ OnlyM md s t ∧ (t.getM md = true ↔ operandNat s w rs1 = 0))

/-- `MEQ`, `MLT`, `MGT`, `MLTE`, `MGTE` (R125 to R129): the unsigned relations at width `W`. -/
def Obligations.MaskComparisonsAreUnsigned : Prop :=
  ∀ (w : Width) (md : MReg) (rs1 rs2 : XReg) (s : State),
    (encode (.meq w md rs1 rs2) = 0x24#8 ++ w.code ++ 0#2 ++ md ++ rs1 ++ rs2 ++ 0#4 ++ 0#4 ∧
      ∃ t, exec (.meq w md rs1 rs2) s = .next t ∧ OnlyM md s t ∧
        (t.getM md = true ↔ operandNat s w rs1 = operandNat s w rs2)) ∧
    (encode (.mlt w md rs1 rs2) = 0x25#8 ++ w.code ++ 0#2 ++ md ++ rs1 ++ rs2 ++ 0#4 ++ 0#4 ∧
      ∃ t, exec (.mlt w md rs1 rs2) s = .next t ∧ OnlyM md s t ∧
        (t.getM md = true ↔ operandNat s w rs1 < operandNat s w rs2)) ∧
    (encode (.mgt w md rs1 rs2) = 0x26#8 ++ w.code ++ 0#2 ++ md ++ rs1 ++ rs2 ++ 0#4 ++ 0#4 ∧
      ∃ t, exec (.mgt w md rs1 rs2) s = .next t ∧ OnlyM md s t ∧
        (t.getM md = true ↔ operandNat s w rs1 > operandNat s w rs2)) ∧
    (encode (.mlte w md rs1 rs2) = 0x27#8 ++ w.code ++ 0#2 ++ md ++ rs1 ++ rs2 ++ 0#4 ++ 0#4 ∧
      ∃ t, exec (.mlte w md rs1 rs2) s = .next t ∧ OnlyM md s t ∧
        (t.getM md = true ↔ operandNat s w rs1 ≤ operandNat s w rs2)) ∧
    (encode (.mgte w md rs1 rs2) = 0x28#8 ++ w.code ++ 0#2 ++ md ++ rs1 ++ rs2 ++ 0#4 ++ 0#4 ∧
      ∃ t, exec (.mgte w md rs1 rs2) s = .next t ∧ OnlyM md s t ∧
        (t.getM md = true ↔ operandNat s w rs1 ≥ operandNat s w rs2))

/-- `MAND`, `MOR`, `MXOR`, `MNOT` (R130 to R133): the Boolean operation on the old values. -/
def Obligations.MaskCombinatorsAreBoolean : Prop :=
  ∀ (md ms1 ms2 : MReg) (s : State),
    (encode (.mand md ms1 ms2) = 0x29#8 ++ 0#2 ++ 0#2 ++ md ++ 0#4 ++ 0#4 ++ ms2 ++ ms1 ∧
      ∃ t, exec (.mand md ms1 ms2) s = .next t ∧ OnlyM md s t ∧
        (t.getM md = true ↔ s.getM ms1 = true ∧ s.getM ms2 = true)) ∧
    (encode (.mor md ms1 ms2) = 0x2A#8 ++ 0#2 ++ 0#2 ++ md ++ 0#4 ++ 0#4 ++ ms2 ++ ms1 ∧
      ∃ t, exec (.mor md ms1 ms2) s = .next t ∧ OnlyM md s t ∧
        (t.getM md = true ↔ s.getM ms1 = true ∨ s.getM ms2 = true)) ∧
    (encode (.mxor md ms1 ms2) = 0x2B#8 ++ 0#2 ++ 0#2 ++ md ++ 0#4 ++ 0#4 ++ ms2 ++ ms1 ∧
      ∃ t, exec (.mxor md ms1 ms2) s = .next t ∧ OnlyM md s t ∧
        (t.getM md = true ↔ s.getM ms1 ≠ s.getM ms2)) ∧
    (encode (.mnot md ms1) = 0x2C#8 ++ 0#2 ++ 0#2 ++ md ++ 0#4 ++ 0#4 ++ 0#4 ++ ms1 ∧
      ∃ t, exec (.mnot md ms1) s = .next t ∧ OnlyM md s t ∧ (t.getM md = true ↔ s.getM ms1 = false))

/-- `SEL` and `MVAL` (R135, R137): the first operand when the mask is set, the second when it is cleared; all ones at
width `W` when the mask is set, 0 when it is cleared; zero-extended to 64 bits. -/
def Obligations.SelAndMvalReadTheMask : Prop :=
  ∀ (w : Width) (rd : XReg) (ms : MReg) (rs1 rs2 : XReg) (s : State),
    (encode (.sel w rd ms rs1 rs2) = 0x2D#8 ++ w.code ++ 0#2 ++ rd ++ rs1 ++ rs2 ++ 0#4 ++ ms ∧
      ∃ t, exec (.sel w rd ms rs1 rs2) s = .next t ∧ OnlyX [rd] s t ∧
        (s.getM ms = true → (t.getX rd).toNat = operandNat s w rs1) ∧
        (s.getM ms = false → (t.getX rd).toNat = operandNat s w rs2)) ∧
    (encode (.mval w rd ms) = 0x2F#8 ++ w.code ++ 0#2 ++ rd ++ 0#4 ++ 0#4 ++ 0#4 ++ ms ∧
      ∃ t, exec (.mval w rd ms) s = .next t ∧ OnlyX [rd] s t ∧
        (s.getM ms = true → (t.getX rd).toNat = 2 ^ w.bits - 1) ∧ (s.getM ms = false → t.getX rd = 0))

/-- `IFSET` (41_mask.md section 4; the value is the spec's reading of a name, D17, log 16): the operand when the mask is
set, else 0; what `SEL` gives with a register that is 0 at width `W` as its second source. -/
def Obligations.IfsetGivesTheOperandOrZero : Prop :=
  ∀ (w : Width) (rd : XReg) (ms : MReg) (rs1 rs2 : XReg) (s : State),
    encode (.ifset w rd ms rs1) = 0x2E#8 ++ w.code ++ 0#2 ++ rd ++ rs1 ++ 0#4 ++ 0#4 ++ ms ∧
    ∃ t, exec (.ifset w rd ms rs1) s = .next t ∧ OnlyX [rd] s t ∧
      (s.getM ms = true → (t.getX rd).toNat = operandNat s w rs1) ∧ (s.getM ms = false → t.getX rd = 0) ∧
      (operandNat s w rs2 = 0 → exec (.sel w rd ms rs1 rs2) s = .next t)

/-- `SELN` (R138) with its three buffers inside the memory: every byte outside the destination stays; and where the
destination does not start inside the chosen source, every byte of the destination is the chosen source's byte, as it
was before the command. What happens in the overlap left out is `SelnTakesElementsInOrder`. -/
def Obligations.SelnCopiesTheChosenBuffer : Prop :=
  ∀ (w : Width) (ms : MReg) (rpd rpx rpy rlen : XReg) (s : State),
    bufEnd s w rpd rlen ≤ s.memSize → bufEnd s w rpx rlen ≤ s.memSize → bufEnd s w rpy rlen ≤ s.memSize →
    ∃ t, exec (.seln w ms rpd rpx rpy rlen) s = .next t ∧
      OnlyBytes (bufAddr s rpd) ((s.getX rlen).toNat * (w.bits / 8)) s t ∧
      (let src := if s.getM ms then bufAddr s rpx else bufAddr s rpy
       (bufAddr s rpd ≤ src ∨ bufEnd s w (if s.getM ms then rpx else rpy) rlen ≤ bufAddr s rpd) →
        ∀ j, j < (s.getX rlen).toNat * (w.bits / 8) →
          memGet t.mem (bufAddr s rpd + j) = memGet s.mem (src + j))

/-- `SELN` (R138), overlapping buffers included. With its buffers inside the memory it leaves the bytes of `x[rlen]` rounds
of the loop; round `i` overwrites element `i` of the destination with what element `i` of the chosen source then
holds, and no other byte. With a buffer outside the memory it raises `AddrError`. -/
def Obligations.SelnTakesElementsInOrder : Prop :=
  ∀ (w : Width) (ms : MReg) (rpd rpx rpy rlen : XReg) (s : State),
    let after := fun i => selectLoop w.bytes (s.getM ms) i (bufAddr s rpd) (bufAddr s rpx) (bufAddr s rpy) s.bus
    let src := if s.getM ms then bufAddr s rpx else bufAddr s rpy
    encode (.seln w ms rpd rpx rpy rlen) = 0x30#8 ++ w.code ++ 0#2 ++ rpd ++ rpx ++ rpy ++ rlen ++ ms ∧
    (bufEnd s w rpd rlen ≤ s.memSize → bufEnd s w rpx rlen ≤ s.memSize → bufEnd s w rpy rlen ≤ s.memSize →
      exec (.seln w ms rpd rpx rpy rlen) s = .next { s with mem := (after (s.getX rlen).toNat).mem }) ∧
    (after 0).mem = s.mem ∧
    (∀ i j, j < w.bytes →
      memGet (after (i + 1)).mem (bufAddr s rpd + i * w.bytes + j) =
        memGet (after i).mem (src + i * w.bytes + j)) ∧
    (∀ i a, (a < bufAddr s rpd + i * w.bytes ∨ bufAddr s rpd + (i + 1) * w.bytes ≤ a) →
      memGet (after (i + 1)).mem a = memGet (after i).mem a) ∧
    (s.memSize < bufEnd s w rpd rlen ∨ s.memSize < bufEnd s w rpx rlen ∨ s.memSize < bufEnd s w rpy rlen →
      RaisesAddr (.seln w ms rpd rpx rpy rlen) s)

/-- `ZOUT` (R139, 90_conflicts.md C2): with its buffer inside the memory every byte of the buffer is kept when the mask is
set and becomes 0 when it is cleared, and nothing else changes; with the buffer outside, `AddrError`. -/
def Obligations.ZoutZeroesWhenTheMaskIsCleared : Prop :=
  ∀ (w : Width) (ms : MReg) (rpd rlen : XReg) (s : State),
    encode (.zout w ms rpd rlen) = 0x31#8 ++ w.code ++ 0#2 ++ rpd ++ 0#4 ++ 0#4 ++ rlen ++ ms ∧
    (bufEnd s w rpd rlen ≤ s.memSize →
      ∃ t, exec (.zout w ms rpd rlen) s = .next t ∧
        OnlyBytes (bufAddr s rpd) ((s.getX rlen).toNat * (w.bits / 8)) s t ∧
        (∀ j, j < (s.getX rlen).toNat * (w.bits / 8) →
          memGet t.mem (bufAddr s rpd + j) =
            if s.getM ms then memGet s.mem (bufAddr s rpd + j) else 0)) ∧
    (s.memSize < bufEnd s w rpd rlen → RaisesAddr (.zout w ms rpd rlen) s)

/-- The laws of the Mask unit's functions at every width (the spec's derivations, 41_mask.md section 7). -/
def Obligations.MaskLaws : Prop :=
  ∀ (w : Width) (p q v : BitVec w.bits) (k : Bool),
    ((isLt p q = true ∧ isEq p q = false ∧ isGt p q = false) ∨
      (isLt p q = false ∧ isEq p q = true ∧ isGt p q = false) ∨
      (isLt p q = false ∧ isEq p q = false ∧ isGt p q = true)) ∧
    isLte p q = (isLt p q || isEq p q) ∧ isGte p q = (isGt p q || isEq p q) ∧
    isGte p q = !isLt p q ∧ isLte p q = !isGt p q ∧
    isNonZero v = !isZero v ∧ isEq p q = isZero (p ^^^ q) ∧
    ((expand w.bits k).toNat = 0 ∨ (expand w.bits k).toNat = 2 ^ w.bits - 1) ∧
    selectBits (expand w.bits true) p q = p ∧ selectBits (expand w.bits false) p q = q ∧
    expand w.bits k &&& p = selectBits (expand w.bits k) p 0

/-- The top-bit formulas, which the spec supplies from general knowledge (41_mask.md section 2, G2, log 16), compute the
comparisons of R123 to R129, for every pair of operands at every width. -/
def Obligations.TopBitFormulasAreTheComparisons : Prop :=
  ∀ (w : Width) (p q : BitVec w.bits),
    topIsZero p = isZero p ∧ topIsLt p q = isLt p q ∧ topIsEq p q = isEq p q ∧ topIsGt p q = isGt p q ∧
    topIsLte p q = isLte p q ∧ topIsGte p q = isGte p q ∧ topIsNonZero p = isNonZero p

/-! ### Wide unit -/

/-- `WMK` and `WOR` (R160, R164): the halves of the destination from the old values of the sources; an odd wide field is
illegal. -/
def Obligations.WmkAndWorWriteBothHalves : Prop :=
  ∀ (wd rs1 rs2 ws1 ws2 : XReg) (s : State),
    encode (.wmk wd rs1 rs2) = 0x40#8 ++ 0#2 ++ 0#2 ++ wd ++ rs1 ++ rs2 ++ 0#4 ++ 0#4 ∧
    encode (.wor wd ws1 ws2) = 0x44#8 ++ 0#2 ++ 0#2 ++ wd ++ ws1 ++ ws2 ++ 0#4 ++ 0#4 ∧
    (EvenReg wd →
      ∃ t, exec (.wmk wd rs1 rs2) s = .next t ∧ OnlyX [wd, wd + 1] s t ∧
        t.getX wd = s.getX rs1 ∧ t.getX (wd + 1) = s.getX rs2) ∧
    (¬ EvenReg wd → RaisesIllegal (.wmk wd rs1 rs2) s) ∧
    (EvenReg wd ∧ EvenReg ws1 ∧ EvenReg ws2 →
      ∃ t, exec (.wor wd ws1 ws2) s = .next t ∧ OnlyX [wd, wd + 1] s t ∧
        t.getX wd = s.getX ws1 ||| s.getX ws2 ∧
        t.getX (wd + 1) = s.getX (ws1 + 1) ||| s.getX (ws2 + 1)) ∧
    (¬ (EvenReg wd ∧ EvenReg ws1 ∧ EvenReg ws2) → RaisesIllegal (.wor wd ws1 ws2) s)

/-- `WSHR` and `WSHL` (R161, R162): the 128-bit shift as a number and in halves when the amount is below 64, `ArgError`
when it is 64 or more, all 64 bits compared, and `IllegalCommand` with an odd wide field. -/
def Obligations.WideShiftsOfLessThan64 : Prop :=
  ∀ (wd ws rsh : XReg) (s : State),
    encode (.wshr wd ws rsh) = 0x41#8 ++ 0#2 ++ 0#2 ++ wd ++ ws ++ rsh ++ 0#4 ++ 0#4 ∧
    encode (.wshl wd ws rsh) = 0x42#8 ++ 0#2 ++ 0#2 ++ wd ++ ws ++ rsh ++ 0#4 ++ 0#4 ∧
    (EvenReg wd ∧ EvenReg ws → (s.getX rsh).toNat < 64 →
      (∃ t, exec (.wshr wd ws rsh) s = .next t ∧ OnlyX [wd, wd + 1] s t ∧
        wideNat t wd = wideNat s ws / 2 ^ (s.getX rsh).toNat ∧
        t.getX wd = (s.getX ws >>> (s.getX rsh).toNat) ||| (s.getX (ws + 1) <<< (64 - (s.getX rsh).toNat)) ∧
        t.getX (wd + 1) = s.getX (ws + 1) >>> (s.getX rsh).toNat) ∧
      (∃ t, exec (.wshl wd ws rsh) s = .next t ∧ OnlyX [wd, wd + 1] s t ∧
        wideNat t wd = wideNat s ws * 2 ^ (s.getX rsh).toNat % 2 ^ 128 ∧
        t.getX (wd + 1) =
          (s.getX (ws + 1) <<< (s.getX rsh).toNat) ||| (s.getX ws >>> (64 - (s.getX rsh).toNat)) ∧
        t.getX wd = s.getX ws <<< (s.getX rsh).toNat)) ∧
    (EvenReg wd ∧ EvenReg ws → 64 ≤ (s.getX rsh).toNat →
      RaisesArg (.wshr wd ws rsh) s ∧ RaisesArg (.wshl wd ws rsh) s) ∧
    (¬ (EvenReg wd ∧ EvenReg ws) → RaisesIllegal (.wshr wd ws rsh) s ∧ RaisesIllegal (.wshl wd ws rsh) s)

/-- `WADD` (R163): the sum modulo `2^128`, and in halves with the carry found by comparing the new low half with an
original operand, either of them; an odd field is illegal. -/
def Obligations.WaddAddsModulo2To128 : Prop :=
  ∀ (wd ws1 ws2 : XReg) (s : State),
    encode (.wadd wd ws1 ws2) = 0x43#8 ++ 0#2 ++ 0#2 ++ wd ++ ws1 ++ ws2 ++ 0#4 ++ 0#4 ∧
    (EvenReg wd ∧ EvenReg ws1 ∧ EvenReg ws2 →
      ∃ t, exec (.wadd wd ws1 ws2) s = .next t ∧ OnlyX [wd, wd + 1] s t ∧
        wideNat t wd = (wideNat s ws1 + wideNat s ws2) % 2 ^ 128 ∧
        (let lo := s.getX ws1 + s.getX ws2
         let carry : Word := if lo.toNat < (s.getX ws2).toNat then 1 else 0
         t.getX wd = lo ∧ t.getX (wd + 1) = s.getX (ws1 + 1) + s.getX (ws2 + 1) + carry ∧
          (lo.toNat < (s.getX ws2).toNat ↔ lo.toNat < (s.getX ws1).toNat))) ∧
    (¬ (EvenReg wd ∧ EvenReg ws1 ∧ EvenReg ws2) → RaisesIllegal (.wadd wd ws1 ws2) s)

/-- `WMUL` (R165): the exact product when the multiplicand's high half is 0, `ArgError` when it is not, and
`IllegalCommand` with an odd wide field. -/
def Obligations.WmulGivesTheExactProduct : Prop :=
  ∀ (wd ws1 rs2 : XReg) (s : State),
    encode (.wmul wd ws1 rs2) = 0x45#8 ++ 0#2 ++ 0#2 ++ wd ++ ws1 ++ rs2 ++ 0#4 ++ 0#4 ∧
    (EvenReg wd ∧ EvenReg ws1 → s.getX (ws1 + 1) = 0 →
      ∃ t, exec (.wmul wd ws1 rs2) s = .next t ∧ OnlyX [wd, wd + 1] s t ∧
        wideNat t wd = (s.getX ws1).toNat * (s.getX rs2).toNat) ∧
    (EvenReg wd ∧ EvenReg ws1 → s.getX (ws1 + 1) ≠ 0 → RaisesArg (.wmul wd ws1 rs2) s) ∧
    (¬ (EvenReg wd ∧ EvenReg ws1) → RaisesIllegal (.wmul wd ws1 rs2) s)

/-- `WCSH` and `WCMB` (42_wide.md section 2; the formulas are the spec's own choice, G4, log 16): the 64-bit windows, with
shift amounts below 64, else `ArgError`; odd wide sources are illegal, an odd destination is not. -/
def Obligations.WideWindows : Prop :=
  ∀ (rd ws1 rsh1 ws2 rsh2 : XReg) (s : State),
    encode (.wcsh rd ws1 rsh1) = 0x46#8 ++ 0#2 ++ 0#2 ++ rd ++ ws1 ++ rsh1 ++ 0#4 ++ 0#4 ∧
    encode (.wcmb rd ws1 rsh1 ws2 rsh2) = 0x47#8 ++ 0#2 ++ 0#2 ++ rd ++ ws1 ++ rsh1 ++ ws2 ++ rsh2 ∧
    (EvenReg ws1 → (s.getX rsh1).toNat < 64 →
      ∃ t, exec (.wcsh rd ws1 rsh1) s = .next t ∧ OnlyX [rd] s t ∧
        (t.getX rd).toNat = wideNat s ws1 / 2 ^ (s.getX rsh1).toNat % 2 ^ 64) ∧
    (EvenReg ws1 → 64 ≤ (s.getX rsh1).toNat → RaisesArg (.wcsh rd ws1 rsh1) s) ∧
    (¬ EvenReg ws1 → RaisesIllegal (.wcsh rd ws1 rsh1) s) ∧
    (EvenReg ws1 ∧ EvenReg ws2 → (s.getX rsh1).toNat < 64 ∧ (s.getX rsh2).toNat < 64 →
      ∃ t, exec (.wcmb rd ws1 rsh1 ws2 rsh2) s = .next t ∧ OnlyX [rd] s t ∧
        (t.getX rd).toNat =
          (wideNat s ws1 / 2 ^ (s.getX rsh1).toNat ||| wideNat s ws2 * 2 ^ (s.getX rsh2).toNat) % 2 ^ 64) ∧
    (EvenReg ws1 ∧ EvenReg ws2 → 64 ≤ (s.getX rsh1).toNat ∨ 64 ≤ (s.getX rsh2).toNat →
      RaisesArg (.wcmb rd ws1 rsh1 ws2 rsh2) s) ∧
    (¬ (EvenReg ws1 ∧ EvenReg ws2) → RaisesIllegal (.wcmb rd ws1 rsh1 ws2 rsh2) s)

/-! ### SIMD unit -/

/-- `VZERO`, `VPACK`, `VSPLAT` (R180 to R182), their encodings and when they are illegal. -/
def Obligations.VectorConstruction : Prop :=
  ∀ (l : Lanes) (vd : VReg) (rs1 : XReg) (s : State),
    encode (.vzero l vd) = 0x60#8 ++ l.bit ++ vd ++ 0#3 ++ 0#3 ++ 0#9 ++ 0#5 ∧
    encode (.vpack l vd rs1) = 0x61#8 ++ l.bit ++ vd ++ rs1 ++ 0#4 ++ 0#12 ∧
    encode (.vsplat l vd rs1) = 0x62#8 ++ l.bit ++ vd ++ rs1 ++ 0#4 ++ 0#12 ∧
    (LanesExist s l →
      (∃ t, exec (.vzero l vd) s = .next t ∧ OnlyV [vd] l s t ∧
        ∀ k : Fin 8, k.val < l.count → t.getLane vd k = 0) ∧
      (∃ t, exec (.vsplat l vd rs1) s = .next t ∧ OnlyV [vd] l s t ∧
        ∀ k : Fin 8, k.val < l.count → (t.getLane vd k).toNat = (s.getX rs1).toNat % 2 ^ 32) ∧
      (rs1.toNat + l.count ≤ 16 →
        ∃ t, exec (.vpack l vd rs1) s = .next t ∧ OnlyV [vd] l s t ∧
          ∀ k : Fin 8, k.val < l.count →
            (t.getLane vd k).toNat = (s.getX (BitVec.ofNat 4 (rs1.toNat + k.val))).toNat % 2 ^ 32)) ∧
    (¬ LanesExist s l → RaisesIllegal (.vzero l vd) s ∧ RaisesIllegal (.vsplat l vd rs1) s) ∧
    (¬ LanesExist s l ∨ 16 < rs1.toNat + l.count → RaisesIllegal (.vpack l vd rs1) s)

/-- `VLDLE` and `VLDBE` (R183, R184): with the vector inside the memory lane `k` is the four bytes at `EA + 4*k`, the
first byte lowest or highest, and memory is unchanged; else `AddrError`. `EA` does not wrap (R65). -/
def Obligations.VectorLoads : Prop :=
  ∀ (l : Lanes) (vd : VReg) (imm : BitVec 12) (rs1 : XReg) (s : State),
    encode (.vldle l vd imm rs1) = 0x63#8 ++ l.bit ++ vd ++ rs1 ++ 0#4 ++ imm ∧
    encode (.vldbe l vd imm rs1) = 0x64#8 ++ l.bit ++ vd ++ rs1 ++ 0#4 ++ imm ∧
    (LanesExist s l → vecEnd s l imm rs1 ≤ s.memSize →
      (∃ t, exec (.vldle l vd imm rs1) s = .next t ∧ OnlyV [vd] l s t ∧
        ∀ k : Fin 8, k.val < l.count → ∀ j, j < 4 →
          laneByte (t.getLane vd k) j = memGet s.mem ((s.getX rs1).toNat + imm.toNat + 4 * k.val + j)) ∧
      (∃ t, exec (.vldbe l vd imm rs1) s = .next t ∧ OnlyV [vd] l s t ∧
        ∀ k : Fin 8, k.val < l.count → ∀ j, j < 4 →
          laneByte (t.getLane vd k) (3 - j) = memGet s.mem ((s.getX rs1).toNat + imm.toNat + 4 * k.val + j))) ∧
    (LanesExist s l → s.memSize < vecEnd s l imm rs1 →
      RaisesAddr (.vldle l vd imm rs1) s ∧ RaisesAddr (.vldbe l vd imm rs1) s) ∧
    (¬ LanesExist s l → RaisesIllegal (.vldle l vd imm rs1) s ∧ RaisesIllegal (.vldbe l vd imm rs1) s)

/-- `VSTLE` and `VSTBE` (R185, R186): with the vector inside the memory the four bytes at `EA + 4*k` are lane `k`'s,
lowest or highest first, and exactly `4*NL` bytes at `EA` are written; else `AddrError`. -/
def Obligations.VectorStores : Prop :=
  ∀ (l : Lanes) (vs : VReg) (imm : BitVec 12) (rs1 : XReg) (s : State),
    encode (.vstle l vs imm rs1) = 0x65#8 ++ l.bit ++ vs ++ rs1 ++ 0#4 ++ imm ∧
    encode (.vstbe l vs imm rs1) = 0x66#8 ++ l.bit ++ vs ++ rs1 ++ 0#4 ++ imm ∧
    (LanesExist s l → vecEnd s l imm rs1 ≤ s.memSize →
      (∃ t, exec (.vstle l vs imm rs1) s = .next t ∧
        OnlyBytes ((s.getX rs1).toNat + imm.toNat) (4 * l.count) s t ∧
        ∀ k : Fin 8, k.val < l.count → ∀ j, j < 4 →
          memGet t.mem ((s.getX rs1).toNat + imm.toNat + 4 * k.val + j) = laneByte (s.getLane vs k) j) ∧
      (∃ t, exec (.vstbe l vs imm rs1) s = .next t ∧
        OnlyBytes ((s.getX rs1).toNat + imm.toNat) (4 * l.count) s t ∧
        ∀ k : Fin 8, k.val < l.count → ∀ j, j < 4 →
          memGet t.mem ((s.getX rs1).toNat + imm.toNat + 4 * k.val + j) = laneByte (s.getLane vs k) (3 - j))) ∧
    (LanesExist s l → s.memSize < vecEnd s l imm rs1 →
      RaisesAddr (.vstle l vs imm rs1) s ∧ RaisesAddr (.vstbe l vs imm rs1) s) ∧
    (¬ LanesExist s l → RaisesIllegal (.vstle l vs imm rs1) s ∧ RaisesIllegal (.vstbe l vs imm rs1) s)

/-- Round trips (the spec's derivation, 43_simd.md section 3): a load and a store in one byte order copy the bytes, a store and a load from the same address
give the vector back, and a little-endian load stored big-endian reverses the four bytes of each lane. -/
def Obligations.VectorRoundTrips : Prop :=
  ∀ (l : Lanes) (v u : VReg) (imm imm' : BitVec 12) (rs1 rs1' : XReg) (s : State), LanesExist s l →
    vecEnd s l imm rs1 ≤ s.memSize → vecEnd s l imm' rs1' ≤ s.memSize →
    (∃ t1 t2, exec (.vldle l v imm rs1) s = .next t1 ∧ exec (.vstle l v imm' rs1') t1 = .next t2 ∧
      ∀ j, j < 4 * l.count → memGet t2.mem ((s.getX rs1').toNat + imm'.toNat + j) =
        memGet s.mem ((s.getX rs1).toNat + imm.toNat + j)) ∧
    (∃ t1 t2, exec (.vldbe l v imm rs1) s = .next t1 ∧ exec (.vstbe l v imm' rs1') t1 = .next t2 ∧
      ∀ j, j < 4 * l.count → memGet t2.mem ((s.getX rs1').toNat + imm'.toNat + j) =
        memGet s.mem ((s.getX rs1).toNat + imm.toNat + j)) ∧
    (∃ t1 t2, exec (.vstle l v imm rs1) s = .next t1 ∧ exec (.vldle l u imm rs1) t1 = .next t2 ∧
      ∀ k : Fin 8, k.val < l.count → t2.getLane u k = s.getLane v k) ∧
    (∃ t1 t2, exec (.vstbe l v imm rs1) s = .next t1 ∧ exec (.vldbe l u imm rs1) t1 = .next t2 ∧
      ∀ k : Fin 8, k.val < l.count → t2.getLane u k = s.getLane v k) ∧
    (∃ t1 t2, exec (.vldle l v imm rs1) s = .next t1 ∧ exec (.vstbe l v imm' rs1') t1 = .next t2 ∧
      ∀ k, k < l.count → ∀ j, j < 4 →
        memGet t2.mem ((s.getX rs1').toNat + imm'.toNat + 4 * k + j) =
          memGet s.mem ((s.getX rs1).toNat + imm.toNat + 4 * k + (3 - j)))

/-- `VROTL`, `VROTR` and `VBSWAP` (R187, R188, R198): each lane rotated by 1 to 31, as the formulas of the rules and as a
rotation, an amount of 0 illegal; the four bytes of each lane reversed. -/
def Obligations.VectorRotatesAndByteSwap : Prop :=
  ∀ (l : Lanes) (vd vs1 : VReg) (n : BitVec 5) (s : State),
    encode (.vrotl l vd vs1 n) = 0x67#8 ++ l.bit ++ vd ++ vs1 ++ 0#3 ++ 0#9 ++ n ∧
    encode (.vrotr l vd vs1 n) = 0x68#8 ++ l.bit ++ vd ++ vs1 ++ 0#3 ++ 0#9 ++ n ∧
    encode (.vbswap l vd vs1) = 0x72#8 ++ l.bit ++ vd ++ vs1 ++ 0#3 ++ 0#9 ++ 0#5 ∧
    (LanesExist s l → n ≠ 0 →
      (∃ t, exec (.vrotl l vd vs1 n) s = .next t ∧ OnlyV [vd] l s t ∧
        ∀ k : Fin 8, k.val < l.count →
          t.getLane vd k = (s.getLane vs1 k <<< n.toNat) ||| (s.getLane vs1 k >>> (32 - n.toNat)) ∧
          t.getLane vd k = (s.getLane vs1 k).rotateLeft n.toNat) ∧
      (∃ t, exec (.vrotr l vd vs1 n) s = .next t ∧ OnlyV [vd] l s t ∧
        ∀ k : Fin 8, k.val < l.count →
          t.getLane vd k = (s.getLane vs1 k >>> n.toNat) ||| (s.getLane vs1 k <<< (32 - n.toNat)) ∧
          t.getLane vd k = (s.getLane vs1 k).rotateRight n.toNat)) ∧
    (LanesExist s l →
      ∃ t, exec (.vbswap l vd vs1) s = .next t ∧ OnlyV [vd] l s t ∧
        ∀ k : Fin 8, k.val < l.count → ∀ j, j < 4 →
          laneByte (t.getLane vd k) j = laneByte (s.getLane vs1 k) (3 - j)) ∧
    (¬ LanesExist s l ∨ n = 0 → RaisesIllegal (.vrotl l vd vs1 n) s ∧ RaisesIllegal (.vrotr l vd vs1 n) s) ∧
    (¬ LanesExist s l → RaisesIllegal (.vbswap l vd vs1) s)

/-- `VADD` and `VSUB` (R189, R190): modulo `2^32` in each lane, from the old values of both sources. -/
def Obligations.VectorAddAndSubtract : Prop :=
  ∀ (l : Lanes) (vd vs1 vs2 : VReg) (s : State),
    encode (.vadd l vd vs1 vs2) = 0x69#8 ++ l.bit ++ vd ++ vs1 ++ vs2 ++ 0#9 ++ 0#5 ∧
    encode (.vsub l vd vs1 vs2) = 0x6A#8 ++ l.bit ++ vd ++ vs1 ++ vs2 ++ 0#9 ++ 0#5 ∧
    (LanesExist s l →
      (∃ t, exec (.vadd l vd vs1 vs2) s = .next t ∧ OnlyV [vd] l s t ∧
        ∀ k : Fin 8, k.val < l.count →
          (t.getLane vd k).toNat = ((s.getLane vs1 k).toNat + (s.getLane vs2 k).toNat) % 2 ^ 32) ∧
      (∃ t, exec (.vsub l vd vs1 vs2) s = .next t ∧ OnlyV [vd] l s t ∧
        ∀ k : Fin 8, k.val < l.count →
          (t.getLane vd k).toNat = (2 ^ 32 + (s.getLane vs1 k).toNat - (s.getLane vs2 k).toNat) % 2 ^ 32)) ∧
    (¬ LanesExist s l → RaisesIllegal (.vadd l vd vs1 vs2) s ∧ RaisesIllegal (.vsub l vd vs1 vs2) s)

/-- `VXOR`, `VOR`, `VAND`, `VNOT` (R191 to R194), bit by bit in each lane. -/
def Obligations.VectorLogic : Prop :=
  ∀ (l : Lanes) (vd vs1 vs2 : VReg) (s : State),
    encode (.vxor l vd vs1 vs2) = 0x6B#8 ++ l.bit ++ vd ++ vs1 ++ vs2 ++ 0#9 ++ 0#5 ∧
    encode (.vor l vd vs1 vs2) = 0x6C#8 ++ l.bit ++ vd ++ vs1 ++ vs2 ++ 0#9 ++ 0#5 ∧
    encode (.vand l vd vs1 vs2) = 0x6D#8 ++ l.bit ++ vd ++ vs1 ++ vs2 ++ 0#9 ++ 0#5 ∧
    encode (.vnot l vd vs1) = 0x6E#8 ++ l.bit ++ vd ++ vs1 ++ 0#3 ++ 0#9 ++ 0#5 ∧
    (LanesExist s l →
      (∃ t, exec (.vxor l vd vs1 vs2) s = .next t ∧ OnlyV [vd] l s t ∧
        ∀ k : Fin 8, k.val < l.count → ∀ b, (t.getLane vd k).getLsbD b =
          ((s.getLane vs1 k).getLsbD b != (s.getLane vs2 k).getLsbD b)) ∧
      (∃ t, exec (.vor l vd vs1 vs2) s = .next t ∧ OnlyV [vd] l s t ∧
        ∀ k : Fin 8, k.val < l.count → ∀ b, (t.getLane vd k).getLsbD b =
          ((s.getLane vs1 k).getLsbD b || (s.getLane vs2 k).getLsbD b)) ∧
      (∃ t, exec (.vand l vd vs1 vs2) s = .next t ∧ OnlyV [vd] l s t ∧
        ∀ k : Fin 8, k.val < l.count → ∀ b, (t.getLane vd k).getLsbD b =
          ((s.getLane vs1 k).getLsbD b && (s.getLane vs2 k).getLsbD b)) ∧
      (∃ t, exec (.vnot l vd vs1) s = .next t ∧ OnlyV [vd] l s t ∧
        ∀ k : Fin 8, k.val < l.count → (t.getLane vd k).toNat = 0xFFFFFFFF - (s.getLane vs1 k).toNat)) ∧
    (¬ LanesExist s l →
      RaisesIllegal (.vxor l vd vs1 vs2) s ∧ RaisesIllegal (.vor l vd vs1 vs2) s ∧
        RaisesIllegal (.vand l vd vs1 vs2) s ∧ RaisesIllegal (.vnot l vd vs1) s)

/-- `VSHL` and `VSHR` (43_simd.md section 6; the range of the amount is the spec's own choice, G8, log 16): logical
shifts by 1 to 31 in each lane, an amount of 0 illegal. -/
def Obligations.VectorShifts : Prop :=
  ∀ (l : Lanes) (vd vs1 : VReg) (n : BitVec 5) (s : State),
    encode (.vshl l vd vs1 n) = 0x70#8 ++ l.bit ++ vd ++ vs1 ++ 0#3 ++ 0#9 ++ n ∧
    encode (.vshr l vd vs1 n) = 0x71#8 ++ l.bit ++ vd ++ vs1 ++ 0#3 ++ 0#9 ++ n ∧
    (LanesExist s l → n ≠ 0 →
      (∃ t, exec (.vshl l vd vs1 n) s = .next t ∧ OnlyV [vd] l s t ∧
        ∀ k : Fin 8, k.val < l.count →
          (t.getLane vd k).toNat = (s.getLane vs1 k).toNat * 2 ^ n.toNat % 2 ^ 32) ∧
      (∃ t, exec (.vshr l vd vs1 n) s = .next t ∧ OnlyV [vd] l s t ∧
        ∀ k : Fin 8, k.val < l.count → (t.getLane vd k).toNat = (s.getLane vs1 k).toNat / 2 ^ n.toNat)) ∧
    (¬ LanesExist s l ∨ n = 0 → RaisesIllegal (.vshl l vd vs1 n) s ∧ RaisesIllegal (.vshr l vd vs1 n) s)

/-- `VTRN4` (R205): of four different registers, lane `i` of `B_j` after is lane `j` of `B_i` before, for all 16 lanes,
and nothing else changes; a repeated register is illegal, and so is the word with `L` set. -/
def Obligations.Vtrn4Transposes : Prop :=
  ∀ (va vb vc vd : VReg) (s : State),
    encode (.vtrn4 va vb vc vd) = 0x73#8 ++ 0#1 ++ va ++ vb ++ vc ++ vd ++ 0#11 ∧
    ([va, vb, vc, vd].Nodup →
      ∃ t, exec (.vtrn4 va vb vc vd) s = .next t ∧ OnlyV [va, vb, vc, vd] .four s t ∧
        ∀ i j : Fin 8, i.val < 4 → j.val < 4 →
          t.getLane ([va, vb, vc, vd].getD j.val 0) i = s.getLane ([va, vb, vc, vd].getD i.val 0) j) ∧
    (¬ [va, vb, vc, vd].Nodup → RaisesIllegal (.vtrn4 va vb vc vd) s) ∧
    (∀ hasV8, ∃ r, decode hasV8 (0x73#8 ++ 1#1 ++ va ++ vb ++ vc ++ vd ++ 0#11) = .error r)

/-- `VTRN8` (43_simd.md section 8; that the eight-vector form is a plain 8x8 transpose is the spec's own reading, G6,
log 16): of eight different registers on a block with `HAS_V8`, lane `i` of `B_j` after is lane `j` of `B_i` before,
for all 64 lanes; else illegal. -/
def Obligations.Vtrn8Transposes : Prop :=
  ∀ (t0 t1 t2 t3 t4 t5 t6 t7 : VReg) (s : State),
    encode (.vtrn8 t0 t1 t2 t3 t4 t5 t6 t7) = 0x74#8 ++ t0 ++ t1 ++ t2 ++ t3 ++ t4 ++ t5 ++ t6 ++ t7 ∧
    (s.hasV8 = true ∧ [t0, t1, t2, t3, t4, t5, t6, t7].Nodup →
      ∃ t, exec (.vtrn8 t0 t1 t2 t3 t4 t5 t6 t7) s = .next t ∧
        OnlyV [t0, t1, t2, t3, t4, t5, t6, t7] .eight s t ∧
        ∀ i j : Fin 8, t.getLane ([t0, t1, t2, t3, t4, t5, t6, t7].getD j.val 0) i =
          s.getLane ([t0, t1, t2, t3, t4, t5, t6, t7].getD i.val 0) j) ∧
    (¬ (s.hasV8 = true ∧ [t0, t1, t2, t3, t4, t5, t6, t7].Nodup) →
      RaisesIllegal (.vtrn8 t0 t1 t2 t3 t4 t5 t6 t7) s)

/-- A transpose done twice with the same operands gives back every lane of every register (the spec's derivation,
43_simd.md section 10). -/
def Obligations.TransposeTwiceIsIdentity : Prop :=
  ∀ (i : Instr) (s t u : State), i.WellFormed s.hasV8 →
    ((∃ va vb vc vd, i = .vtrn4 va vb vc vd) ∨
      ∃ t0 t1 t2 t3 t4 t5 t6 t7, i = .vtrn8 t0 t1 t2 t3 t4 t5 t6 t7) →
    exec i s = .next t → exec i t = .next u →
    (∀ r k, u.getLane r k = s.getLane r k) ∧ SameError s u

/-- `VANDC` and `VRHO` (43_simd.md sections 5 and 9; which operand is complemented and that the rotations are to the right
are the spec's own choices, G5 and G7, log 16): the complement of the first source ANDed with the second; the XOR of
three right rotations by 1 to 31, of which two equal ones cancel. -/
def Obligations.VandcAndVrho : Prop :=
  ∀ (l : Lanes) (vd vs1 vs2 : VReg) (r1 r2 r3 : BitVec 5) (s : State),
    encode (.vandc l vd vs1 vs2) = 0x6F#8 ++ l.bit ++ vd ++ vs1 ++ vs2 ++ 0#9 ++ 0#5 ∧
    encode (.vrho l vd vs1 r1 r2 r3) = 0x75#8 ++ l.bit ++ vd ++ vs1 ++ 0#2 ++ r1 ++ r2 ++ r3 ∧
    (LanesExist s l →
      ∃ t, exec (.vandc l vd vs1 vs2) s = .next t ∧ OnlyV [vd] l s t ∧
        ∀ k : Fin 8, k.val < l.count → ∀ b, b < 32 → (t.getLane vd k).getLsbD b =
          (!(s.getLane vs1 k).getLsbD b && (s.getLane vs2 k).getLsbD b)) ∧
    (LanesExist s l → r1 ≠ 0 ∧ r2 ≠ 0 ∧ r3 ≠ 0 →
      ∃ t, exec (.vrho l vd vs1 r1 r2 r3) s = .next t ∧ OnlyV [vd] l s t ∧
        ∀ k : Fin 8, k.val < l.count →
          t.getLane vd k = (s.getLane vs1 k).rotateRight r1.toNat ^^^ (s.getLane vs1 k).rotateRight r2.toNat ^^^
            (s.getLane vs1 k).rotateRight r3.toNat ∧
          (r1 = r2 → t.getLane vd k = (s.getLane vs1 k).rotateRight r3.toNat)) ∧
    (¬ LanesExist s l → RaisesIllegal (.vandc l vd vs1 vs2) s) ∧
    (¬ LanesExist s l ∨ r1 = 0 ∨ r2 = 0 ∨ r3 = 0 → RaisesIllegal (.vrho l vd vs1 r1 r2 r3) s)

/-- The laws of the rotate, byte-swap and rotate-XOR functions of one lane, for every legal amount (the spec's
derivations, 43_simd.md section 10). `VectorCommandLaws` states the derived laws of the commands themselves. -/
def Obligations.LaneLaws : Prop :=
  ∀ (a : Lane) (n r1 r2 r3 : Nat), 1 ≤ n → n ≤ 31 → 1 ≤ r1 → r1 ≤ 31 → 1 ≤ r2 → r2 ≤ 31 → 1 ≤ r3 → r3 ≤ 31 →
    rotl32 a n = rotr32 a (32 - n) ∧ rotl32 a n = (a <<< n) ||| (a >>> (32 - n)) ∧
    bswap32 (bswap32 a) = a ∧ bswap32 (laneOfLE (bytesLE a)) = laneOfBE (bytesLE a) ∧
    rho32 a r1 r2 r3 = rotr32 a r1 ^^^ rotr32 a r2 ^^^ rotr32 a r3 ∧
    rho32 a r1 r2 r3 = rho32 a r2 r1 r3 ∧ rho32 a r1 r2 r3 = rho32 a r1 r3 r2

/-- A vector command with `L = 1` that is legal and whose buffer, if it has one, lies in the memory completes, and so
does the same command with `L = 0`; the two agree in lanes 0 to 3 of every register and in everything that is no
lane, and the `L = 0` command leaves lanes 4 to 7 of every register as they were (R37 and 43_simd.md section 10).
First the 18 commands that write lanes, then the two stores, which agree in the bytes of lanes 0 to 3, the `L = 0`
store leaving the bytes after them as they were. -/
def Obligations.EightLanesExtendFour : Prop :=
  (∀ (i8 i4 : Instr) (s : State), fourLaneForm i8 = some i4 → i8.WellFormed s.hasV8 → ¬ addrViolation s i8 →
    ∃ t8 t4, exec i8 s = .next t8 ∧ exec i4 s = .next t4 ∧ SameError s t8 ∧
      (∀ (q : VReg) (k : Fin 8), k.val < 4 → t8.getLane q k = t4.getLane q k) ∧
      (∀ (q : VReg) (k : Fin 8), 4 ≤ k.val → t4.getLane q k = s.getLane q k) ∧
      SameX [] t8 t4 ∧ SameM [] t8 t4 ∧ SameBytes 0 0 t8 t4 ∧ SameError t8 t4 ∧ SameHost t8 t4) ∧
  (∀ (vs : VReg) (imm : BitVec 12) (rs1 : XReg) (s : State), s.hasV8 = true → vecEnd s .eight imm rs1 ≤ s.memSize →
    (∃ t8 t4, exec (.vstle .eight vs imm rs1) s = .next t8 ∧ exec (.vstle .four vs imm rs1) s = .next t4 ∧
      OnlyBytes (vecEnd s .four imm rs1) 16 t4 t8 ∧
      ∀ b, vecEnd s .four imm rs1 ≤ b → memGet t4.mem b = memGet s.mem b) ∧
    (∃ t8 t4, exec (.vstbe .eight vs imm rs1) s = .next t8 ∧ exec (.vstbe .four vs imm rs1) s = .next t4 ∧
      OnlyBytes (vecEnd s .four imm rs1) 16 t4 t8 ∧
      ∀ b, vecEnd s .four imm rs1 ≤ b → memGet t4.mem b = memGet s.mem b))

/-- The laws that the spec derives for the vector commands (43_simd.md section 10), for every vector type the block has
and every legal amount, each a run of commands or an equation of two: `VADD` and `VSUB` undo one another; `VNOT` and
`VBSWAP` undo themselves; `VANDC` is `VNOT` then `VAND`; `VROTL` by `N` is `VROTR` by `32 - N`, and the `VOR` of a
`VSHL` and a `VSHR`; `VRHO` is the `VXOR` of three `VROTR` and takes its amounts in any order. A register that
holds an intermediate vector must differ from the sources still to be read; no other register need differ. -/
def Obligations.VectorCommandLaws : Prop :=
  ∀ (l : Lanes) (s : State), LanesExist s l →
    (∀ a b p d : VReg, p ≠ b →
      (∃ t, execAll [.vadd l p a b, .vsub l d p b] s = some t ∧
        ∀ k : Fin 8, k.val < l.count → t.getLane d k = s.getLane a k) ∧
      (∃ t, execAll [.vsub l p a b, .vadd l d p b] s = some t ∧
        ∀ k : Fin 8, k.val < l.count → t.getLane d k = s.getLane a k)) ∧
    (∀ a p d : VReg,
      (∃ t, execAll [.vnot l p a, .vnot l d p] s = some t ∧
        ∀ k : Fin 8, k.val < l.count → t.getLane d k = s.getLane a k) ∧
      (∃ t, execAll [.vbswap l p a, .vbswap l d p] s = some t ∧
        ∀ k : Fin 8, k.val < l.count → t.getLane d k = s.getLane a k)) ∧
    (∀ a b p d : VReg, p ≠ b →
      ∃ t u, exec (.vandc l d a b) s = .next t ∧ execAll [.vnot l p a, .vand l d p b] s = some u ∧
        ∀ k : Fin 8, k.val < l.count → t.getLane d k = u.getLane d k) ∧
    (∀ (a p q d : VReg) (n n' : BitVec 5), n.toNat + n'.toNat = 32 → p ≠ a → p ≠ q →
      ∃ t u, exec (.vrotl l d a n) s = .next t ∧ exec (.vrotr l d a n') s = .next t ∧
        execAll [.vshl l p a n, .vshr l q a n', .vor l d p q] s = some u ∧
        ∀ k : Fin 8, k.val < l.count → t.getLane d k = u.getLane d k) ∧
    (∀ (a p q r d : VReg) (r1 r2 r3 : BitVec 5), r1 ≠ 0 → r2 ≠ 0 → r3 ≠ 0 → p ≠ a → q ≠ a → p ≠ q → p ≠ r → q ≠ r →
      ∃ t u, exec (.vrho l d a r1 r2 r3) s = .next t ∧ exec (.vrho l d a r2 r1 r3) s = .next t ∧
        exec (.vrho l d a r1 r3 r2) s = .next t ∧
        execAll [.vrotr l p a r1, .vrotr l q a r2, .vrotr l r a r3, .vxor l p p q, .vxor l d p r] s = some u ∧
        ∀ k : Fin 8, k.val < l.count → t.getLane d k = u.getLane d k)

/-! ### The access pattern -/

/-- The accesses of a command, and their order, depend on the command word and on the address and length values it uses
only: not on any other scalar, mask, lane or byte of memory (R268). -/
def Obligations.AccessPatternIndependentOfData : Prop :=
  ∀ (i : Instr) (s t : State), s.hasV8 = t.hasV8 → s.memSize = t.memSize → addressInputs i s = addressInputs i t →
    accessTrace i s = accessTrace i t

/-- The trace shows every byte a command changes: a byte that differs afterwards lies in one of its write accesses. -/
def Obligations.AccessTraceShowsEveryWrite : Prop :=
  ∀ (i : Instr) (s t : State) (b : Nat), exec i s = .next t → memGet t.mem b ≠ memGet s.mem b →
    ∃ a n, Access.write a n ∈ accessTrace i s ∧ a ≤ b ∧ b < a + n
end

