-- ==== Sys2Proof/Laws/Encoding.lean ====
section
/-!
SUPPORT. The fields of an encoded word: for each format, bit `i` of the word, and each field read back.
-/

namespace Sys2Proof

/-! ### Format S -/

theorem wordS_getLsbD (op : BitVec 8) (w : BitVec 2) (a b c d e : BitVec 4) (i : Nat) :
    (wordS op w a b c d e).getLsbD i =
      if i < 4 then e.getLsbD i else if i - 4 < 4 then d.getLsbD (i - 4) else
      if i - 8 < 4 then c.getLsbD (i - 8) else if i - 12 < 4 then b.getLsbD (i - 12) else
      if i - 16 < 4 then a.getLsbD (i - 16) else if i - 20 < 2 then false else
      if i - 22 < 2 then w.getLsbD (i - 22) else op.getLsbD (i - 24) := by
  show BitVec.getLsbD (op ++ w ++ 0#2 ++ a ++ b ++ c ++ d ++ e : BitVec (8+2+2+4+4+4+4+4)) i = _
  simp only [BitVec.getLsbD_append]
  simp only [Nat.sub_sub, Nat.reduceAdd, BitVec.getLsbD_zero]

@[simp] theorem fldOp_wordS (op : BitVec 8) (w : BitVec 2) (a b c d e : BitVec 4) :
    fldOp (wordS op w a b c d e) = op := by
  apply BitVec.eq_of_getLsbD_eq
  intro i hi
  simp only [fldOp, BitVec.getLsbD_extractLsb', wordS_getLsbD, hi, decide_true, Bool.true_and]
  split_ifs <;> first | rfl | omega | (congr 1; omega)

@[simp] theorem fldW_wordS (op : BitVec 8) (w : BitVec 2) (a b c d e : BitVec 4) :
    fldW (wordS op w a b c d e) = w := by
  apply BitVec.eq_of_getLsbD_eq
  intro i hi
  simp only [fldW, BitVec.getLsbD_extractLsb', wordS_getLsbD, hi, decide_true, Bool.true_and]
  split_ifs <;> first | rfl | omega | (congr 1; omega)

@[simp] theorem fldZ_wordS (op : BitVec 8) (w : BitVec 2) (a b c d e : BitVec 4) :
    fldZ (wordS op w a b c d e) = 0#2 := by
  apply BitVec.eq_of_getLsbD_eq
  intro i hi
  simp only [fldZ, BitVec.getLsbD_extractLsb', wordS_getLsbD, hi, decide_true, Bool.true_and, BitVec.getLsbD_zero]
  split_ifs <;> first | rfl | omega

@[simp] theorem fldA_wordS (op : BitVec 8) (w : BitVec 2) (a b c d e : BitVec 4) :
    fldA (wordS op w a b c d e) = a := by
  apply BitVec.eq_of_getLsbD_eq
  intro i hi
  simp only [fldA, BitVec.getLsbD_extractLsb', wordS_getLsbD, hi, decide_true, Bool.true_and]
  split_ifs <;> first | rfl | omega | (congr 1; omega)

@[simp] theorem fldB_wordS (op : BitVec 8) (w : BitVec 2) (a b c d e : BitVec 4) :
    fldB (wordS op w a b c d e) = b := by
  apply BitVec.eq_of_getLsbD_eq
  intro i hi
  simp only [fldB, BitVec.getLsbD_extractLsb', wordS_getLsbD, hi, decide_true, Bool.true_and]
  split_ifs <;> first | rfl | omega | (congr 1; omega)

@[simp] theorem fldC_wordS (op : BitVec 8) (w : BitVec 2) (a b c d e : BitVec 4) :
    fldC (wordS op w a b c d e) = c := by
  apply BitVec.eq_of_getLsbD_eq
  intro i hi
  simp only [fldC, BitVec.getLsbD_extractLsb', wordS_getLsbD, hi, decide_true, Bool.true_and]
  split_ifs <;> first | rfl | omega | (congr 1; omega)

@[simp] theorem fldD_wordS (op : BitVec 8) (w : BitVec 2) (a b c d e : BitVec 4) :
    fldD (wordS op w a b c d e) = d := by
  apply BitVec.eq_of_getLsbD_eq
  intro i hi
  simp only [fldD, BitVec.getLsbD_extractLsb', wordS_getLsbD, hi, decide_true, Bool.true_and]
  split_ifs <;> first | rfl | omega | (congr 1; omega)

@[simp] theorem fldE_wordS (op : BitVec 8) (w : BitVec 2) (a b c d e : BitVec 4) :
    fldE (wordS op w a b c d e) = e := by
  apply BitVec.eq_of_getLsbD_eq
  intro i hi
  simp only [fldE, BitVec.getLsbD_extractLsb', wordS_getLsbD, hi, decide_true, Bool.true_and]
  split_ifs <;> first | rfl | omega | (congr 1; omega)

/-! ### Format V -/

theorem wordV_getLsbD (op : BitVec 8) (l : BitVec 1) (vd vs1 vs2 : BitVec 3) (n : BitVec 5) (i : Nat) :
    (wordV op l vd vs1 vs2 n).getLsbD i =
      if i < 5 then n.getLsbD i else if i - 5 < 9 then false else if i - 14 < 3 then vs2.getLsbD (i - 14) else
      if i - 17 < 3 then vs1.getLsbD (i - 17) else if i - 20 < 3 then vd.getLsbD (i - 20) else
      if i - 23 < 1 then l.getLsbD (i - 23) else op.getLsbD (i - 24) := by
  show BitVec.getLsbD (op ++ l ++ vd ++ vs1 ++ vs2 ++ 0#9 ++ n : BitVec (8+1+3+3+3+9+5)) i = _
  simp only [BitVec.getLsbD_append]
  simp only [Nat.sub_sub, Nat.reduceAdd, BitVec.getLsbD_zero]

@[simp] theorem fldOp_wordV (op : BitVec 8) (l : BitVec 1) (vd vs1 vs2 : BitVec 3) (n : BitVec 5) :
    fldOp (wordV op l vd vs1 vs2 n) = op := by
  apply BitVec.eq_of_getLsbD_eq
  intro i hi
  simp only [fldOp, BitVec.getLsbD_extractLsb', wordV_getLsbD, hi, decide_true, Bool.true_and]
  split_ifs <;> first | rfl | omega | (congr 1; omega)

@[simp] theorem fldL_wordV (op : BitVec 8) (l : BitVec 1) (vd vs1 vs2 : BitVec 3) (n : BitVec 5) :
    fldL (wordV op l vd vs1 vs2 n) = l := by
  apply BitVec.eq_of_getLsbD_eq
  intro i hi
  simp only [fldL, BitVec.getLsbD_extractLsb', wordV_getLsbD, hi, decide_true, Bool.true_and]
  split_ifs <;> first | rfl | omega | (congr 1; omega)

@[simp] theorem fldVd_wordV (op : BitVec 8) (l : BitVec 1) (vd vs1 vs2 : BitVec 3) (n : BitVec 5) :
    fldVd (wordV op l vd vs1 vs2 n) = vd := by
  apply BitVec.eq_of_getLsbD_eq
  intro i hi
  simp only [fldVd, BitVec.getLsbD_extractLsb', wordV_getLsbD, hi, decide_true, Bool.true_and]
  split_ifs <;> first | rfl | omega | (congr 1; omega)

@[simp] theorem fldVs1_wordV (op : BitVec 8) (l : BitVec 1) (vd vs1 vs2 : BitVec 3) (n : BitVec 5) :
    fldVs1 (wordV op l vd vs1 vs2 n) = vs1 := by
  apply BitVec.eq_of_getLsbD_eq
  intro i hi
  simp only [fldVs1, BitVec.getLsbD_extractLsb', wordV_getLsbD, hi, decide_true, Bool.true_and]
  split_ifs <;> first | rfl | omega | (congr 1; omega)

@[simp] theorem fldVs2_wordV (op : BitVec 8) (l : BitVec 1) (vd vs1 vs2 : BitVec 3) (n : BitVec 5) :
    fldVs2 (wordV op l vd vs1 vs2 n) = vs2 := by
  apply BitVec.eq_of_getLsbD_eq
  intro i hi
  simp only [fldVs2, BitVec.getLsbD_extractLsb', wordV_getLsbD, hi, decide_true, Bool.true_and]
  split_ifs <;> first | rfl | omega | (congr 1; omega)

@[simp] theorem fldZV_wordV (op : BitVec 8) (l : BitVec 1) (vd vs1 vs2 : BitVec 3) (n : BitVec 5) :
    fldZV (wordV op l vd vs1 vs2 n) = 0#9 := by
  apply BitVec.eq_of_getLsbD_eq
  intro i hi
  simp only [fldZV, BitVec.getLsbD_extractLsb', wordV_getLsbD, hi, decide_true, Bool.true_and, BitVec.getLsbD_zero]
  split_ifs <;> first | rfl | omega

@[simp] theorem fldImm5_wordV (op : BitVec 8) (l : BitVec 1) (vd vs1 vs2 : BitVec 3) (n : BitVec 5) :
    fldImm5 (wordV op l vd vs1 vs2 n) = n := by
  apply BitVec.eq_of_getLsbD_eq
  intro i hi
  simp only [fldImm5, BitVec.getLsbD_extractLsb', wordV_getLsbD, hi, decide_true, Bool.true_and]
  split_ifs <;> first | rfl | omega | (congr 1; omega)

/-! ### Format VS -/

theorem wordVS_getLsbD (op : BitVec 8) (l : BitVec 1) (vd : BitVec 3) (rs1 : BitVec 4) (imm : BitVec 12) (i : Nat) :
    (wordVS op l vd rs1 imm).getLsbD i =
      if i < 12 then imm.getLsbD i else if i - 12 < 4 then false else
      if i - 16 < 4 then rs1.getLsbD (i - 16) else if i - 20 < 3 then vd.getLsbD (i - 20) else
      if i - 23 < 1 then l.getLsbD (i - 23) else op.getLsbD (i - 24) := by
  show BitVec.getLsbD (op ++ l ++ vd ++ rs1 ++ 0#4 ++ imm : BitVec (8+1+3+4+4+12)) i = _
  simp only [BitVec.getLsbD_append]
  simp only [Nat.sub_sub, Nat.reduceAdd, BitVec.getLsbD_zero]

@[simp] theorem fldOp_wordVS (op : BitVec 8) (l : BitVec 1) (vd : BitVec 3) (rs1 : BitVec 4) (imm : BitVec 12) :
    fldOp (wordVS op l vd rs1 imm) = op := by
  apply BitVec.eq_of_getLsbD_eq
  intro i hi
  simp only [fldOp, BitVec.getLsbD_extractLsb', wordVS_getLsbD, hi, decide_true, Bool.true_and]
  split_ifs <;> first | rfl | omega | (congr 1; omega)

@[simp] theorem fldL_wordVS (op : BitVec 8) (l : BitVec 1) (vd : BitVec 3) (rs1 : BitVec 4) (imm : BitVec 12) :
    fldL (wordVS op l vd rs1 imm) = l := by
  apply BitVec.eq_of_getLsbD_eq
  intro i hi
  simp only [fldL, BitVec.getLsbD_extractLsb', wordVS_getLsbD, hi, decide_true, Bool.true_and]
  split_ifs <;> first | rfl | omega | (congr 1; omega)

@[simp] theorem fldVd_wordVS (op : BitVec 8) (l : BitVec 1) (vd : BitVec 3) (rs1 : BitVec 4) (imm : BitVec 12) :
    fldVd (wordVS op l vd rs1 imm) = vd := by
  apply BitVec.eq_of_getLsbD_eq
  intro i hi
  simp only [fldVd, BitVec.getLsbD_extractLsb', wordVS_getLsbD, hi, decide_true, Bool.true_and]
  split_ifs <;> first | rfl | omega | (congr 1; omega)

@[simp] theorem fldA_wordVS (op : BitVec 8) (l : BitVec 1) (vd : BitVec 3) (rs1 : BitVec 4) (imm : BitVec 12) :
    fldA (wordVS op l vd rs1 imm) = rs1 := by
  apply BitVec.eq_of_getLsbD_eq
  intro i hi
  simp only [fldA, BitVec.getLsbD_extractLsb', wordVS_getLsbD, hi, decide_true, Bool.true_and]
  split_ifs <;> first | rfl | omega | (congr 1; omega)

@[simp] theorem fldB_wordVS (op : BitVec 8) (l : BitVec 1) (vd : BitVec 3) (rs1 : BitVec 4) (imm : BitVec 12) :
    fldB (wordVS op l vd rs1 imm) = 0#4 := by
  apply BitVec.eq_of_getLsbD_eq
  intro i hi
  simp only [fldB, BitVec.getLsbD_extractLsb', wordVS_getLsbD, hi, decide_true, Bool.true_and, BitVec.getLsbD_zero]
  split_ifs <;> first | rfl | omega

@[simp] theorem fldImm12_wordVS (op : BitVec 8) (l : BitVec 1) (vd : BitVec 3) (rs1 : BitVec 4) (imm : BitVec 12) :
    fldImm12 (wordVS op l vd rs1 imm) = imm := by
  apply BitVec.eq_of_getLsbD_eq
  intro i hi
  simp only [fldImm12, BitVec.getLsbD_extractLsb', wordVS_getLsbD, hi, decide_true, Bool.true_and]
  split_ifs <;> first | rfl | omega | (congr 1; omega)

/-! ### Format VR -/

theorem wordVR_getLsbD (op : BitVec 8) (l : BitVec 1) (vd vs1 : BitVec 3) (r1 r2 r3 : BitVec 5) (i : Nat) :
    (wordVR op l vd vs1 r1 r2 r3).getLsbD i =
      if i < 5 then r3.getLsbD i else if i - 5 < 5 then r2.getLsbD (i - 5) else
      if i - 10 < 5 then r1.getLsbD (i - 10) else if i - 15 < 2 then false else
      if i - 17 < 3 then vs1.getLsbD (i - 17) else if i - 20 < 3 then vd.getLsbD (i - 20) else
      if i - 23 < 1 then l.getLsbD (i - 23) else op.getLsbD (i - 24) := by
  show BitVec.getLsbD (op ++ l ++ vd ++ vs1 ++ 0#2 ++ r1 ++ r2 ++ r3 : BitVec (8+1+3+3+2+5+5+5)) i = _
  simp only [BitVec.getLsbD_append]
  simp only [Nat.sub_sub, Nat.reduceAdd, BitVec.getLsbD_zero]

@[simp] theorem fldOp_wordVR (op : BitVec 8) (l : BitVec 1) (vd vs1 : BitVec 3) (r1 r2 r3 : BitVec 5) :
    fldOp (wordVR op l vd vs1 r1 r2 r3) = op := by
  apply BitVec.eq_of_getLsbD_eq
  intro i hi
  simp only [fldOp, BitVec.getLsbD_extractLsb', wordVR_getLsbD, hi, decide_true, Bool.true_and]
  split_ifs <;> first | rfl | omega | (congr 1; omega)

@[simp] theorem fldL_wordVR (op : BitVec 8) (l : BitVec 1) (vd vs1 : BitVec 3) (r1 r2 r3 : BitVec 5) :
    fldL (wordVR op l vd vs1 r1 r2 r3) = l := by
  apply BitVec.eq_of_getLsbD_eq
  intro i hi
  simp only [fldL, BitVec.getLsbD_extractLsb', wordVR_getLsbD, hi, decide_true, Bool.true_and]
  split_ifs <;> first | rfl | omega | (congr 1; omega)

@[simp] theorem fldVd_wordVR (op : BitVec 8) (l : BitVec 1) (vd vs1 : BitVec 3) (r1 r2 r3 : BitVec 5) :
    fldVd (wordVR op l vd vs1 r1 r2 r3) = vd := by
  apply BitVec.eq_of_getLsbD_eq
  intro i hi
  simp only [fldVd, BitVec.getLsbD_extractLsb', wordVR_getLsbD, hi, decide_true, Bool.true_and]
  split_ifs <;> first | rfl | omega | (congr 1; omega)

@[simp] theorem fldVs1_wordVR (op : BitVec 8) (l : BitVec 1) (vd vs1 : BitVec 3) (r1 r2 r3 : BitVec 5) :
    fldVs1 (wordVR op l vd vs1 r1 r2 r3) = vs1 := by
  apply BitVec.eq_of_getLsbD_eq
  intro i hi
  simp only [fldVs1, BitVec.getLsbD_extractLsb', wordVR_getLsbD, hi, decide_true, Bool.true_and]
  split_ifs <;> first | rfl | omega | (congr 1; omega)

@[simp] theorem fldZR_wordVR (op : BitVec 8) (l : BitVec 1) (vd vs1 : BitVec 3) (r1 r2 r3 : BitVec 5) :
    fldZR (wordVR op l vd vs1 r1 r2 r3) = 0#2 := by
  apply BitVec.eq_of_getLsbD_eq
  intro i hi
  simp only [fldZR, BitVec.getLsbD_extractLsb', wordVR_getLsbD, hi, decide_true, Bool.true_and, BitVec.getLsbD_zero]
  split_ifs <;> first | rfl | omega

@[simp] theorem fldR1_wordVR (op : BitVec 8) (l : BitVec 1) (vd vs1 : BitVec 3) (r1 r2 r3 : BitVec 5) :
    fldR1 (wordVR op l vd vs1 r1 r2 r3) = r1 := by
  apply BitVec.eq_of_getLsbD_eq
  intro i hi
  simp only [fldR1, BitVec.getLsbD_extractLsb', wordVR_getLsbD, hi, decide_true, Bool.true_and]
  split_ifs <;> first | rfl | omega | (congr 1; omega)

@[simp] theorem fldR2_wordVR (op : BitVec 8) (l : BitVec 1) (vd vs1 : BitVec 3) (r1 r2 r3 : BitVec 5) :
    fldR2 (wordVR op l vd vs1 r1 r2 r3) = r2 := by
  apply BitVec.eq_of_getLsbD_eq
  intro i hi
  simp only [fldR2, BitVec.getLsbD_extractLsb', wordVR_getLsbD, hi, decide_true, Bool.true_and]
  split_ifs <;> first | rfl | omega | (congr 1; omega)

@[simp] theorem fldImm5_wordVR (op : BitVec 8) (l : BitVec 1) (vd vs1 : BitVec 3) (r1 r2 r3 : BitVec 5) :
    fldImm5 (wordVR op l vd vs1 r1 r2 r3) = r3 := by
  apply BitVec.eq_of_getLsbD_eq
  intro i hi
  simp only [fldImm5, BitVec.getLsbD_extractLsb', wordVR_getLsbD, hi, decide_true, Bool.true_and]
  split_ifs <;> first | rfl | omega | (congr 1; omega)

/-! ### Format VT4 -/

theorem wordVT4_getLsbD (op : BitVec 8) (va vb vc vd : BitVec 3) (i : Nat) :
    (wordVT4 op va vb vc vd).getLsbD i =
      if i < 11 then false else if i - 11 < 3 then vd.getLsbD (i - 11) else
      if i - 14 < 3 then vc.getLsbD (i - 14) else if i - 17 < 3 then vb.getLsbD (i - 17) else
      if i - 20 < 3 then va.getLsbD (i - 20) else if i - 23 < 1 then false else op.getLsbD (i - 24) := by
  show BitVec.getLsbD (op ++ 0#1 ++ va ++ vb ++ vc ++ vd ++ 0#11 : BitVec (8+1+3+3+3+3+11)) i = _
  simp only [BitVec.getLsbD_append]
  simp only [Nat.sub_sub, Nat.reduceAdd, BitVec.getLsbD_zero]

@[simp] theorem fldOp_wordVT4 (op : BitVec 8) (va vb vc vd : BitVec 3) :
    fldOp (wordVT4 op va vb vc vd) = op := by
  apply BitVec.eq_of_getLsbD_eq
  intro i hi
  simp only [fldOp, BitVec.getLsbD_extractLsb', wordVT4_getLsbD, hi, decide_true, Bool.true_and]
  split_ifs <;> first | rfl | omega | (congr 1; omega)

@[simp] theorem fldL_wordVT4 (op : BitVec 8) (va vb vc vd : BitVec 3) :
    fldL (wordVT4 op va vb vc vd) = 0#1 := by
  apply BitVec.eq_of_getLsbD_eq
  intro i hi
  simp only [fldL, BitVec.getLsbD_extractLsb', wordVT4_getLsbD, hi, decide_true, Bool.true_and, BitVec.getLsbD_zero]
  split_ifs <;> first | rfl | omega

@[simp] theorem fldVd_wordVT4 (op : BitVec 8) (va vb vc vd : BitVec 3) :
    fldVd (wordVT4 op va vb vc vd) = va := by
  apply BitVec.eq_of_getLsbD_eq
  intro i hi
  simp only [fldVd, BitVec.getLsbD_extractLsb', wordVT4_getLsbD, hi, decide_true, Bool.true_and]
  split_ifs <;> first | rfl | omega | (congr 1; omega)

@[simp] theorem fldVs1_wordVT4 (op : BitVec 8) (va vb vc vd : BitVec 3) :
    fldVs1 (wordVT4 op va vb vc vd) = vb := by
  apply BitVec.eq_of_getLsbD_eq
  intro i hi
  simp only [fldVs1, BitVec.getLsbD_extractLsb', wordVT4_getLsbD, hi, decide_true, Bool.true_and]
  split_ifs <;> first | rfl | omega | (congr 1; omega)

@[simp] theorem fldVs2_wordVT4 (op : BitVec 8) (va vb vc vd : BitVec 3) :
    fldVs2 (wordVT4 op va vb vc vd) = vc := by
  apply BitVec.eq_of_getLsbD_eq
  intro i hi
  simp only [fldVs2, BitVec.getLsbD_extractLsb', wordVT4_getLsbD, hi, decide_true, Bool.true_and]
  split_ifs <;> first | rfl | omega | (congr 1; omega)

@[simp] theorem fldT4_wordVT4 (op : BitVec 8) (va vb vc vd : BitVec 3) :
    fldT4 (wordVT4 op va vb vc vd) = vd := by
  apply BitVec.eq_of_getLsbD_eq
  intro i hi
  simp only [fldT4, BitVec.getLsbD_extractLsb', wordVT4_getLsbD, hi, decide_true, Bool.true_and]
  split_ifs <;> first | rfl | omega | (congr 1; omega)

@[simp] theorem fldZ4_wordVT4 (op : BitVec 8) (va vb vc vd : BitVec 3) :
    fldZ4 (wordVT4 op va vb vc vd) = 0#11 := by
  apply BitVec.eq_of_getLsbD_eq
  intro i hi
  simp only [fldZ4, BitVec.getLsbD_extractLsb', wordVT4_getLsbD, hi, decide_true, Bool.true_and, BitVec.getLsbD_zero]
  split_ifs <;> first | rfl | omega

/-! ### Format VT8 -/

theorem wordVT8_getLsbD (op : BitVec 8) (t0 t1 t2 t3 t4 t5 t6 t7 : BitVec 3) (i : Nat) :
    (wordVT8 op t0 t1 t2 t3 t4 t5 t6 t7).getLsbD i =
      if i < 3 then t7.getLsbD i else if i - 3 < 3 then t6.getLsbD (i - 3) else
      if i - 6 < 3 then t5.getLsbD (i - 6) else if i - 9 < 3 then t4.getLsbD (i - 9) else
      if i - 12 < 3 then t3.getLsbD (i - 12) else if i - 15 < 3 then t2.getLsbD (i - 15) else
      if i - 18 < 3 then t1.getLsbD (i - 18) else if i - 21 < 3 then t0.getLsbD (i - 21) else
      op.getLsbD (i - 24) := by
  show BitVec.getLsbD (op ++ t0 ++ t1 ++ t2 ++ t3 ++ t4 ++ t5 ++ t6 ++ t7 : BitVec (8+3+3+3+3+3+3+3+3)) i = _
  simp only [BitVec.getLsbD_append]
  simp only [Nat.sub_sub, Nat.reduceAdd]

@[simp] theorem fldOp_wordVT8 (op : BitVec 8) (t0 t1 t2 t3 t4 t5 t6 t7 : BitVec 3) :
    fldOp (wordVT8 op t0 t1 t2 t3 t4 t5 t6 t7) = op := by
  apply BitVec.eq_of_getLsbD_eq
  intro i hi
  simp only [fldOp, BitVec.getLsbD_extractLsb', wordVT8_getLsbD, hi, decide_true, Bool.true_and]
  split_ifs <;> first | rfl | omega | (congr 1; omega)

@[simp] theorem fldT8_0_wordVT8 (op : BitVec 8) (t0 t1 t2 t3 t4 t5 t6 t7 : BitVec 3) :
    fldT8 (wordVT8 op t0 t1 t2 t3 t4 t5 t6 t7) 0 = t0 := by
  apply BitVec.eq_of_getLsbD_eq
  intro i hi
  simp only [fldT8, BitVec.getLsbD_extractLsb', wordVT8_getLsbD, hi, decide_true, Bool.true_and]
  split_ifs <;> first | rfl | omega | (congr 1; omega)

@[simp] theorem fldT8_1_wordVT8 (op : BitVec 8) (t0 t1 t2 t3 t4 t5 t6 t7 : BitVec 3) :
    fldT8 (wordVT8 op t0 t1 t2 t3 t4 t5 t6 t7) 1 = t1 := by
  apply BitVec.eq_of_getLsbD_eq
  intro i hi
  simp only [fldT8, BitVec.getLsbD_extractLsb', wordVT8_getLsbD, hi, decide_true, Bool.true_and]
  split_ifs <;> first | rfl | omega | (congr 1; omega)

@[simp] theorem fldT8_2_wordVT8 (op : BitVec 8) (t0 t1 t2 t3 t4 t5 t6 t7 : BitVec 3) :
    fldT8 (wordVT8 op t0 t1 t2 t3 t4 t5 t6 t7) 2 = t2 := by
  apply BitVec.eq_of_getLsbD_eq
  intro i hi
  simp only [fldT8, BitVec.getLsbD_extractLsb', wordVT8_getLsbD, hi, decide_true, Bool.true_and]
  split_ifs <;> first | rfl | omega | (congr 1; omega)

@[simp] theorem fldT8_3_wordVT8 (op : BitVec 8) (t0 t1 t2 t3 t4 t5 t6 t7 : BitVec 3) :
    fldT8 (wordVT8 op t0 t1 t2 t3 t4 t5 t6 t7) 3 = t3 := by
  apply BitVec.eq_of_getLsbD_eq
  intro i hi
  simp only [fldT8, BitVec.getLsbD_extractLsb', wordVT8_getLsbD, hi, decide_true, Bool.true_and]
  split_ifs <;> first | rfl | omega | (congr 1; omega)

@[simp] theorem fldT8_4_wordVT8 (op : BitVec 8) (t0 t1 t2 t3 t4 t5 t6 t7 : BitVec 3) :
    fldT8 (wordVT8 op t0 t1 t2 t3 t4 t5 t6 t7) 4 = t4 := by
  apply BitVec.eq_of_getLsbD_eq
  intro i hi
  simp only [fldT8, BitVec.getLsbD_extractLsb', wordVT8_getLsbD, hi, decide_true, Bool.true_and]
  split_ifs <;> first | rfl | omega | (congr 1; omega)

@[simp] theorem fldT8_5_wordVT8 (op : BitVec 8) (t0 t1 t2 t3 t4 t5 t6 t7 : BitVec 3) :
    fldT8 (wordVT8 op t0 t1 t2 t3 t4 t5 t6 t7) 5 = t5 := by
  apply BitVec.eq_of_getLsbD_eq
  intro i hi
  simp only [fldT8, BitVec.getLsbD_extractLsb', wordVT8_getLsbD, hi, decide_true, Bool.true_and]
  split_ifs <;> first | rfl | omega | (congr 1; omega)

@[simp] theorem fldT8_6_wordVT8 (op : BitVec 8) (t0 t1 t2 t3 t4 t5 t6 t7 : BitVec 3) :
    fldT8 (wordVT8 op t0 t1 t2 t3 t4 t5 t6 t7) 6 = t6 := by
  apply BitVec.eq_of_getLsbD_eq
  intro i hi
  simp only [fldT8, BitVec.getLsbD_extractLsb', wordVT8_getLsbD, hi, decide_true, Bool.true_and]
  split_ifs <;> first | rfl | omega | (congr 1; omega)

@[simp] theorem fldT8_7_wordVT8 (op : BitVec 8) (t0 t1 t2 t3 t4 t5 t6 t7 : BitVec 3) :
    fldT8 (wordVT8 op t0 t1 t2 t3 t4 t5 t6 t7) 7 = t7 := by
  apply BitVec.eq_of_getLsbD_eq
  intro i hi
  simp only [fldT8, BitVec.getLsbD_extractLsb', wordVT8_getLsbD, hi, decide_true, Bool.true_and]
  split_ifs <;> first | rfl | omega | (congr 1; omega)

/-! ### Width and lane codes -/

@[simp] theorem Width.ofCode_code (w : Width) : Width.ofCode w.code = w := by cases w <;> rfl

@[simp] theorem Width.code_ofCode (b : BitVec 2) : (Width.ofCode b).code = b := by revert b; decide

@[simp] theorem Lanes.ofBit_bit (l : Lanes) : Lanes.ofBit l.bit = l := by cases l <;> rfl

@[simp] theorem Lanes.bit_ofBit (b : BitVec 1) : (Lanes.ofBit b).bit = b := by revert b; decide

end Sys2Proof
end

