-- ==== Sys2Proof/Laws/State.lean ====
section
/-!
SUPPORT. The small lemmas of State: one per field per update, and what reading a register gives after an update, so that
no later proof unfolds a record update.
-/

namespace Sys2Proof.Machine

/-! ### setX -/

@[simp] theorem setX_hasV8 (s : State) (r : XReg) (w : Word) : (s.setX r w).hasV8 = s.hasV8 := rfl
@[simp] theorem setX_memSize (s : State) (r : XReg) (w : Word) : (s.setX r w).memSize = s.memSize := rfl
@[simp] theorem setX_m (s : State) (r : XReg) (w : Word) : (s.setX r w).m = s.m := rfl
@[simp] theorem setX_v (s : State) (r : XReg) (w : Word) : (s.setX r w).v = s.v := rfl
@[simp] theorem setX_status (s : State) (r : XReg) (w : Word) : (s.setX r w).status = s.status := rfl
@[simp] theorem setX_errcmd (s : State) (r : XReg) (w : Word) : (s.setX r w).errcmd = s.errcmd := rfl
@[simp] theorem setX_mem (s : State) (r : XReg) (w : Word) : (s.setX r w).mem = s.mem := rfl
@[simp] theorem setX_pending (s : State) (r : XReg) (w : Word) : (s.setX r w).pending = s.pending := rfl
@[simp] theorem setX_reply (s : State) (r : XReg) (w : Word) : (s.setX r w).reply = s.reply := rfl
@[simp] theorem getM_setX (s : State) (r : XReg) (w : Word) (q : MReg) : (s.setX r w).getM q = s.getM q := rfl
@[simp] theorem getLane_setX (s : State) (r : XReg) (w : Word) (q : VReg) (j : Fin 8) : (s.setX r w).getLane q j = s.getLane q j := rfl

/-! ### setM -/

@[simp] theorem setM_hasV8 (s : State) (r : MReg) (b : Bool) : (s.setM r b).hasV8 = s.hasV8 := rfl
@[simp] theorem setM_memSize (s : State) (r : MReg) (b : Bool) : (s.setM r b).memSize = s.memSize := rfl
@[simp] theorem setM_x (s : State) (r : MReg) (b : Bool) : (s.setM r b).x = s.x := rfl
@[simp] theorem setM_v (s : State) (r : MReg) (b : Bool) : (s.setM r b).v = s.v := rfl
@[simp] theorem setM_status (s : State) (r : MReg) (b : Bool) : (s.setM r b).status = s.status := rfl
@[simp] theorem setM_errcmd (s : State) (r : MReg) (b : Bool) : (s.setM r b).errcmd = s.errcmd := rfl
@[simp] theorem setM_mem (s : State) (r : MReg) (b : Bool) : (s.setM r b).mem = s.mem := rfl
@[simp] theorem setM_pending (s : State) (r : MReg) (b : Bool) : (s.setM r b).pending = s.pending := rfl
@[simp] theorem setM_reply (s : State) (r : MReg) (b : Bool) : (s.setM r b).reply = s.reply := rfl
@[simp] theorem getX_setM (s : State) (r : MReg) (b : Bool) (q : XReg) : (s.setM r b).getX q = s.getX q := rfl
@[simp] theorem getLane_setM (s : State) (r : MReg) (b : Bool) (q : VReg) (j : Fin 8) : (s.setM r b).getLane q j = s.getLane q j := rfl

/-! ### setLanes -/

@[simp] theorem setLanes_hasV8 (s : State) (l : Lanes) (r : VReg) (f : Fin 8 → Lane) : (s.setLanes l r f).hasV8 = s.hasV8 := rfl
@[simp] theorem setLanes_memSize (s : State) (l : Lanes) (r : VReg) (f : Fin 8 → Lane) : (s.setLanes l r f).memSize = s.memSize := rfl
@[simp] theorem setLanes_x (s : State) (l : Lanes) (r : VReg) (f : Fin 8 → Lane) : (s.setLanes l r f).x = s.x := rfl
@[simp] theorem setLanes_m (s : State) (l : Lanes) (r : VReg) (f : Fin 8 → Lane) : (s.setLanes l r f).m = s.m := rfl
@[simp] theorem setLanes_status (s : State) (l : Lanes) (r : VReg) (f : Fin 8 → Lane) : (s.setLanes l r f).status = s.status := rfl
@[simp] theorem setLanes_errcmd (s : State) (l : Lanes) (r : VReg) (f : Fin 8 → Lane) : (s.setLanes l r f).errcmd = s.errcmd := rfl
@[simp] theorem setLanes_mem (s : State) (l : Lanes) (r : VReg) (f : Fin 8 → Lane) : (s.setLanes l r f).mem = s.mem := rfl
@[simp] theorem setLanes_pending (s : State) (l : Lanes) (r : VReg) (f : Fin 8 → Lane) : (s.setLanes l r f).pending = s.pending := rfl
@[simp] theorem setLanes_reply (s : State) (l : Lanes) (r : VReg) (f : Fin 8 → Lane) : (s.setLanes l r f).reply = s.reply := rfl
@[simp] theorem getX_setLanes (s : State) (l : Lanes) (r : VReg) (f : Fin 8 → Lane) (q : XReg) : (s.setLanes l r f).getX q = s.getX q := rfl
@[simp] theorem getM_setLanes (s : State) (l : Lanes) (r : VReg) (f : Fin 8 → Lane) (q : MReg) : (s.setLanes l r f).getM q = s.getM q := rfl

/-! ### setLane -/

@[simp] theorem setLane_hasV8 (s : State) (r : VReg) (k : Fin 8) (u : Lane) : (s.setLane r k u).hasV8 = s.hasV8 := rfl
@[simp] theorem setLane_memSize (s : State) (r : VReg) (k : Fin 8) (u : Lane) : (s.setLane r k u).memSize = s.memSize := rfl
@[simp] theorem setLane_x (s : State) (r : VReg) (k : Fin 8) (u : Lane) : (s.setLane r k u).x = s.x := rfl
@[simp] theorem setLane_m (s : State) (r : VReg) (k : Fin 8) (u : Lane) : (s.setLane r k u).m = s.m := rfl
@[simp] theorem setLane_status (s : State) (r : VReg) (k : Fin 8) (u : Lane) : (s.setLane r k u).status = s.status := rfl
@[simp] theorem setLane_errcmd (s : State) (r : VReg) (k : Fin 8) (u : Lane) : (s.setLane r k u).errcmd = s.errcmd := rfl
@[simp] theorem setLane_mem (s : State) (r : VReg) (k : Fin 8) (u : Lane) : (s.setLane r k u).mem = s.mem := rfl
@[simp] theorem setLane_pending (s : State) (r : VReg) (k : Fin 8) (u : Lane) : (s.setLane r k u).pending = s.pending := rfl
@[simp] theorem setLane_reply (s : State) (r : VReg) (k : Fin 8) (u : Lane) : (s.setLane r k u).reply = s.reply := rfl
@[simp] theorem getX_setLane (s : State) (r : VReg) (k : Fin 8) (u : Lane) (q : XReg) : (s.setLane r k u).getX q = s.getX q := rfl
@[simp] theorem getM_setLane (s : State) (r : VReg) (k : Fin 8) (u : Lane) (q : MReg) : (s.setLane r k u).getM q = s.getM q := rfl

/-! ### setWide -/

@[simp] theorem setWide_hasV8 (s : State) (r : XReg) (t : WideWord) : (s.setWide r t).hasV8 = s.hasV8 := rfl
@[simp] theorem setWide_memSize (s : State) (r : XReg) (t : WideWord) : (s.setWide r t).memSize = s.memSize := rfl
@[simp] theorem setWide_m (s : State) (r : XReg) (t : WideWord) : (s.setWide r t).m = s.m := rfl
@[simp] theorem setWide_v (s : State) (r : XReg) (t : WideWord) : (s.setWide r t).v = s.v := rfl
@[simp] theorem setWide_status (s : State) (r : XReg) (t : WideWord) : (s.setWide r t).status = s.status := rfl
@[simp] theorem setWide_errcmd (s : State) (r : XReg) (t : WideWord) : (s.setWide r t).errcmd = s.errcmd := rfl
@[simp] theorem setWide_mem (s : State) (r : XReg) (t : WideWord) : (s.setWide r t).mem = s.mem := rfl
@[simp] theorem setWide_pending (s : State) (r : XReg) (t : WideWord) : (s.setWide r t).pending = s.pending := rfl
@[simp] theorem setWide_reply (s : State) (r : XReg) (t : WideWord) : (s.setWide r t).reply = s.reply := rfl
@[simp] theorem getM_setWide (s : State) (r : XReg) (t : WideWord) (q : MReg) : (s.setWide r t).getM q = s.getM q := rfl
@[simp] theorem getLane_setWide (s : State) (r : XReg) (t : WideWord) (q : VReg) (j : Fin 8) : (s.setWide r t).getLane q j = s.getLane q j := rfl

/-! ### withBus -/

@[simp] theorem withBus_hasV8 (s : State) (b : Bus) : (s.withBus b).hasV8 = s.hasV8 := rfl
@[simp] theorem withBus_memSize (s : State) (b : Bus) : (s.withBus b).memSize = s.memSize := rfl
@[simp] theorem withBus_x (s : State) (b : Bus) : (s.withBus b).x = s.x := rfl
@[simp] theorem withBus_m (s : State) (b : Bus) : (s.withBus b).m = s.m := rfl
@[simp] theorem withBus_v (s : State) (b : Bus) : (s.withBus b).v = s.v := rfl
@[simp] theorem withBus_status (s : State) (b : Bus) : (s.withBus b).status = s.status := rfl
@[simp] theorem withBus_errcmd (s : State) (b : Bus) : (s.withBus b).errcmd = s.errcmd := rfl
@[simp] theorem withBus_pending (s : State) (b : Bus) : (s.withBus b).pending = s.pending := rfl
@[simp] theorem withBus_reply (s : State) (b : Bus) : (s.withBus b).reply = s.reply := rfl
@[simp] theorem getX_withBus (s : State) (b : Bus) (q : XReg) : (s.withBus b).getX q = s.getX q := rfl
@[simp] theorem getM_withBus (s : State) (b : Bus) (q : MReg) : (s.withBus b).getM q = s.getM q := rfl
@[simp] theorem getLane_withBus (s : State) (b : Bus) (q : VReg) (j : Fin 8) : (s.withBus b).getLane q j = s.getLane q j := rfl

/-! ### raiseError -/

@[simp] theorem raiseError_hasV8 (s : State) (k : ErrorKind) (c : CmdWord) : (raiseError k c s).hasV8 = s.hasV8 := rfl
@[simp] theorem raiseError_memSize (s : State) (k : ErrorKind) (c : CmdWord) : (raiseError k c s).memSize = s.memSize := rfl
@[simp] theorem raiseError_x (s : State) (k : ErrorKind) (c : CmdWord) : (raiseError k c s).x = s.x := rfl
@[simp] theorem raiseError_m (s : State) (k : ErrorKind) (c : CmdWord) : (raiseError k c s).m = s.m := rfl
@[simp] theorem raiseError_v (s : State) (k : ErrorKind) (c : CmdWord) : (raiseError k c s).v = s.v := rfl
@[simp] theorem raiseError_mem (s : State) (k : ErrorKind) (c : CmdWord) : (raiseError k c s).mem = s.mem := rfl
@[simp] theorem raiseError_pending (s : State) (k : ErrorKind) (c : CmdWord) : (raiseError k c s).pending = s.pending := rfl
@[simp] theorem raiseError_reply (s : State) (k : ErrorKind) (c : CmdWord) : (raiseError k c s).reply = s.reply := rfl
@[simp] theorem getX_raiseError (s : State) (k : ErrorKind) (c : CmdWord) (q : XReg) : (raiseError k c s).getX q = s.getX q := rfl
@[simp] theorem getM_raiseError (s : State) (k : ErrorKind) (c : CmdWord) (q : MReg) : (raiseError k c s).getM q = s.getM q := rfl
@[simp] theorem getLane_raiseError (s : State) (k : ErrorKind) (c : CmdWord) (q : VReg) (j : Fin 8) : (raiseError k c s).getLane q j = s.getLane q j := rfl

/-! ### clearError -/

@[simp] theorem clearError_hasV8 (s : State) : (clearError s).hasV8 = s.hasV8 := rfl
@[simp] theorem clearError_memSize (s : State) : (clearError s).memSize = s.memSize := rfl
@[simp] theorem clearError_x (s : State) : (clearError s).x = s.x := rfl
@[simp] theorem clearError_m (s : State) : (clearError s).m = s.m := rfl
@[simp] theorem clearError_v (s : State) : (clearError s).v = s.v := rfl
@[simp] theorem clearError_mem (s : State) : (clearError s).mem = s.mem := rfl
@[simp] theorem clearError_pending (s : State) : (clearError s).pending = s.pending := rfl
@[simp] theorem clearError_reply (s : State) : (clearError s).reply = s.reply := rfl
@[simp] theorem getX_clearError (s : State) (q : XReg) : (clearError s).getX q = s.getX q := rfl
@[simp] theorem getM_clearError (s : State) (q : MReg) : (clearError s).getM q = s.getM q := rfl
@[simp] theorem getLane_clearError (s : State) (q : VReg) (j : Fin 8) : (clearError s).getLane q j = s.getLane q j := rfl

@[simp] theorem raiseError_status (s : State) (k : ErrorKind) (c : CmdWord) :
    (raiseError k c s).status = ⟨true, k.code⟩ := rfl
@[simp] theorem raiseError_errcmd (s : State) (k : ErrorKind) (c : CmdWord) : (raiseError k c s).errcmd = c := rfl
@[simp] theorem clearError_status (s : State) : (clearError s).status = ⟨false, 0⟩ := rfl
@[simp] theorem clearError_errcmd (s : State) : (clearError s).errcmd = 0 := rfl
@[simp] theorem withBus_mem (s : State) (b : Bus) : (s.withBus b).mem = b.mem := rfl
@[simp] theorem bus_mem (s : State) : s.bus.mem = s.mem := rfl
@[simp] theorem bus_log (s : State) : s.bus.log = [] := rfl

/-! ### Reading after writing -/

theorem getX_setX (s : State) (r q : XReg) (w : Word) : (s.setX r w).getX q = if q = r then w else s.getX q := by
  unfold State.setX State.getX
  by_cases h : q = r
  · subst h; simp
  · have : r.toNat ≠ q.toNat := fun e => h (BitVec.eq_of_toNat_eq e.symm)
    simp [this, h]

@[simp] theorem getX_setX_same (s : State) (r : XReg) (w : Word) : (s.setX r w).getX r = w := by simp [getX_setX]

theorem getX_setX_other (s : State) {r q : XReg} (w : Word) (h : q ≠ r) : (s.setX r w).getX q = s.getX q := by
  simp [getX_setX, h]

theorem getM_setM (s : State) (r q : MReg) (b : Bool) : (s.setM r b).getM q = if q = r then b else s.getM q := by
  unfold State.setM State.getM
  by_cases h : q = r
  · subst h; simp
  · have : r.toNat ≠ q.toNat := fun e => h (BitVec.eq_of_toNat_eq e.symm)
    simp [this, h]

@[simp] theorem getM_setM_same (s : State) (r : MReg) (b : Bool) : (s.setM r b).getM r = b := by simp [getM_setM]

theorem getLane_setLanes (s : State) (l : Lanes) (r q : VReg) (f : Fin 8 → Lane) (k : Fin 8) :
    (s.setLanes l r f).getLane q k = if q = r ∧ k.val < l.count then f k else s.getLane q k := by
  unfold State.setLanes State.getLane
  by_cases h : q = r
  · subst h; simp
  · have : r.toNat ≠ q.toNat := fun e => h (BitVec.eq_of_toNat_eq e.symm)
    simp [this, h]

theorem getLane_setLane (s : State) (r q : VReg) (k j : Fin 8) (u : Lane) :
    (s.setLane r k u).getLane q j = if q = r ∧ j = k then u else s.getLane q j := by
  unfold State.setLane State.getLane
  by_cases h : q = r
  · subst h; simp
  · have : r.toNat ≠ q.toNat := fun e => h (BitVec.eq_of_toNat_eq e.symm)
    simp [this, h]

/-- The high register of an even pair is another register. -/
theorem wide_high_ne (r : XReg) : r + 1 ≠ r := by simp

theorem getX_setWide (s : State) (r q : XReg) (t : WideWord) :
    (s.setWide r t).getX q =
      if q = r + 1 then t.extractLsb' 64 64 else if q = r then t.extractLsb' 0 64 else s.getX q := by
  simp [State.setWide, getX_setX]

@[simp] theorem getWide_setWide (s : State) (r : XReg) (t : WideWord) : (s.setWide r t).getWide r = t := by
  rw [State.getWide, getX_setWide, getX_setWide, if_pos rfl, if_neg (wide_high_ne r).symm, if_pos rfl]
  apply BitVec.eq_of_getLsbD_eq
  intro i hi
  rw [BitVec.getLsbD_append]
  by_cases h : i < 64
  · simp [h]
  · have : i - 64 < 64 := by omega
    have e : 64 + (i - 64) = i := by omega
    simp [h, this, e]

end Sys2Proof.Machine
end

