-- ==== Sys2Proof/Laws/Memory.lean ====
section
/-!
SUPPORT. The laws of the memory list: reading after writing, for every list, and the canonical form, which every memory
operation keeps. Then what a run of lane loads and stores does to the bytes.
-/

namespace Sys2Proof.Machine

/-! ### One byte -/

theorem memGet_memErase (mem : List Host.Cell) (a b : Nat) :
    memGet (memErase mem a) b = if b = a then Config.unwrittenByte else memGet mem b := by
  induction mem with
  | nil => simp [memErase, memGet]
  | cons c rest ih =>
    by_cases h : c.1 = a
    · simp only [memErase, if_pos h, ih, memGet]
      by_cases hb : b = a
      · simp [hb]
      · have : c.1 ≠ b := fun e => hb (by omega)
        simp [hb, this]
    · simp only [memErase, if_neg h, memGet, ih]
      by_cases hb : b = a
      · subst hb; simp [h]
      · simp [hb]

theorem memGet_memInsert (mem : List Host.Cell) (a : Nat) (v : Byte) (b : Nat)
    (hne : ∀ c ∈ mem, c.1 ≠ a) :
    memGet (memInsert (a, v) mem) b = if b = a then v else memGet mem b := by
  induction mem with
  | nil => simp [memInsert, memGet, eq_comm]
  | cons c rest ih =>
    have hr : ∀ d ∈ rest, d.1 ≠ a := fun d hd => hne d (List.mem_cons_of_mem _ hd)
    have hc : c.1 ≠ a := hne c List.mem_cons_self
    simp only [memInsert]
    split
    · simp only [memGet]
      by_cases hb : b = a
      · simp [hb]
      · have : a ≠ b := fun e => hb e.symm
        simp [hb, this]
    · simp only [memGet, ih hr]
      by_cases hb : b = a
      · subst hb; simp [hc]
      · simp [hb]

theorem not_mem_memErase (mem : List Host.Cell) (a : Nat) : ∀ c ∈ memErase mem a, c.1 ≠ a := by
  induction mem with
  | nil => simp [memErase]
  | cons c rest ih =>
    by_cases h : c.1 = a
    · simpa [memErase, h] using ih
    · intro d hd
      simp only [memErase, if_neg h, List.mem_cons] at hd
      rcases hd with rfl | hd
      · exact h
      · exact ih d hd

/-- A read after a write gives the value written, and a write leaves every other byte alone: for every list. -/
theorem memGet_memSet (mem : List Host.Cell) (a : Nat) (v : Byte) (b : Nat) :
    memGet (memSet mem a v) b = if b = a then v else memGet mem b := by
  unfold memSet
  split
  · rename_i h; subst h; exact memGet_memErase mem a b
  · rw [memGet_memInsert _ _ _ _ (not_mem_memErase mem a), memGet_memErase]
    split <;> simp_all

/-! ### Runs of bytes -/

@[simp] theorem memRead_length (mem : List Host.Cell) (a n : Nat) : (memRead mem a n).length = n := by
  induction n generalizing a with
  | zero => rfl
  | succ n ih => simp [memRead, ih]

theorem memRead_getElem? (mem : List Host.Cell) (a n k : Nat) :
    (memRead mem a n)[k]? = if k < n then some (memGet mem (a + k)) else none := by
  induction n generalizing a k with
  | zero => simp [memRead]
  | succ n ih =>
    cases k with
    | zero => simp [memRead]
    | succ k => simp [memRead, ih, Nat.add_right_comm, Nat.add_assoc]

/-- What a byte reads as after `MemWrite` (R53). -/
theorem memGet_memWrite (mem : List Host.Cell) (a : Nat) (bs : List Byte) (b : Nat) :
    memGet (memWrite mem a bs) b = if a ≤ b ∧ b < a + bs.length then bs.getD (b - a) 0 else memGet mem b := by
  induction bs generalizing mem a with
  | nil => simp [memWrite]
  | cons v bs ih =>
    simp only [memWrite, ih, memGet_memSet, List.length_cons]
    by_cases h1 : a + 1 ≤ b ∧ b < a + 1 + bs.length
    · have : a ≤ b ∧ b < a + (bs.length + 1) := by omega
      obtain ⟨d, rfl⟩ : ∃ d, b = a + 1 + d := ⟨b - (a + 1), by omega⟩
      rw [if_pos h1, if_pos this]
      have e1 : a + 1 + d - (a + 1) = d := by omega
      have e2 : a + 1 + d - a = d + 1 := by omega
      simp [e1, e2]
    · rw [if_neg h1]
      by_cases h2 : b = a
      · subst h2; simp
      · have : ¬ (a ≤ b ∧ b < a + (bs.length + 1)) := by omega
        rw [if_neg h2, if_neg this]

theorem memGet_memWrite_outside (mem : List Host.Cell) (a : Nat) (bs : List Byte) (b : Nat)
    (h : b < a ∨ a + bs.length ≤ b) : memGet (memWrite mem a bs) b = memGet mem b := by
  rw [memGet_memWrite, if_neg (by omega)]

/-! ### The canonical form -/

theorem mem_memErase {mem : List Host.Cell} {a : Nat} {c : Host.Cell} (h : c ∈ memErase mem a) : c ∈ mem := by
  induction mem with
  | nil => simp [memErase] at h
  | cons d rest ih =>
    simp only [memErase] at h
    split at h
    · exact List.mem_cons_of_mem _ (ih h)
    · rcases List.mem_cons.1 h with rfl | h
      · exact List.mem_cons_self
      · exact List.mem_cons_of_mem _ (ih h)

theorem mem_memInsert {mem : List Host.Cell} {n c : Host.Cell} (h : c ∈ memInsert n mem) : c = n ∨ c ∈ mem := by
  induction mem with
  | nil => simpa [memInsert] using h
  | cons d rest ih =>
    simp only [memInsert] at h
    split at h
    · rcases List.mem_cons.1 h with rfl | h
      · exact .inl rfl
      · exact .inr h
    · rcases List.mem_cons.1 h with rfl | h
      · exact .inr List.mem_cons_self
      · rcases ih h with rfl | h
        · exact .inl rfl
        · exact .inr (List.mem_cons_of_mem _ h)

theorem Memory.wf_cons (c : Host.Cell) (rest : List Host.Cell) :
    Memory.wf (c :: rest) = true ↔
      c.2 ≠ Config.unwrittenByte ∧ (∀ d ∈ rest, c.1 < d.1) ∧ Memory.wf rest = true := by
  simp [Memory.wf, and_assoc]

theorem memErase_wf {mem : List Host.Cell} (a : Nat) (h : Memory.wf mem = true) :
    Memory.wf (memErase mem a) = true := by
  induction mem with
  | nil => rfl
  | cons c rest ih =>
    obtain ⟨h1, h2, h3⟩ := (Memory.wf_cons c rest).1 h
    simp only [memErase]
    split
    · exact ih h3
    · exact (Memory.wf_cons _ _).2 ⟨h1, fun d hd => h2 d (mem_memErase hd), ih h3⟩

theorem memInsert_wf {mem : List Host.Cell} {n : Host.Cell} (hn : n.2 ≠ Config.unwrittenByte)
    (hne : ∀ c ∈ mem, c.1 ≠ n.1) (h : Memory.wf mem = true) : Memory.wf (memInsert n mem) = true := by
  induction mem with
  | nil => simp [memInsert, Memory.wf, hn]
  | cons c rest ih =>
    obtain ⟨h1, h2, h3⟩ := (Memory.wf_cons c rest).1 h
    simp only [memInsert]
    split
    · rename_i hlt
      refine (Memory.wf_cons _ _).2 ⟨hn, ?_, h⟩
      intro d hd
      rcases List.mem_cons.1 hd with rfl | hd
      · exact hlt
      · exact Nat.lt_trans hlt (h2 d hd)
    · rename_i hlt
      have hc : c.1 < n.1 := by
        have := hne c List.mem_cons_self
        omega
      refine (Memory.wf_cons _ _).2 ⟨h1, ?_, ih (fun d hd => hne d (List.mem_cons_of_mem _ hd)) h3⟩
      intro d hd
      rcases mem_memInsert hd with rfl | hd
      · exact hc
      · exact h2 d hd

/-- Every write of a byte keeps the canonical form. -/
theorem memSet_wf {mem : List Host.Cell} (a : Nat) (v : Byte) (h : Memory.wf mem = true) :
    Memory.wf (memSet mem a v) = true := by
  unfold memSet
  split
  · exact memErase_wf a h
  · rename_i hv
    exact memInsert_wf hv (not_mem_memErase mem a) (memErase_wf a h)

/-- Every write of a run of bytes keeps the canonical form. -/
theorem memWrite_wf {mem : List Host.Cell} (a : Nat) (bs : List Byte) (h : Memory.wf mem = true) :
    Memory.wf (memWrite mem a bs) = true := by
  induction bs generalizing mem a with
  | nil => exact h
  | cons v bs ih => exact ih (a + 1) (memSet_wf a v h)

/-- A write adds no address but its own. -/
theorem mem_memSet {mem : List Host.Cell} {a : Nat} {v : Byte} {c : Host.Cell} (h : c ∈ memSet mem a v) :
    c.1 = a ∨ c ∈ mem := by
  unfold memSet at h
  split at h
  · exact .inr (mem_memErase h)
  · rcases mem_memInsert h with rfl | h
    · exact .inl rfl
    · exact .inr (mem_memErase h)

theorem mem_memWrite {mem : List Host.Cell} {a : Nat} {bs : List Byte} {c : Host.Cell} (h : c ∈ memWrite mem a bs) :
    (a ≤ c.1 ∧ c.1 < a + bs.length) ∨ c ∈ mem := by
  induction bs generalizing mem a with
  | nil => exact .inr h
  | cons v bs ih =>
    rcases ih h with h | h
    · left; simp only [List.length_cons]; omega
    · rcases mem_memSet h with h | h
      · left; simp only [List.length_cons]; omega
      · exact .inr h

/-- Equal reads at every address make equal canonical lists: equal memories are equal data. -/
theorem memGet_ext {m1 m2 : List Host.Cell} (h1 : Memory.wf m1 = true) (h2 : Memory.wf m2 = true)
    (h : ∀ a, memGet m1 a = memGet m2 a) : m1 = m2 := by
  have low : ∀ {m : List Host.Cell} {a : Nat}, (∀ d ∈ m, a < d.1) → memGet m a = Config.unwrittenByte := by
    intro m a hm
    induction m with
    | nil => rfl
    | cons d rest ih =>
      have := hm d List.mem_cons_self
      rw [memGet, if_neg (by omega)]
      exact ih fun e he => hm e (List.mem_cons_of_mem _ he)
  induction m1 generalizing m2 with
  | nil =>
    cases m2 with
    | nil => rfl
    | cons d rest =>
      have := h d.1
      simp [memGet] at this
      exact absurd this.symm ((Memory.wf_cons _ _).1 h2).1
  | cons c r1 ih =>
    obtain ⟨c1, c2, c3⟩ := (Memory.wf_cons _ _).1 h1
    cases m2 with
    | nil =>
      have := h c.1
      simp [memGet] at this
      exact absurd this c1
    | cons d r2 =>
      obtain ⟨d1, d2, d3⟩ := (Memory.wf_cons _ _).1 h2
      rcases Nat.lt_trichotomy c.1 d.1 with hlt | heq | hgt
      · have := h c.1
        rw [memGet, if_pos rfl, low (m := d :: r2)] at this
        · exact absurd this c1
        · intro e he
          rcases List.mem_cons.1 he with rfl | he
          · exact hlt
          · exact Nat.lt_trans hlt (d2 e he)
      · have hv := h c.1
        rw [memGet, if_pos rfl, memGet, if_pos heq.symm] at hv
        have hcd : c = d := Prod.ext heq hv
        subst hcd
        congr 1
        refine ih c3 d3 fun a => ?_
        by_cases ha : c.1 = a
        · subst ha
          rw [low c2, low d2]
        · have := h a
          simpa [memGet, ha] using this
      · have := h d.1
        rw [low (m := c :: r1), memGet, if_pos rfl] at this
        · exact absurd this.symm d1
        · intro e he
          rcases List.mem_cons.1 he with rfl | he
          · exact hgt
          · exact Nat.lt_trans hgt (c2 e he)

end Sys2Proof.Machine
end

