-- ==== Sys2Proof/Laws/Ops.lean ====
section
/-!
SUPPORT. What each shared operation can do, said once: the checks that raise an error, the runs of lane loads and
stores, the loops of SELN and ZOUT, the lane shapes and the transpose, issuing a command and a host transaction.
-/

namespace Sys2Proof.Machine

/-! ### The checks -/

theorem whenLegal_pos {i : Instr} {s : State} (h : i.WellFormed s.hasV8) (body : Result) :
    whenLegal i s body = body := if_pos h

theorem whenLegal_neg {i : Instr} {s : State} (h : ¬ i.WellFormed s.hasV8) (body : Result) :
    whenLegal i s body = .next (raiseError .illegalCommand (encode i) s) := if_neg h

theorem whenLegal_cases {i : Instr} {s t : State} {body : Result} (h : whenLegal i s body = .next t) :
    (i.WellFormed s.hasV8 ∧ body = .next t) ∨
      (¬ i.WellFormed s.hasV8 ∧ t = raiseError .illegalCommand (encode i) s) := by
  by_cases hw : i.WellFormed s.hasV8
  · exact .inl ⟨hw, by rwa [whenLegal_pos hw] at h⟩
  · rw [whenLegal_neg hw] at h
    exact .inr ⟨hw, by cases h; rfl⟩

theorem whenArgs_cases {i : Instr} {ok : Bool} {s t : State} {body : Result} (h : whenArgs i ok s body = .next t) :
    (ok = true ∧ body = .next t) ∨ (ok = false ∧ t = raiseError .argError (encode i) s) := by
  cases ok
  · exact .inr ⟨rfl, by cases h; rfl⟩
  · exact .inl ⟨rfl, h⟩

theorem whenInRange_cases {i : Instr} {bufs : List (Nat × Nat)} {s t : State} {body : Result}
    (h : whenInRange i bufs s body = .next t) :
    ((∀ b ∈ bufs, b.1 + b.2 ≤ s.memSize) ∧ body = .next t) ∨
      ((∃ b ∈ bufs, s.memSize < b.1 + b.2) ∧ t = raiseError .addrError (encode i) s) := by
  unfold whenInRange at h
  split at h
  · rename_i hb
    exact .inl ⟨by simpa [inRange] using hb, h⟩
  · rename_i hb
    refine .inr ⟨?_, by cases h; rfl⟩
    simpa [inRange] using hb

theorem whenInRange_pos {i : Instr} {bufs : List (Nat × Nat)} {s : State}
    (h : ∀ b ∈ bufs, b.1 + b.2 ≤ s.memSize) (body : Result) : whenInRange i bufs s body = body :=
  if_pos (by simpa [inRange] using h)

theorem whenInRange_neg {i : Instr} {bufs : List (Nat × Nat)} {s : State}
    (h : ∃ b ∈ bufs, s.memSize < b.1 + b.2) (body : Result) :
    whenInRange i bufs s body = .next (raiseError .addrError (encode i) s) :=
  if_neg (by simpa [inRange] using h)

/-! ### The bus -/

@[simp] theorem busRead_mem (b : Bus) (a n : Nat) : (b.read a n).2.mem = b.mem := rfl
@[simp] theorem busRead_bytes (b : Bus) (a n : Nat) : (b.read a n).1 = memRead b.mem a n := rfl
@[simp] theorem busRead_log (b : Bus) (a n : Nat) : (b.read a n).2.log = b.log ++ [.read a n] := rfl
@[simp] theorem busWrite_mem (b : Bus) (a : Nat) (bs : List Byte) : (b.write a bs).mem = memWrite b.mem a bs := rfl
@[simp] theorem busWrite_log (b : Bus) (a : Nat) (bs : List Byte) :
    (b.write a bs).log = b.log ++ [.write a bs.length] := rfl

/-! ### Lane loads and stores -/

/-- A run of lane loads changes no byte. -/
@[simp] theorem loadLanes_mem (order : List Byte → Lane) (n a : Nat) (b : Bus) :
    (loadLanes order n a b).2.mem = b.mem := by
  induction n generalizing a b with
  | zero => rfl
  | succ n ih => simp [loadLanes, ih]

/-- Lane `k` of a run of lane loads is the four bytes at `a + 4*k` in the given order. -/
theorem loadLanes_getElem? (order : List Byte → Lane) (n a k : Nat) (b : Bus) :
    (loadLanes order n a b).1[k]? = if k < n then some (order (memRead b.mem (a + 4 * k) 4)) else none := by
  induction n generalizing a b k with
  | zero => simp [loadLanes]
  | succ n ih =>
    cases k with
    | zero => simp [loadLanes]
    | succ k =>
      have e : a + 4 + 4 * k = a + 4 * (k + 1) := by omega
      simp [loadLanes, ih, e]

/-- The lane a vector load writes. -/
theorem laneAt_loadLanes (order : List Byte → Lane) {n : Nat} (a : Nat) (b : Bus) {k : Fin 8} (h : k.val < n) :
    laneAt (loadLanes order n a b).1 k = order (memRead b.mem (a + 4 * k.val) 4) := by
  simp [laneAt, loadLanes_getElem?, h]

/-- A run of lane stores writes the bytes of the lanes, lane after lane. -/
theorem storeLanes_mem (order : Lane → List Byte) (h4 : ∀ u, (order u).length = 4) (us : List Lane) (a : Nat)
    (b : Bus) : (storeLanes order us a b).mem = memWrite b.mem a (us.flatMap order) := by
  have app : ∀ (m : List Host.Cell) (a : Nat) (xs ys : List Byte),
      memWrite m a (xs ++ ys) = memWrite (memWrite m a xs) (a + xs.length) ys := by
    intro m a xs ys
    induction xs generalizing m a with
    | nil => rfl
    | cons x xs ih => simp [memWrite, ih, Nat.add_assoc, Nat.add_comm 1]
  induction us generalizing a b with
  | nil => rfl
  | cons u us ih => simp [storeLanes, ih, app, h4]

theorem bytesLE_length (u : Lane) : (bytesLE u).length = 4 := rfl
theorem bytesBE_length (u : Lane) : (bytesBE u).length = 4 := rfl

/-! ### The loops of SELN and ZOUT -/

/-- `SELN`'s loop changes no byte outside its destination. -/
theorem selectLoop_outside (n : Nat) (set : Bool) (len d x y : Nat) (b : Bus) (a : Nat)
    (h : a < d ∨ d + len * n ≤ a) : memGet (selectLoop n set len d x y b).mem a = memGet b.mem a := by
  induction len generalizing d x y b with
  | zero => rfl
  | succ len ih =>
    have e : (len + 1) * n = n + len * n := by rw [Nat.succ_mul, Nat.add_comm]
    rw [e] at h
    simp only [selectLoop]
    rw [ih _ _ _ _ (by omega), busWrite_mem, memGet_memWrite_outside]
    · simp
    · cases set <;> simp <;> omega

/-- `SELN`'s loop keeps the canonical form. -/
theorem selectLoop_wf (n : Nat) (set : Bool) (len d x y : Nat) (b : Bus) (h : Memory.wf b.mem = true) :
    Memory.wf (selectLoop n set len d x y b).mem = true := by
  induction len generalizing d x y b with
  | zero => exact h
  | succ len ih => exact ih _ _ _ _ (memWrite_wf _ _ h)

/-- `ZOUT`'s loop: a byte of the buffer is kept when the mask is set and 0 when it is cleared; the others stay. -/
theorem zeroLoop_byte (set : Bool) (n d : Nat) (b : Bus) (a : Nat) :
    memGet (zeroLoop set n d b).mem a =
      if d ≤ a ∧ a < d + n ∧ set = false then 0 else memGet b.mem a := by
  induction n generalizing d b with
  | zero => simp [zeroLoop]; omega
  | succ n ih =>
    simp only [zeroLoop, ih, busWrite_mem, busRead_mem, busRead_bytes]
    cases set
    · simp only [Bool.false_eq_true, if_false, memWrite, memGet_memSet, and_true]
      by_cases h1 : d + 1 ≤ a ∧ a < d + 1 + n
      · rw [if_pos h1, if_pos (by omega)]
      · rw [if_neg h1]
        by_cases h2 : a = d
        · subst h2; simp
        · rw [if_neg h2, if_neg (by omega)]
    · simp only [if_true, memRead, memWrite, memGet_memSet]
      by_cases h2 : a = d
      · subst h2; simp
      · simp [h2]

/-- `ZOUT`'s loop keeps the canonical form. -/
theorem zeroLoop_wf (set : Bool) (n d : Nat) (b : Bus) (h : Memory.wf b.mem = true) :
    Memory.wf (zeroLoop set n d b).mem = true := by
  induction n generalizing d b with
  | zero => exact h
  | succ n ih => exact ih _ _ (memWrite_wf _ _ h)

/-! ### Lane shapes and the transpose -/

theorem getLane_mapLanes (l : Lanes) (vd vs1 q : VReg) (f : Lane → Lane) (s : State) (k : Fin 8) :
    (mapLanes l vd vs1 f s).getLane q k =
      if q = vd ∧ k.val < l.count then f (s.getLane vs1 k) else s.getLane q k :=
  getLane_setLanes _ _ _ _ _ _

theorem getLane_zipLanes (l : Lanes) (vd vs1 vs2 q : VReg) (f : Lane → Lane → Lane) (s : State) (k : Fin 8) :
    (zipLanes l vd vs1 vs2 f s).getLane q k =
      if q = vd ∧ k.val < l.count then f (s.getLane vs1 k) (s.getLane vs2 k) else s.getLane q k :=
  getLane_setLanes _ _ _ _ _ _

/-- A register the transpose does not name keeps its lanes. -/
theorem getLane_writeTransposed_other (l : Lanes) (regs : List VReg) (old : State) (rs : List VReg) (j : Nat)
    (s : State) (q : VReg) (hq : q ∉ rs) (k : Fin 8) :
    (writeTransposed l regs old rs j s).getLane q k = s.getLane q k := by
  induction rs generalizing j s with
  | nil => rfl
  | cons r rs ih =>
    simp only [List.mem_cons, not_or] at hq
    rw [writeTransposed, ih _ _ hq.2, getLane_setLanes, if_neg (fun h => hq.1 h.1)]

/-- Lane `k` of the `m`-th register a transpose names, the registers being all different, is lane `m` of the `k`-th. -/
theorem getLane_writeTransposed (l : Lanes) (regs : List VReg) (old : State) (rs : List VReg) (hn : rs.Nodup)
    (j : Nat) (s : State) (m : Nat) (hm : m < rs.length) (k : Fin 8) :
    (writeTransposed l regs old rs j s).getLane rs[m] k =
      if k.val < l.count then old.getLane (regs.getD k.val 0) (Fin.ofNat 8 (j + m)) else s.getLane rs[m] k := by
  induction rs generalizing j s m with
  | nil => simp at hm
  | cons r rs ih =>
    obtain ⟨h1, h2⟩ := List.nodup_cons.1 hn
    cases m with
    | zero =>
      simp only [List.getElem_cons_zero, writeTransposed, Nat.add_zero]
      rw [getLane_writeTransposed_other _ _ _ _ _ _ _ h1, getLane_setLanes]
      simp
    | succ m =>
      have hm' : m < rs.length := by simpa using hm
      have hne : rs[m] ≠ r := fun e => h1 (e ▸ List.getElem_mem hm')
      simp only [List.getElem_cons_succ, writeTransposed]
      have e : j + 1 + m = j + (m + 1) := by omega
      rw [ih h2 _ _ _ hm', e]
      split
      · rfl
      · rw [getLane_setLanes, if_neg (fun h => hne h.1)]

theorem allDifferent_nodup {rs : List VReg} (h : allDifferent rs = true) : rs.Nodup := by
  induction rs with
  | nil => exact List.nodup_nil
  | cons r rs ih =>
    simp only [allDifferent, Bool.and_eq_true, Bool.not_eq_true', List.contains_eq_mem, decide_eq_false_iff_not] at h
    exact List.nodup_cons.2 ⟨h.1, ih h.2⟩

/-! ### Issuing a command, and a host transaction -/

/-- What a `CMD` write can do (R239): drop, raise `IllegalCommand`, or run the decoded command. -/
theorem issue_cases {c : CmdWord} {s : State} {r : Result} (h : issue c s = r) :
    (s.status.err = true ∧ r = .next s) ∨
      (s.status.err = false ∧ (∃ e, decode s.hasV8 c = .error e) ∧ r = .next (raiseError .illegalCommand c s)) ∨
      (s.status.err = false ∧ ∃ i, decode s.hasV8 c = .ok i ∧ r = exec i s) := by
  subst h
  unfold issue
  by_cases he : s.status.err = true
  · exact .inl ⟨he, by rw [if_pos he]⟩
  · rw [if_neg he]
    have he' : s.status.err = false := by simpa using he
    cases hd : decode s.hasV8 c with
    | ok i => exact .inr (.inr ⟨he', i, rfl, rfl⟩)
    | error e => exact .inr (.inl ⟨he', ⟨e, rfl⟩, rfl⟩)

theorem portReg_cmdIndex : portReg cmdIndex = .cmd := by decide

/-- A step performs the head of `pending`, if there is one (R244). -/
theorem step_nil {s : State} (h : s.pending = []) : step s = .next s := by
  unfold step; rw [h]

theorem step_cons {s : State} {t : HostTxn} {rest : List HostTxn} (h : s.pending = t :: rest) :
    step s = transact t { s with pending := rest } := by
  unfold step; rw [h]

/-! ### Runs of commands -/

@[simp] theorem execAll_nil (s : State) : execAll [] s = some s := rfl

/-- A run goes on from the state its first command leaves. -/
theorem execAll_cons {i : Instr} {is : List Instr} {s t : State} (h : exec i s = .next t) :
    execAll (i :: is) s = execAll is t := by rw [execAll, h]

end Sys2Proof.Machine
end

