-- ==== Sys2Proof/Laws/PerInstr.lean ====
section
/-!
SUPPORT. Families of lemmas made per instruction: `DecodeFields` says that the fields of an instruction's word are the
instruction's operands, for every operand value, legal or not (what R83's checks on operands then say is `checkLegal`).
-/

namespace Sys2Proof.Laws.DecodeFields

/-- The split of an instruction's word by its format gives the instruction back (R87 steps 1 and 2). -/
def Statement (i : Instr) : Prop := decodeFields (encode i) = .ok i

theorem ispow2 (w : Width) (rd rs1 : XReg) : Statement (.ispow2 w rd rs1) := by
  unfold Statement decodeFields
  rw [show fldOp (encode (.ispow2 w rd rs1)) = 0x10 from fldOp_wordS ..]
  simp [encode, whenZero, width]

theorem highbit (w : Width) (rd rs1 : XReg) : Statement (.highbit w rd rs1) := by
  unfold Statement decodeFields
  rw [show fldOp (encode (.highbit w rd rs1)) = 0x11 from fldOp_wordS ..]
  simp [encode, whenZero, width]

theorem sigbytes (w : Width) (rd rs1 : XReg) : Statement (.sigbytes w rd rs1) := by
  unfold Statement decodeFields
  rw [show fldOp (encode (.sigbytes w rd rs1)) = 0x12 from fldOp_wordS ..]
  simp [encode, whenZero, width]

theorem ctz (w : Width) (rd rs1 : XReg) : Statement (.ctz w rd rs1) := by
  unfold Statement decodeFields
  rw [show fldOp (encode (.ctz w rd rs1)) = 0x13 from fldOp_wordS ..]
  simp [encode, whenZero, width]

theorem clog2 (w : Width) (rd rs1 : XReg) : Statement (.clog2 w rd rs1) := by
  unfold Statement decodeFields
  rw [show fldOp (encode (.clog2 w rd rs1)) = 0x14 from fldOp_wordS ..]
  simp [encode, whenZero, width]

theorem clz (w : Width) (rd rs1 : XReg) : Statement (.clz w rd rs1) := by
  unfold Statement decodeFields
  rw [show fldOp (encode (.clz w rd rs1)) = 0x15 from fldOp_wordS ..]
  simp [encode, whenZero, width]

theorem mset (md : MReg) : Statement (.mset md) := by
  unfold Statement decodeFields
  rw [show fldOp (encode (.mset md)) = 0x20 from fldOp_wordS ..]
  simp [encode, whenZero]

theorem mclr (md : MReg) : Statement (.mclr md) := by
  unfold Statement decodeFields
  rw [show fldOp (encode (.mclr md)) = 0x21 from fldOp_wordS ..]
  simp [encode, whenZero]

theorem mexp (w : Width) (md : MReg) (rs1 : XReg) : Statement (.mexp w md rs1) := by
  unfold Statement decodeFields
  rw [show fldOp (encode (.mexp w md rs1)) = 0x22 from fldOp_wordS ..]
  simp [encode, whenZero, width]

theorem misz (w : Width) (md : MReg) (rs1 : XReg) : Statement (.misz w md rs1) := by
  unfold Statement decodeFields
  rw [show fldOp (encode (.misz w md rs1)) = 0x23 from fldOp_wordS ..]
  simp [encode, whenZero, width]

theorem meq (w : Width) (md : MReg) (rs1 rs2 : XReg) : Statement (.meq w md rs1 rs2) := by
  unfold Statement decodeFields
  rw [show fldOp (encode (.meq w md rs1 rs2)) = 0x24 from fldOp_wordS ..]
  simp [encode, whenZero, width]

theorem mlt (w : Width) (md : MReg) (rs1 rs2 : XReg) : Statement (.mlt w md rs1 rs2) := by
  unfold Statement decodeFields
  rw [show fldOp (encode (.mlt w md rs1 rs2)) = 0x25 from fldOp_wordS ..]
  simp [encode, whenZero, width]

theorem mgt (w : Width) (md : MReg) (rs1 rs2 : XReg) : Statement (.mgt w md rs1 rs2) := by
  unfold Statement decodeFields
  rw [show fldOp (encode (.mgt w md rs1 rs2)) = 0x26 from fldOp_wordS ..]
  simp [encode, whenZero, width]

theorem mlte (w : Width) (md : MReg) (rs1 rs2 : XReg) : Statement (.mlte w md rs1 rs2) := by
  unfold Statement decodeFields
  rw [show fldOp (encode (.mlte w md rs1 rs2)) = 0x27 from fldOp_wordS ..]
  simp [encode, whenZero, width]

theorem mgte (w : Width) (md : MReg) (rs1 rs2 : XReg) : Statement (.mgte w md rs1 rs2) := by
  unfold Statement decodeFields
  rw [show fldOp (encode (.mgte w md rs1 rs2)) = 0x28 from fldOp_wordS ..]
  simp [encode, whenZero, width]

theorem mand (md ms1 ms2 : MReg) : Statement (.mand md ms1 ms2) := by
  unfold Statement decodeFields
  rw [show fldOp (encode (.mand md ms1 ms2)) = 0x29 from fldOp_wordS ..]
  simp [encode, whenZero]

theorem mor (md ms1 ms2 : MReg) : Statement (.mor md ms1 ms2) := by
  unfold Statement decodeFields
  rw [show fldOp (encode (.mor md ms1 ms2)) = 0x2A from fldOp_wordS ..]
  simp [encode, whenZero]

theorem mxor (md ms1 ms2 : MReg) : Statement (.mxor md ms1 ms2) := by
  unfold Statement decodeFields
  rw [show fldOp (encode (.mxor md ms1 ms2)) = 0x2B from fldOp_wordS ..]
  simp [encode, whenZero]

theorem mnot (md ms1 : MReg) : Statement (.mnot md ms1) := by
  unfold Statement decodeFields
  rw [show fldOp (encode (.mnot md ms1)) = 0x2C from fldOp_wordS ..]
  simp [encode, whenZero]

theorem sel (w : Width) (rd : XReg) (ms : MReg) (rs1 rs2 : XReg) : Statement (.sel w rd ms rs1 rs2) := by
  unfold Statement decodeFields
  rw [show fldOp (encode (.sel w rd ms rs1 rs2)) = 0x2D from fldOp_wordS ..]
  simp [encode, whenZero, width]

theorem ifset (w : Width) (rd : XReg) (ms : MReg) (rs1 : XReg) : Statement (.ifset w rd ms rs1) := by
  unfold Statement decodeFields
  rw [show fldOp (encode (.ifset w rd ms rs1)) = 0x2E from fldOp_wordS ..]
  simp [encode, whenZero, width]

theorem mval (w : Width) (rd : XReg) (ms : MReg) : Statement (.mval w rd ms) := by
  unfold Statement decodeFields
  rw [show fldOp (encode (.mval w rd ms)) = 0x2F from fldOp_wordS ..]
  simp [encode, whenZero, width]

theorem seln (w : Width) (ms : MReg) (rpd rpx rpy rlen : XReg) : Statement (.seln w ms rpd rpx rpy rlen) := by
  unfold Statement decodeFields
  rw [show fldOp (encode (.seln w ms rpd rpx rpy rlen)) = 0x30 from fldOp_wordS ..]
  simp [encode, whenZero, width]

theorem zout (w : Width) (ms : MReg) (rpd rlen : XReg) : Statement (.zout w ms rpd rlen) := by
  unfold Statement decodeFields
  rw [show fldOp (encode (.zout w ms rpd rlen)) = 0x31 from fldOp_wordS ..]
  simp [encode, whenZero, width]

theorem wmk (wd rs1 rs2 : XReg) : Statement (.wmk wd rs1 rs2) := by
  unfold Statement decodeFields
  rw [show fldOp (encode (.wmk wd rs1 rs2)) = 0x40 from fldOp_wordS ..]
  simp [encode, whenZero]

theorem wshr (wd ws rsh : XReg) : Statement (.wshr wd ws rsh) := by
  unfold Statement decodeFields
  rw [show fldOp (encode (.wshr wd ws rsh)) = 0x41 from fldOp_wordS ..]
  simp [encode, whenZero]

theorem wshl (wd ws rsh : XReg) : Statement (.wshl wd ws rsh) := by
  unfold Statement decodeFields
  rw [show fldOp (encode (.wshl wd ws rsh)) = 0x42 from fldOp_wordS ..]
  simp [encode, whenZero]

theorem wadd (wd ws1 ws2 : XReg) : Statement (.wadd wd ws1 ws2) := by
  unfold Statement decodeFields
  rw [show fldOp (encode (.wadd wd ws1 ws2)) = 0x43 from fldOp_wordS ..]
  simp [encode, whenZero]

theorem wor (wd ws1 ws2 : XReg) : Statement (.wor wd ws1 ws2) := by
  unfold Statement decodeFields
  rw [show fldOp (encode (.wor wd ws1 ws2)) = 0x44 from fldOp_wordS ..]
  simp [encode, whenZero]

theorem wmul (wd ws1 rs2 : XReg) : Statement (.wmul wd ws1 rs2) := by
  unfold Statement decodeFields
  rw [show fldOp (encode (.wmul wd ws1 rs2)) = 0x45 from fldOp_wordS ..]
  simp [encode, whenZero]

theorem wcsh (rd ws rsh : XReg) : Statement (.wcsh rd ws rsh) := by
  unfold Statement decodeFields
  rw [show fldOp (encode (.wcsh rd ws rsh)) = 0x46 from fldOp_wordS ..]
  simp [encode, whenZero]

theorem wcmb (rd ws1 rsh1 ws2 rsh2 : XReg) : Statement (.wcmb rd ws1 rsh1 ws2 rsh2) := by
  unfold Statement decodeFields
  rw [show fldOp (encode (.wcmb rd ws1 rsh1 ws2 rsh2)) = 0x47 from fldOp_wordS ..]
  simp [encode, whenZero]

theorem vzero (l : Lanes) (vd : VReg) : Statement (.vzero l vd) := by
  unfold Statement decodeFields
  rw [show fldOp (encode (.vzero l vd)) = 0x60 from fldOp_wordV ..]
  simp [encode, whenZero, lanesOf]

theorem vpack (l : Lanes) (vd : VReg) (rs1 : XReg) : Statement (.vpack l vd rs1) := by
  unfold Statement decodeFields
  rw [show fldOp (encode (.vpack l vd rs1)) = 0x61 from fldOp_wordVS ..]
  simp [encode, whenZero, lanesOf]

theorem vsplat (l : Lanes) (vd : VReg) (rs1 : XReg) : Statement (.vsplat l vd rs1) := by
  unfold Statement decodeFields
  rw [show fldOp (encode (.vsplat l vd rs1)) = 0x62 from fldOp_wordVS ..]
  simp [encode, whenZero, lanesOf]

theorem vldle (l : Lanes) (vd : VReg) (imm : BitVec 12) (rs1 : XReg) : Statement (.vldle l vd imm rs1) := by
  unfold Statement decodeFields
  rw [show fldOp (encode (.vldle l vd imm rs1)) = 0x63 from fldOp_wordVS ..]
  simp [encode, whenZero, lanesOf]

theorem vldbe (l : Lanes) (vd : VReg) (imm : BitVec 12) (rs1 : XReg) : Statement (.vldbe l vd imm rs1) := by
  unfold Statement decodeFields
  rw [show fldOp (encode (.vldbe l vd imm rs1)) = 0x64 from fldOp_wordVS ..]
  simp [encode, whenZero, lanesOf]

theorem vstle (l : Lanes) (vs : VReg) (imm : BitVec 12) (rs1 : XReg) : Statement (.vstle l vs imm rs1) := by
  unfold Statement decodeFields
  rw [show fldOp (encode (.vstle l vs imm rs1)) = 0x65 from fldOp_wordVS ..]
  simp [encode, whenZero, lanesOf]

theorem vstbe (l : Lanes) (vs : VReg) (imm : BitVec 12) (rs1 : XReg) : Statement (.vstbe l vs imm rs1) := by
  unfold Statement decodeFields
  rw [show fldOp (encode (.vstbe l vs imm rs1)) = 0x66 from fldOp_wordVS ..]
  simp [encode, whenZero, lanesOf]

theorem vrotl (l : Lanes) (vd vs1 : VReg) (n : BitVec 5) : Statement (.vrotl l vd vs1 n) := by
  unfold Statement decodeFields
  rw [show fldOp (encode (.vrotl l vd vs1 n)) = 0x67 from fldOp_wordV ..]
  simp [encode, whenZero, lanesOf]

theorem vrotr (l : Lanes) (vd vs1 : VReg) (n : BitVec 5) : Statement (.vrotr l vd vs1 n) := by
  unfold Statement decodeFields
  rw [show fldOp (encode (.vrotr l vd vs1 n)) = 0x68 from fldOp_wordV ..]
  simp [encode, whenZero, lanesOf]

theorem vadd (l : Lanes) (vd vs1 vs2 : VReg) : Statement (.vadd l vd vs1 vs2) := by
  unfold Statement decodeFields
  rw [show fldOp (encode (.vadd l vd vs1 vs2)) = 0x69 from fldOp_wordV ..]
  simp [encode, whenZero, lanesOf]

theorem vsub (l : Lanes) (vd vs1 vs2 : VReg) : Statement (.vsub l vd vs1 vs2) := by
  unfold Statement decodeFields
  rw [show fldOp (encode (.vsub l vd vs1 vs2)) = 0x6A from fldOp_wordV ..]
  simp [encode, whenZero, lanesOf]

theorem vxor (l : Lanes) (vd vs1 vs2 : VReg) : Statement (.vxor l vd vs1 vs2) := by
  unfold Statement decodeFields
  rw [show fldOp (encode (.vxor l vd vs1 vs2)) = 0x6B from fldOp_wordV ..]
  simp [encode, whenZero, lanesOf]

theorem vor (l : Lanes) (vd vs1 vs2 : VReg) : Statement (.vor l vd vs1 vs2) := by
  unfold Statement decodeFields
  rw [show fldOp (encode (.vor l vd vs1 vs2)) = 0x6C from fldOp_wordV ..]
  simp [encode, whenZero, lanesOf]

theorem vand (l : Lanes) (vd vs1 vs2 : VReg) : Statement (.vand l vd vs1 vs2) := by
  unfold Statement decodeFields
  rw [show fldOp (encode (.vand l vd vs1 vs2)) = 0x6D from fldOp_wordV ..]
  simp [encode, whenZero, lanesOf]

theorem vnot (l : Lanes) (vd vs1 : VReg) : Statement (.vnot l vd vs1) := by
  unfold Statement decodeFields
  rw [show fldOp (encode (.vnot l vd vs1)) = 0x6E from fldOp_wordV ..]
  simp [encode, whenZero, lanesOf]

theorem vandc (l : Lanes) (vd vs1 vs2 : VReg) : Statement (.vandc l vd vs1 vs2) := by
  unfold Statement decodeFields
  rw [show fldOp (encode (.vandc l vd vs1 vs2)) = 0x6F from fldOp_wordV ..]
  simp [encode, whenZero, lanesOf]

theorem vshl (l : Lanes) (vd vs1 : VReg) (n : BitVec 5) : Statement (.vshl l vd vs1 n) := by
  unfold Statement decodeFields
  rw [show fldOp (encode (.vshl l vd vs1 n)) = 0x70 from fldOp_wordV ..]
  simp [encode, whenZero, lanesOf]

theorem vshr (l : Lanes) (vd vs1 : VReg) (n : BitVec 5) : Statement (.vshr l vd vs1 n) := by
  unfold Statement decodeFields
  rw [show fldOp (encode (.vshr l vd vs1 n)) = 0x71 from fldOp_wordV ..]
  simp [encode, whenZero, lanesOf]

theorem vbswap (l : Lanes) (vd vs1 : VReg) : Statement (.vbswap l vd vs1) := by
  unfold Statement decodeFields
  rw [show fldOp (encode (.vbswap l vd vs1)) = 0x72 from fldOp_wordV ..]
  simp [encode, whenZero, lanesOf]

theorem vtrn4 (va vb vc vd : VReg) : Statement (.vtrn4 va vb vc vd) := by
  unfold Statement decodeFields
  rw [show fldOp (encode (.vtrn4 va vb vc vd)) = 0x73 from fldOp_wordVT4 ..]
  simp [encode, whenZero]

theorem vtrn8 (t0 t1 t2 t3 t4 t5 t6 t7 : VReg) : Statement (.vtrn8 t0 t1 t2 t3 t4 t5 t6 t7) := by
  unfold Statement decodeFields
  rw [show fldOp (encode (.vtrn8 t0 t1 t2 t3 t4 t5 t6 t7)) = 0x74 from fldOp_wordVT8 ..]
  simp [encode]

theorem vrho (l : Lanes) (vd vs1 : VReg) (r1 r2 r3 : BitVec 5) : Statement (.vrho l vd vs1 r1 r2 r3) := by
  unfold Statement decodeFields
  rw [show fldOp (encode (.vrho l vd vs1 r1 r2 r3)) = 0x75 from fldOp_wordVR ..]
  simp [encode, whenZero, lanesOf]

end Sys2Proof.Laws.DecodeFields
end

