-- ==== Sys2Proof/Tests/Slice0.lean ====
section
/-!
SUPPORT. The model's own tests. Every expected value is the spec's: a worked example of a rule, a line of 60_exceptions.md
section 10, an encoding of 30_encoding.md or a word of 95_test_vectors.md. The last part shows, for every statement with
hypotheses, a concrete state and operands that meet them.
-/

open Sys2Proof Sys2Proof.Machine

namespace Sys2Proof.Tests

/-! ### WellFormed: one ill-formed term for each check -/

theorem test_odd_wide_register : (Instr.wadd 3 4 6).illegality true = some .oddWideRegister := by decide
theorem test_odd_wide_source : (Instr.wcmb 1 2 8 5 9).illegality true = some .oddWideRegister := by decide
theorem test_eight_lanes_absent : (Instr.vadd .eight 0 1 2).illegality false = some .eightLanesAbsent := by decide
theorem test_vtrn8_absent : (Instr.vtrn8 0 1 2 3 4 5 6 7).illegality false = some .eightLanesAbsent := by decide
theorem test_zero_amount : (Instr.vrotl .four 2 0 0).illegality true = some .zeroAmount := by decide
theorem test_zero_vrho_amount : (Instr.vrho .four 2 0 2 13 0).illegality true = some .zeroAmount := by decide
theorem test_repeated_register : (Instr.vtrn4 0 0 2 3).illegality true = some .repeatedRegister := by decide
theorem test_repeated_register8 :
    (Instr.vtrn8 0 1 2 3 4 5 6 0).illegality true = some .repeatedRegister := by decide
theorem test_pack_past_x15 : (Instr.vpack .four 3 13).illegality true = some .packPastX15 := by decide
theorem test_pack_at_x12 : (Instr.vpack .four 3 12).WellFormed false := by decide
theorem test_odd_destination_of_wcsh : (Instr.wcsh 1 4 7).WellFormed false := by decide

/-! ### Decoding: words the spec refuses (R83, 60_exceptions.md section 10) -/

theorem test_zero_word_refused : decode true 0x00000000 = .error .unknownOpcode := by decide
theorem test_ones_word_refused : decode true 0xFFFFFFFF = .error .unknownOpcode := by decide
theorem test_unused_bit_refused : decode true 0x11931000 = .error .unusedNotZero := by decide
theorem test_unused_width_refused : decode true 0x20410000 = .error .unusedNotZero := by decide
theorem test_odd_wide_refused : decode true 0x43034600 = .error .oddWideRegister := by decide
theorem test_eight_lanes_refused : decode false 0x69828000 = .error .eightLanesAbsent := by decide
theorem test_zero_rotate_refused : decode true 0x67200000 = .error .zeroAmount := by decide
theorem test_repeated_refused : decode true 0x73009800 = .error .repeatedRegister := by decide
theorem test_vtrn4_l_refused : decode true 0x73829800 = .error .transpose4EightLanes := by decide

/-! ### Decoding: a word of every constructor, written out from the encoding tables -/

/-- One word of each format bit by bit (R71, R74, R76 to R79). -/
theorem test_decode_bits :
    decode true (0b00010001#8 ++ 0b10#2 ++ 0b00#2 ++ 0b0011#4 ++ 0b0001#4 ++ 0#4 ++ 0#4 ++ 0#4 : BitVec 32)
      = .ok (.highbit .w32 3 1) ∧
    decode true (0b00101101#8 ++ 0b10#2 ++ 0b00#2 ++ 0b0110#4 ++ 0b0100#4 ++ 0b0101#4 ++ 0#4 ++ 0b0010#4 : BitVec 32)
      = .ok (.sel .w32 6 2 4 5) ∧
    decode true (0b01000111#8 ++ 0#2 ++ 0#2 ++ 0b0001#4 ++ 0b0010#4 ++ 0b1000#4 ++ 0b0100#4 ++ 0b1001#4 : BitVec 32)
      = .ok (.wcmb 1 2 8 4 9) ∧
    decode true (0b01100111#8 ++ 0b1#1 ++ 0b011#3 ++ 0b001#3 ++ 0#3 ++ 0#9 ++ 0b00111#5 : BitVec 32)
      = .ok (.vrotl .eight 3 1 7) ∧
    decode true (0b01100011#8 ++ 0b0#1 ++ 0b000#3 ++ 0b0010#4 ++ 0#4 ++ 0b000000010000#12 : BitVec 32)
      = .ok (.vldle .four 0 16 2) ∧
    decode true (0b01110101#8 ++ 0b0#1 ++ 0b001#3 ++ 0b000#3 ++ 0#2 ++ 0b00010#5 ++ 0b01101#5 ++ 0b10110#5 : BitVec 32)
      = .ok (.vrho .four 1 0 2 13 22) ∧
    decode true (0b01110011#8 ++ 0b0#1 ++ 0b000#3 ++ 0b001#3 ++ 0b010#3 ++ 0b011#3 ++ 0#11 : BitVec 32)
      = .ok (.vtrn4 0 1 2 3) := by decide

theorem test_decode_bitops :
    decode false 0x10C21000 = .ok (.ispow2 .w64 2 1) ∧ decode false 0x11831000 = .ok (.highbit .w32 3 1) ∧
    decode false 0x12421000 = .ok (.sigbytes .w16 2 1) ∧ decode false 0x13021000 = .ok (.ctz .w8 2 1) ∧
    decode false 0x14421000 = .ok (.clog2 .w16 2 1) ∧ decode false 0x15821000 = .ok (.clz .w32 2 1) := by decide

theorem test_decode_mask_factories :
    decode false 0x20010000 = .ok (.mset 1) ∧ decode false 0x21010000 = .ok (.mclr 1) ∧
    decode false 0x22812000 = .ok (.mexp .w32 1 2) ∧ decode false 0x23012000 = .ok (.misz .w8 1 2) ∧
    decode false 0x24412300 = .ok (.meq .w16 1 2 3) ∧ decode false 0x25C24500 = .ok (.mlt .w64 2 4 5) ∧
    decode false 0x26812300 = .ok (.mgt .w32 1 2 3) ∧ decode false 0x27812300 = .ok (.mlte .w32 1 2 3) ∧
    decode false 0x28012300 = .ok (.mgte .w8 1 2 3) := by decide

theorem test_decode_mask_combinators :
    decode false 0x29030021 = .ok (.mand 3 1 2) ∧ decode false 0x2A030021 = .ok (.mor 3 1 2) ∧
    decode false 0x2B030021 = .ok (.mxor 3 1 2) ∧ decode false 0x2C030001 = .ok (.mnot 3 1) := by decide

theorem test_decode_mask_consumers :
    decode false 0x2D864502 = .ok (.sel .w32 6 2 4 5) ∧ decode false 0x2E064002 = .ok (.ifset .w8 6 2 4) ∧
    decode false 0x2F460002 = .ok (.mval .w16 6 2) ∧ decode false 0x30412342 = .ok (.seln .w16 2 1 2 3 4) ∧
    decode false 0x31010042 = .ok (.zout .w8 2 1 4) := by decide

theorem test_decode_wide :
    decode false 0x40025600 = .ok (.wmk 2 5 6) ∧ decode false 0x41024700 = .ok (.wshr 2 4 7) ∧
    decode false 0x42024700 = .ok (.wshl 2 4 7) ∧ decode false 0x43024600 = .ok (.wadd 2 4 6) ∧
    decode false 0x44024600 = .ok (.wor 2 4 6) ∧ decode false 0x45024700 = .ok (.wmul 2 4 7) ∧
    decode false 0x46014700 = .ok (.wcsh 1 4 7) ∧ decode false 0x47012849 = .ok (.wcmb 1 2 8 4 9) := by decide

theorem test_decode_vector_memory :
    decode false 0x60500000 = .ok (.vzero .four 5) ∧ decode false 0x61340000 = .ok (.vpack .four 3 4) ∧
    decode false 0x62480000 = .ok (.vsplat .four 4 8) ∧ decode false 0x63020010 = .ok (.vldle .four 0 16 2) ∧
    decode false 0x64120010 = .ok (.vldbe .four 1 16 2) ∧ decode false 0x65120050 = .ok (.vstle .four 1 80 2) ∧
    decode false 0x66020040 = .ok (.vstbe .four 0 64 2) := by decide

theorem test_decode_vector_alu :
    decode true 0x67B20007 = .ok (.vrotl .eight 3 1 7) ∧ decode false 0x68200007 = .ok (.vrotr .four 2 0 7) ∧
    decode false 0x69204000 = .ok (.vadd .four 2 0 1) ∧ decode false 0x6A204000 = .ok (.vsub .four 2 0 1) ∧
    decode false 0x6B204000 = .ok (.vxor .four 2 0 1) ∧ decode false 0x6C204000 = .ok (.vor .four 2 0 1) ∧
    decode false 0x6D204000 = .ok (.vand .four 2 0 1) ∧ decode false 0x6E200000 = .ok (.vnot .four 2 0) ∧
    decode false 0x6F204000 = .ok (.vandc .four 2 0 1) := by decide

theorem test_decode_vector_rest :
    decode false 0x7020001F = .ok (.vshl .four 2 0 31) ∧ decode false 0x71200004 = .ok (.vshr .four 2 0 4) ∧
    decode false 0x72200000 = .ok (.vbswap .four 2 0) ∧ decode false 0x73029800 = .ok (.vtrn4 0 1 2 3) ∧
    decode true 0x74053977 = .ok (.vtrn8 0 1 2 3 4 5 6 7) ∧
    decode false 0x752009B6 = .ok (.vrho .four 2 0 2 13 22) := by decide

/-! ### Small states -/

/-- A block without `HAS_V8` and with 256 bytes, `STATUS` 0. -/
def small : State := { State.reset with hasV8 := false, memSize := 256 }

/-- `small` with some scalar registers set. -/
def xs : List (XReg × Word) → State
  | [] => small
  | (r, w) :: rest => (xs rest).setX r w

/-- A state with lanes 0 to 3 of a vector register set. -/
def lanes4 (r : VReg) (a b c d : Lane) (s : State) : State :=
  s.setLanes .four r fun k => [a, b, c, d].getD k.val 0

/-- A state with bytes written from `a` on. -/
def bytesAt (a : Nat) (bs : List Byte) (s : State) : State := { s with mem := memWrite s.mem a bs }

/-- The outcome is a next state with the property. -/
def gives (r : Result) (p : State → Bool) : Bool :=
  match r with
  | .next t => p t
  | .fault _ => false
  | .refused _ => false

theorem next_of_gives {r : Result} {t : State} (h : gives r (fun u => u == t) = true) : r = .next t := by
  cases r with
  | next u => exact congrArg _ (eq_of_beq h)
  | fault f => cases f
  | refused q => cases h

/-- Lanes 0 to 3 of a vector register. -/
def firstLanes (s : State) (r : VReg) : List Lane := s.laneList .four r

/-! ### The worked examples of the rules -/

theorem test_ispow2 : gives (exec (.ispow2 .w8 2 1) (xs [(1, 0x180)])) (fun t => t.getX 2 == 1) = true := by decide
theorem test_highbit : gives (exec (.highbit .w32 3 1) (xs [(1, 0xF0)])) (fun t => t.getX 3 == 8) = true := by decide
theorem test_sigbytes : gives (exec (.sigbytes .w16 2 1) (xs [(1, 0x0100)])) (fun t => t.getX 2 == 2) = true := by
  decide
theorem test_ctz : gives (exec (.ctz .w8 2 1) (xs [(1, 0x60)])) (fun t => t.getX 2 == 5) = true := by decide
theorem test_ctz_zero : gives (exec (.ctz .w8 2 1) (xs [(1, 0x100)])) (fun t => t.getX 2 == 8) = true := by decide
theorem test_clog2 : gives (exec (.clog2 .w16 2 1) (xs [(1, 5)])) (fun t => t.getX 2 == 3) = true := by decide
theorem test_clog2_conflict : gives (exec (.clog2 .w8 2 1) (xs [(1, 0x80)])) (fun t => t.getX 2 == 8) = true := by
  decide
theorem test_clz : gives (exec (.clz .w32 2 1) (xs [(1, 0xF0)])) (fun t => t.getX 2 == 24) = true := by decide

theorem test_mset : gives (exec (.mset 1) small) (fun t => t.getM 1) = true := by decide
theorem test_mclr : gives (exec (.mclr 1) (small.setM 1 true)) (fun t => !t.getM 1) = true := by decide
theorem test_mexp : gives (exec (.mexp .w32 1 2) (xs [(2, 0x100000000)])) (fun t => !t.getM 1) = true := by decide
theorem test_misz : gives (exec (.misz .w8 1 2) (xs [(2, 0x100)])) (fun t => t.getM 1) = true := by decide
theorem test_meq : gives (exec (.meq .w16 1 2 3) (xs [(2, 0xA1234), (3, 0x1234)])) (fun t => t.getM 1) = true := by
  decide
theorem test_mlt_unsigned :
    gives (exec (.mlt .w64 2 4 5) (xs [(4, 3), (5, 0xFFFFFFFFFFFFFFFF)])) (fun t => t.getM 2) = true := by decide
theorem test_mgt : gives (exec (.mgt .w32 1 2 3) (xs [(2, 0x80000000), (3, 1)])) (fun t => t.getM 1) = true := by
  decide
theorem test_mlte : gives (exec (.mlte .w32 1 2 3) (xs [(2, 7), (3, 7)])) (fun t => t.getM 1) = true := by decide
theorem test_mgte : gives (exec (.mgte .w8 1 2 3) (xs [(2, 0), (3, 0xFF)])) (fun t => !t.getM 1) = true := by decide
theorem test_mand : gives (exec (.mand 3 1 2) (small.setM 1 true)) (fun t => !t.getM 3) = true := by decide
theorem test_mor : gives (exec (.mor 3 1 2) (small.setM 1 true)) (fun t => t.getM 3) = true := by decide
theorem test_mxor : gives (exec (.mxor 3 1 2) ((small.setM 1 true).setM 2 true)) (fun t => !t.getM 3) = true := by
  decide
theorem test_mnot : gives (exec (.mnot 3 1) small) (fun t => t.getM 3) = true := by decide
theorem test_sel_set :
    gives (exec (.sel .w32 6 2 4 5) ((xs [(4, 0xAAAAAAAA11111111), (5, 0x22222222)]).setM 2 true))
      (fun t => t.getX 6 == 0x11111111) = true := by decide
theorem test_sel_cleared :
    gives (exec (.sel .w32 6 2 4 5) (xs [(4, 0xAAAAAAAA11111111), (5, 0x22222222)]))
      (fun t => t.getX 6 == 0x22222222) = true := by decide
theorem test_ifset : gives (exec (.ifset .w8 6 2 4) ((xs [(4, 0x1234)]).setM 2 true)) (fun t => t.getX 6 == 0x34) = true := by
  decide
theorem test_mval : gives (exec (.mval .w16 6 2) (small.setM 2 true)) (fun t => t.getX 6 == 0xFFFF) = true := by decide

/-- R138's example. -/
def selnState : State :=
  bytesAt 8 [0xAA, 0xBB, 0xCC, 0xDD] (bytesAt 0 [0x11, 0x22, 0x33, 0x44] (xs [(1, 16), (2, 0), (3, 8), (4, 2)]))

theorem test_seln_set :
    gives (exec (.seln .w16 2 1 2 3 4) (selnState.setM 2 true)) (fun t => memRead t.mem 16 4 == [0x11, 0x22, 0x33, 0x44])
      = true := by decide
theorem test_seln_cleared :
    gives (exec (.seln .w16 2 1 2 3 4) selnState) (fun t => memRead t.mem 16 4 == [0xAA, 0xBB, 0xCC, 0xDD]) = true := by
  decide

/-- R139's example: the bytes are zeroed when the mask is cleared (90_conflicts.md C2). -/
theorem test_zout_cleared :
    gives (exec (.zout .w8 2 1 4) (bytesAt 16 [0xAA, 0xBB, 0xCC, 0xDD] (xs [(1, 16), (4, 2)])))
      (fun t => memRead t.mem 16 4 == [0x00, 0x00, 0xCC, 0xDD]) = true := by decide
theorem test_zout_set :
    gives (exec (.zout .w8 2 1 4) ((bytesAt 16 [0xAA, 0xBB, 0xCC, 0xDD] (xs [(1, 16), (4, 2)])).setM 2 true))
      (fun t => memRead t.mem 16 4 == [0xAA, 0xBB, 0xCC, 0xDD]) = true := by decide

theorem test_wmk_swaps : gives (exec (.wmk 2 3 2) (xs [(2, 5), (3, 6)])) (fun t => t.getX 2 == 6 && t.getX 3 == 5) = true := by
  decide
theorem test_wshr :
    gives (exec (.wshr 2 4 7) (xs [(4, 0x0123456789ABCDEF), (5, 0xFEDCBA9876543210), (7, 4)]))
      (fun t => t.getX 3 == 0x0FEDCBA987654321 && t.getX 2 == 0x00123456789ABCDE) = true := by decide
theorem test_wshl :
    gives (exec (.wshl 2 4 7) (xs [(4, 0x0123456789ABCDEF), (5, 0xFEDCBA9876543210), (7, 63)]))
      (fun t => t.getX 3 == 0x0091A2B3C4D5E6F7 && t.getX 2 == 0x8000000000000000) = true := by decide
theorem test_wadd :
    gives (exec (.wadd 2 4 6) (xs [(4, 0xFFFFFFFFFFFFFFFF), (6, 1)])) (fun t => t.getX 3 == 1 && t.getX 2 == 0) = true := by
  decide
theorem test_wor :
    gives (exec (.wor 2 4 6) (xs [(4, 0xF0), (5, 1), (6, 0x0F), (7, 0x8000000000000000)]))
      (fun t => t.getX 3 == 0x8000000000000001 && t.getX 2 == 0xFF) = true := by decide
theorem test_wmul :
    gives (exec (.wmul 2 4 7) (xs [(4, 0xFFFFFFFFFFFFFFFF), (7, 0xFFFFFFFFFFFFFFFF)]))
      (fun t => t.getX 3 == 0xFFFFFFFFFFFFFFFE && t.getX 2 == 1) = true := by decide
theorem test_wcsh :
    gives (exec (.wcsh 1 4 7) (xs [(4, 0x0123456789ABCDEF), (5, 0xFEDCBA9876543210), (7, 44)]))
      (fun t => t.getX 1 == 0xA987654321001234) = true := by decide
theorem test_wcmb :
    gives (exec (.wcmb 1 2 8 4 9)
        (xs [(2, 0xAAAAAAAAAAAAAAAA), (3, 5), (8, 4), (4, 0x0123456789ABCDEF), (5, 0xFEDCBA9876543210), (9, 60)]))
      (fun t => t.getX 1 == 0xFAAAAAAAAAAAAAAA) = true := by decide

/-- The sources of 43_simd.md section 5. -/
def section5 : State :=
  lanes4 1 0x80000000 0xFFFFFFFF 0x00000001 0x0F0F0F0F (lanes4 0 0x80000001 0x00000001 0xFFFFFFFF 0x12345678 small)

theorem test_vzero : gives (exec (.vzero .four 1) section5) (fun t => firstLanes t 1 == [0, 0, 0, 0]) = true := by decide
theorem test_vpack :
    gives (exec (.vpack .four 3 4) (xs [(4, 0x11111111), (5, 0xF22222222), (6, 0x33333333), (7, 0x44444444)]))
      (fun t => firstLanes t 3 == [0x11111111, 0x22222222, 0x33333333, 0x44444444]) = true := by decide
theorem test_vsplat :
    gives (exec (.vsplat .four 4 8) (xs [(8, 0xDEADBEEF01234567)]))
      (fun t => firstLanes t 4 == [0x01234567, 0x01234567, 0x01234567, 0x01234567]) = true := by decide

/-- Memory byte `a` holds `a` for `a` from 16 to 31 (R183's example). -/
def ramp : State :=
  bytesAt 16 [16, 17, 18, 19, 20, 21, 22, 23, 24, 25, 26, 27, 28, 29, 30, 31] small

theorem test_vldle :
    gives (exec (.vldle .four 0 16 2) ramp)
      (fun t => firstLanes t 0 == [0x13121110, 0x17161514, 0x1B1A1918, 0x1F1E1D1C]) = true := by decide
theorem test_vldbe :
    gives (exec (.vldbe .four 1 16 2) ramp)
      (fun t => firstLanes t 1 == [0x10111213, 0x14151617, 0x18191A1B, 0x1C1D1E1F]) = true := by decide
theorem test_vstle :
    gives (exec (.vstle .four 1 80 2) (lanes4 1 0x10111213 0x14151617 0x18191A1B 0x1C1D1E1F small))
      (fun t => memRead t.mem 80 16 ==
        [0x13, 0x12, 0x11, 0x10, 0x17, 0x16, 0x15, 0x14, 0x1B, 0x1A, 0x19, 0x18, 0x1F, 0x1E, 0x1D, 0x1C]) = true := by
  decide
theorem test_vstbe :
    gives (exec (.vstbe .four 0 64 2) (lanes4 0 0x13121110 0x17161514 0x1B1A1918 0x1F1E1D1C small))
      (fun t => memRead t.mem 64 16 ==
        [0x13, 0x12, 0x11, 0x10, 0x17, 0x16, 0x15, 0x14, 0x1B, 0x1A, 0x19, 0x18, 0x1F, 0x1E, 0x1D, 0x1C]) = true := by
  decide
theorem test_vrotl :
    gives (exec (.vrotl .four 2 0 7) section5)
      (fun t => firstLanes t 2 == [0x000000C0, 0x00000080, 0xFFFFFFFF, 0x1A2B3C09]) = true := by decide
theorem test_vrotr :
    gives (exec (.vrotr .four 2 0 7) section5)
      (fun t => firstLanes t 2 == [0x03000000, 0x02000000, 0xFFFFFFFF, 0xF02468AC]) = true := by decide
theorem test_vadd :
    gives (exec (.vadd .four 2 0 1) section5)
      (fun t => firstLanes t 2 == [0x00000001, 0x00000000, 0x00000000, 0x21436587]) = true := by decide
theorem test_vsub :
    gives (exec (.vsub .four 2 0 1) section5)
      (fun t => firstLanes t 2 == [0x00000001, 0x00000002, 0xFFFFFFFE, 0x03254769]) = true := by decide
theorem test_vxor :
    gives (exec (.vxor .four 2 0 1) section5)
      (fun t => firstLanes t 2 == [0x00000001, 0xFFFFFFFE, 0xFFFFFFFE, 0x1D3B5977]) = true := by decide
theorem test_vor :
    gives (exec (.vor .four 2 0 1) section5)
      (fun t => firstLanes t 2 == [0x80000001, 0xFFFFFFFF, 0xFFFFFFFF, 0x1F3F5F7F]) = true := by decide
theorem test_vand :
    gives (exec (.vand .four 2 0 1) section5)
      (fun t => firstLanes t 2 == [0x80000000, 0x00000001, 0x00000001, 0x02040608]) = true := by decide
theorem test_vnot :
    gives (exec (.vnot .four 2 0) section5)
      (fun t => firstLanes t 2 == [0x7FFFFFFE, 0xFFFFFFFE, 0x00000000, 0xEDCBA987]) = true := by decide
theorem test_vandc :
    gives (exec (.vandc .four 2 0 1) section5)
      (fun t => firstLanes t 2 == [0x00000000, 0xFFFFFFFE, 0x00000000, 0x0D0B0907]) = true := by decide
theorem test_vshl :
    gives (exec (.vshl .four 2 0 4) section5)
      (fun t => firstLanes t 2 == [0x00000010, 0x00000010, 0xFFFFFFF0, 0x23456780]) = true := by decide
theorem test_vshr :
    gives (exec (.vshr .four 2 0 4) section5)
      (fun t => firstLanes t 2 == [0x08000000, 0x00000000, 0x0FFFFFFF, 0x01234567]) = true := by decide
theorem test_vbswap :
    gives (exec (.vbswap .four 2 0) section5)
      (fun t => firstLanes t 2 == [0x01000080, 0x01000000, 0xFFFFFFFF, 0x78563412]) = true := by decide

/-- R205's example: `v<j>.lane[i] = 0x10*j + i`. -/
def grid4 : State :=
  lanes4 0 0x00 0x01 0x02 0x03 (lanes4 1 0x10 0x11 0x12 0x13 (lanes4 2 0x20 0x21 0x22 0x23
    (lanes4 3 0x30 0x31 0x32 0x33 small)))

theorem test_vtrn4 :
    gives (exec (.vtrn4 0 1 2 3) grid4) (fun t => firstLanes t 0 == [0x00, 0x10, 0x20, 0x30]
      && firstLanes t 3 == [0x03, 0x13, 0x23, 0x33]) = true := by decide

/-- R206's example: `v<j>.lane[i] = 0x10*j + i` in every register. -/
def grid8 : State :=
  { State.reset with v := Vector.ofFn fun j => Vector.ofFn fun i => BitVec.ofNat 32 (0x10 * j.val + i.val) }

theorem test_vtrn8 :
    gives (exec (.vtrn8 0 1 2 3 4 5 6 7) grid8)
      (fun t => t.laneList .eight 1 == [0x01, 0x11, 0x21, 0x31, 0x41, 0x51, 0x61, 0x71]) = true := by decide
theorem test_vrho :
    gives (exec (.vrho .four 2 0 2 13 22) section5)
      (fun t => firstLanes t 2 == [0x600C0600, 0x40080400, 0xFFFFFFFF, 0x66146474]) = true := by decide

/-! ### The host's transactions (60_exceptions.md section 10) -/

/-- A state with one transaction pending. -/
def about (t : HostTxn) (s : State) : State := { s with pending := [t] }

/-- `STATUS = 0x21`, as `WMUL w2, w4, x7` with `x5 = 1` leaves it. -/
def failed : State := { xs [(5, 1)] with status := ⟨true, 2⟩, errcmd := 0x45024700 }

theorem test_zero_word_raises :
    gives (step (about (.regWrite 0x104 0) small)) (fun t => statusWord t == 0x11 && t.errcmd == 0 && errO t) = true := by
  decide
theorem test_wmul_raises :
    gives (step (about (.regWrite 0x104 0x45024700) (xs [(5, 1)])))
      (fun t => t == failed) = true := by decide
theorem test_shift_of_64_raises :
    gives (step (about (.regWrite 0x104 0x41024700) (xs [(7, 64)])))
      (fun t => statusWord t == 0x21 && t.errcmd == 0x41024700) = true := by decide
theorem test_load_past_the_end_raises :
    gives (step (about (.regWrite 0x104 0x63020000) (xs [(2, 241)])))
      (fun t => statusWord t == 0x31 && t.errcmd == 0x63020000) = true := by decide
theorem test_load_at_the_end_runs :
    gives (step (about (.regWrite 0x104 0x63020000) (xs [(2, 240)]))) (fun t => statusWord t == 0) = true := by decide
theorem test_command_dropped :
    gives (step (about (.regWrite 0x104 0x20010000) failed)) (fun t => t == failed) = true := by decide
theorem test_clear_needs_bit_0 :
    gives (step (about (.regWrite 0x101 0) failed)) (fun t => t == failed) = true := by decide
theorem test_clear :
    gives (step (about (.regWrite 0x101 1) failed)) (fun t => statusWord t == 0 && t.errcmd == 0 && !errO t) = true := by
  decide
theorem test_port_not_blocked :
    gives (step (about (.regRead 5) failed)) (fun t => t.reply == .word 1) = true := by decide
theorem test_cap_without_v8 :
    gives (step (about (.regRead 0x100) small)) (fun t => t.reply == .word 0x13D) = true := by decide
theorem test_memsz : gives (step (about (.regRead 0x103) small)) (fun t => t.reply == .word 256) = true := by decide

/-- The host's question: the table's word of `MSET` (R121's example) runs as the first command after reset. -/
theorem test_fetch_word : gives (step (State.reset.withFetchWord 32 0x20010000)) (fun t => t.getM 1) = true := by decide
theorem test_table_word : decodeTableWord 32 0x74053977 = some (.vtrn8 0 1 2 3 4 5 6 7) := by decide

/-- Writing what an unlisted byte reads as takes the entry out again: equal memories are equal lists. -/
theorem test_memory_canonical : memSet (memSet [] 5 7) 5 0 = [] ∧ Memory.wf (memSet (memSet [] 9 1) 5 7) = true := by
  decide

/-! ### Witnesses: for every statement with hypotheses, values that meet them, clause by clause

`State.reset` has `HAS_V8` and `MEMSIZE = 2^64`; `small` has neither, and 256 bytes. A clause over a range has its
witnesses at the ends of the range. -/

/-- `DecodeUndoesEncode`: a legal instruction, and an illegal one with its reason. -/
theorem witness_DecodeUndoesEncode :
    (Instr.vpack .eight 7 8).WellFormed true ∧ (Instr.vpack .eight 7 9).illegality true = some .packPastX15 := by decide

theorem witness_LegalWordIsEncodingOfItsCommand : decode false 0x20010000 = .ok (.mset 1) := by decide

theorem witness_StepRunsDecodedCommand :
    AboutToWrite (about (.regWrite 0x104 0xFFFFFFFF20010000) small) 0x104 0xFFFFFFFF20010000 [] ∧
    (about (.regWrite 0x104 0xFFFFFFFF20010000) small).status.err = false ∧
    decode small.hasV8 ((0xFFFFFFFF20010000 : Word).setWidth 32) = .ok (.mset 1) := by
  unfold AboutToWrite; decide

/-- `IllegalWordsRaiseIllegalCommand`: an illegal word, and a legal one. -/
theorem witness_IllegalWordsRaiseIllegalCommand :
    AboutToWrite (about (.regWrite 0x104 0x69828000) small) 0x104 0x69828000 [] ∧ small.status.err = false ∧
    legalWord small.hasV8 ((0x69828000 : Word).setWidth 32) = false ∧
    AboutToWrite (about (.regWrite 0x104 0x69028000) small) 0x104 0x69028000 [] ∧
    legalWord small.hasV8 ((0x69028000 : Word).setWidth 32) = true := by
  unfold AboutToWrite; decide

theorem witness_CommandDroppedWhileErrorSet :
    AboutToWrite (about (.regWrite 0x104 0x20010000) failed) 0x104 0x20010000 [] ∧ failed.status.err = true := by
  unfold AboutToWrite; decide

/-- `StatusWriteClearsError`: data with bit 0 set, and data with only the other bits set. -/
theorem witness_StatusWriteClearsError :
    AboutToWrite (about (.regWrite 0x101 1) failed) 0x101 1 [] ∧ (1 : Word).getLsbD 0 = true ∧
    AboutToWrite (about (.regWrite 0x101 0xFFFFFFFFFFFFFFFE) failed) 0x101 0xFFFFFFFFFFFFFFFE [] ∧
    (0xFFFFFFFFFFFFFFFE : Word).getLsbD 0 = false := by
  unfold AboutToWrite; decide

/-- `PortAccessesRegisterFiles`: the last scalar and mask register; lane 3 without `HAS_V8`, lane 7 with it; and the
lanes 4 and 7 that do not exist. -/
theorem witness_PortAccessesRegisterFiles :
    AboutToWrite (about (.regWrite 0x00F 9) failed) (BitVec.ofNat 12 (15 : XReg).toNat) 9 [] ∧
    AboutToWrite (about (.regWrite 0x01F 3) failed) (BitVec.ofNat 12 (0x10 + (15 : MReg).toNat)) 3 [] ∧
    AboutToWrite (about (.regWrite 0x07B 9) small) (BitVec.ofNat 12 (0x40 + 8 * (7 : VReg).toNat + (3 : Fin 8).val)) 9 [] ∧
    ((3 : Fin 8).val < 4 ∨ small.hasV8 = true) ∧
    AboutToWrite (about (.regWrite 0x07F 9) .reset) (BitVec.ofNat 12 (0x40 + 8 * (7 : VReg).toNat + (7 : Fin 8).val)) 9 [] ∧
    ((7 : Fin 8).val < 4 ∨ State.reset.hasV8 = true) ∧
    AboutToWrite (about (.regWrite 0x044 9) small) (BitVec.ofNat 12 (0x40 + 8 * (0 : VReg).toNat + (4 : Fin 8).val)) 9 [] ∧
    4 ≤ (4 : Fin 8).val ∧ 4 ≤ (7 : Fin 8).val ∧ small.hasV8 = false := by
  unfold AboutToWrite; decide

/-- `ConstantAndReservedIndices`: both sizes of `MEMSZ`'s rule, the ends of the reserved ranges, and a write. -/
theorem witness_ConstantAndReservedIndices :
    small.memSize < 2 ^ 64 ∧ State.reset.memSize = 2 ^ 64 ∧
    ReservedIndex 0x020 ∧ ReservedIndex 0x03F ∧ ReservedIndex 0x080 ∧ ReservedIndex 0x0FF ∧ ReservedIndex 0x105 ∧
    ReservedIndex 0xFFF ∧
    AboutToWrite (about (.regWrite 0x100 1) failed) 0x100 1 [] ∧
    AboutToWrite (about (.regWrite 0x103 1) failed) 0x103 1 [] ∧
    AboutToWrite (about (.regWrite 0x105 1) failed) 0x105 1 [] := by
  unfold AboutToWrite ReservedIndex; decide

theorem witness_StatusAndErrcmdRead : AboutToWrite (about (.regWrite 0x102 1) failed) 0x102 1 [] := rfl

theorem witness_RegReadChangesNothing : (about (.regRead 0x101) failed).pending = .regRead 0x101 :: [] := rfl

/-- `HostMemoryTransactions`: the last byte of the memory, and the first that does not exist. -/
theorem witness_HostMemoryTransactions :
    (about (.memRead 255) small).pending = .memRead 255 :: [] ∧ 255 < small.memSize ∧
    (about (.memRead 256) small).pending = .memRead 256 :: [] ∧ small.memSize ≤ 256 ∧
    (about (.memWrite 255 7) small).pending = .memWrite 255 7 :: [] ∧
    (about (.memWrite 256 7) small).pending = .memWrite 256 7 :: [] := by decide

theorem witness_ResetTouchesOnlyTheErrorState : (about .reset failed).pending = .reset :: [] := rfl

/-- `CommandErrorIsPrecise`: a command that completes, and one that raises. -/
theorem witness_CommandErrorIsPrecise :
    exec (.mset 1) small = .next (small.setM 1 true) ∧ exec (.wmul 2 4 7) (xs [(5, 1)]) = .next failed :=
  ⟨rfl, next_of_gives (by decide)⟩

/-- `ErrorConditionsAreTheTables`: each of its four cases. -/
theorem witness_ErrorConditionsAreTheTables :
    ¬ (Instr.wmul 3 4 7).WellFormed small.hasV8 ∧
    ((Instr.wcmb 1 2 8 4 9).WellFormed small.hasV8 ∧ argViolation (xs [(9, 64)]) (.wcmb 1 2 8 4 9)) ∧
    ((Instr.vldle .four 0 0 2).WellFormed small.hasV8 ∧ addrViolation (xs [(2, 241)]) (.vldle .four 0 0 2)) ∧
    ((Instr.vldle .four 0 0 2).WellFormed small.hasV8 ∧ ¬ argViolation (xs [(2, 240)]) (.vldle .four 0 0 2) ∧
      ¬ addrViolation (xs [(2, 240)]) (.vldle .four 0 0 2)) := by
  simp only [argViolation, addrViolation, vecEnd]; decide

/-- `StepKeepsLegalState`: a legal state with an error recorded, a stored byte and a transaction
to come, and its next state. -/
theorem witness_StepKeepsLegalState :
    (about (.memWrite 255 7) (bytesAt 3 [1] failed)).Legal ∧
    step (about (.memWrite 255 7) (bytesAt 3 [1] failed)) = .next (bytesAt 255 [7] (bytesAt 3 [1] failed)) := by
  refine ⟨⟨by decide, by decide, by decide, ?_, ?_⟩, next_of_gives (by decide)⟩
  · unfold StatusLegal; decide
  · unfold HighLanesAbsent; decide

theorem witness_StepKeepsErrorRecord :
    ErrorRecordLegal (about (.regRead 5) failed) ∧
    step (about (.regRead 5) failed) = .next { failed with reply := .word 1 } :=
  ⟨fun _ => .inr (.inl ⟨by decide, .wmul 2 4 7, by decide, by decide⟩), rfl⟩

theorem witness_StepTakesOneTransaction :
    small.pending = [] ∧ step (about (.regRead 5) failed) = .next { failed with reply := .word 1 } := ⟨rfl, rfl⟩

/-- The values of the BitOps statements: 0, a power of two greater than 1, and neither. -/
theorem witness_Ispow2TestsPowerOfTwo :
    (∃ k, 1 ≤ k ∧ operandNat (xs [(1, 0x180)]) .w8 1 = 2 ^ k) ∧ operandNat (xs [(1, 1)]) .w8 1 = 1 ∧
    operandNat small .w64 1 = 0 :=
  ⟨⟨7, by decide, by unfold operandNat; decide⟩, by unfold operandNat; decide, by unfold operandNat; decide⟩

/-- A number above the result, and a bit above it and below it, for the clauses over every number. -/
theorem witness_HighbitIsTheBitWidth :
    operandNat small .w64 1 = 0 ∧ operandNat (xs [(1, 0x180)]) .w8 1 ≠ 0 ∧
    operandNat (xs [(1, 0x180)]) .w8 1 < 2 ^ 8 ∧ highBit (128 : BitVec 8) ≤ 8 := by unfold operandNat; decide

theorem witness_SigbytesCountsBytes :
    operandNat small .w64 1 < 2 ^ (8 * 0) ∧ operandNat (xs [(1, 0x180)]) .w8 1 < 2 ^ (8 * 1) := by
  unfold operandNat; decide

theorem witness_CtzCountsTrailingZeros :
    operandNat small .w64 1 = 0 ∧ operandNat (xs [(1, 0x180)]) .w8 1 ≠ 0 ∧ 0 < trailingZeros (128 : BitVec 8) := by
  unfold operandNat; decide

/-- The two sides of the top-bit clause meet at `2^(W-1)`. -/
theorem witness_Clog2IsCeilingLog :
    2 ^ (Width.w8.bits - 1) ≤ operandNat (xs [(1, 0x180)]) .w8 1 ∧
    operandNat (xs [(1, 0x17F)]) .w8 1 < 2 ^ (Width.w8.bits - 1) ∧
    operandNat (xs [(1, 0x17F)]) .w8 1 ≤ 2 ^ 7 := by unfold operandNat; decide

theorem witness_ClzCountsLeadingZeros :
    operandNat small .w64 1 = 0 ∧ operandNat (xs [(1, 0x180)]) .w8 1 ≠ 0 ∧
    Width.w8.bits - leadingZeros (128 : BitVec 8) ≤ 8 := by unfold operandNat; decide

/-- `BitOpsIdentities`: the ends of its three ranges at width 8, and two widths. -/
theorem witness_BitOpsIdentities :
    (2 ≤ (2 : BitVec 8).toNat ∧ (127 : BitVec 8).toNat < 2 ^ (8 - 1)) ∧ (1 : BitVec 8).toNat ≤ 1 ∧
    2 ^ (8 - 1) ≤ (128 : BitVec 8).toNat ∧ Width.w8.bits < Width.w64.bits := by decide

theorem witness_SelAndMvalReadTheMask : (small.setM 2 true).getM 2 = true ∧ small.getM 2 = false := by decide

/-- A second source that is 0 at width 8 and not at width 16. -/
theorem witness_IfsetGivesTheOperandOrZero :
    (small.setM 2 true).getM 2 = true ∧ small.getM 2 = false ∧ operandNat (xs [(5, 0x100)]) .w8 5 = 0 := by
  unfold operandNat; decide

/-- `SelnCopiesTheChosenBuffer`: buffers inside the memory, with the destination above the source's end, at its start, and
below it. -/
theorem witness_SelnCopiesTheChosenBuffer :
    (bufEnd selnState .w16 1 4 ≤ selnState.memSize ∧ bufEnd selnState .w16 2 4 ≤ selnState.memSize ∧
      bufEnd selnState .w16 3 4 ≤ selnState.memSize) ∧
    bufEnd selnState .w16 2 4 ≤ bufAddr selnState 1 ∧ bufAddr selnState 1 ≤ bufAddr selnState 1 ∧
    bufAddr selnState 2 ≤ bufAddr selnState 1 := by unfold bufEnd; decide

/-- Three buffers that end where the memory ends, three empty ones there, and one of them a byte too long or too far. -/
theorem witness_SelnTakesElementsInOrder :
    (bufEnd (xs [(1, 252), (2, 252), (3, 0), (4, 2)]) .w16 1 4 ≤ small.memSize ∧
      bufEnd (xs [(1, 252), (2, 252), (3, 0), (4, 2)]) .w16 2 4 ≤ small.memSize ∧
      bufEnd (xs [(1, 252), (2, 252), (3, 0), (4, 2)]) .w16 3 4 ≤ small.memSize) ∧
    (bufEnd (xs [(1, 256), (2, 256), (3, 256)]) .w64 1 4 ≤ small.memSize ∧
      bufEnd (xs [(1, 256), (2, 256), (3, 256)]) .w64 2 4 ≤ small.memSize ∧
      bufEnd (xs [(1, 256), (2, 256), (3, 256)]) .w64 3 4 ≤ small.memSize) ∧
    small.memSize < bufEnd (xs [(1, 253), (4, 2)]) .w16 1 4 ∧ small.memSize < bufEnd (xs [(2, 257)]) .w64 2 4 ∧
    small.memSize < bufEnd (xs [(3, 257)]) .w64 3 4 ∧
    1 < Width.w16.bytes ∧ 15 < bufAddr (xs [(1, 16)]) 1 + 0 * Width.w16.bytes ∧
    bufAddr (xs [(1, 16)]) 1 + (0 + 1) * Width.w16.bytes ≤ 18 := by unfold bufEnd; decide

/-- A buffer that ends where the memory ends, with its last byte, an empty one there, and two past the end. -/
theorem witness_ZoutZeroesWhenTheMaskIsCleared :
    (bufEnd (xs [(1, 252), (4, 2)]) .w16 1 4 ≤ small.memSize ∧
      3 < ((xs [(1, 252), (4, 2)]).getX 4).toNat * (Width.w16.bits / 8)) ∧
    bufEnd (xs [(1, 256)]) .w64 1 4 ≤ small.memSize ∧
    small.memSize < bufEnd (xs [(1, 253), (4, 2)]) .w16 1 4 ∧ small.memSize < bufEnd (xs [(1, 257)]) .w64 1 4 := by
  unfold bufEnd; decide

theorem witness_WmkAndWorWriteBothHalves :
    EvenReg 14 ∧ ¬ EvenReg 15 ∧ (EvenReg 14 ∧ EvenReg 0 ∧ EvenReg 14) ∧
    ¬ (EvenReg 14 ∧ EvenReg 0 ∧ EvenReg 1) := by unfold EvenReg; decide

/-- The amounts 0, 63, 64 and `2^32`. -/
theorem witness_WideShiftsOfLessThan64 :
    (EvenReg 2 ∧ EvenReg 4) ∧ (small.getX 7).toNat < 64 ∧ ((xs [(7, 63)]).getX 7).toNat < 64 ∧
    64 ≤ ((xs [(7, 64)]).getX 7).toNat ∧ 64 ≤ ((xs [(7, 0x100000000)]).getX 7).toNat ∧
    ¬ (EvenReg 2 ∧ EvenReg 5) := by unfold EvenReg; decide

theorem witness_WaddAddsModulo2To128 :
    (EvenReg 2 ∧ EvenReg 4 ∧ EvenReg 6) ∧ ¬ (EvenReg 3 ∧ EvenReg 4 ∧ EvenReg 6) := by unfold EvenReg; decide

theorem witness_WmulGivesTheExactProduct :
    (EvenReg 2 ∧ EvenReg 4) ∧ small.getX (4 + 1) = 0 ∧ (xs [(5, 1)]).getX (4 + 1) ≠ 0 ∧
    ¬ (EvenReg 2 ∧ EvenReg 5) := by unfold EvenReg; decide

theorem witness_WideWindows :
    EvenReg 4 ∧ ¬ EvenReg 5 ∧ (EvenReg 2 ∧ EvenReg 4) ∧ ¬ (EvenReg 2 ∧ EvenReg 5) ∧
    (((xs [(8, 63), (9, 63)]).getX 8).toNat < 64 ∧ ((xs [(8, 63), (9, 63)]).getX 9).toNat < 64) ∧
    64 ≤ ((xs [(8, 64)]).getX 8).toNat ∧ 64 ≤ ((xs [(9, 64)]).getX 9).toNat := by unfold EvenReg; decide

/-- Both vector types where they exist, the one that does not, and `VPACK` at its last register and past it. -/
theorem witness_VectorConstruction :
    (LanesExist small .four ∧ (12 : XReg).toNat + Lanes.four.count ≤ 16) ∧
    (LanesExist .reset .eight ∧ (8 : XReg).toNat + Lanes.eight.count ≤ 16) ∧
    ¬ LanesExist small .eight ∧ 16 < (13 : XReg).toNat + Lanes.four.count ∧
    16 < (9 : XReg).toNat + Lanes.eight.count := by unfold LanesExist; decide

/-- A vector that ends where the memory ends, one a byte too far, with `MEMSIZE = 2^64` too, where the sum must not
wrap, and the type that does not exist. -/
theorem witness_VectorLoads :
    (LanesExist small .four ∧ vecEnd (xs [(2, 240)]) .four 0 2 ≤ small.memSize) ∧
    small.memSize < vecEnd (xs [(2, 240)]) .four 1 2 ∧
    (LanesExist .reset .eight ∧ vecEnd (State.reset.setX 2 (-32)) .eight 0 2 ≤ State.reset.memSize) ∧
    State.reset.memSize < vecEnd (State.reset.setX 2 (-32)) .eight 1 2 ∧ ¬ LanesExist small .eight := by
  unfold LanesExist vecEnd; decide

theorem witness_VectorStores :
    (LanesExist small .four ∧ vecEnd small .four 240 2 ≤ small.memSize) ∧
    small.memSize < vecEnd small .four 241 2 ∧ ¬ LanesExist small .eight := by unfold LanesExist vecEnd; decide

/-- Two places that overlap, both inside the memory. -/
theorem witness_VectorRoundTrips :
    LanesExist small .four ∧ vecEnd (xs [(2, 240)]) .four 0 2 ≤ small.memSize ∧
    vecEnd (xs [(2, 240)]) .four 239 3 ≤ small.memSize := by unfold LanesExist vecEnd; decide

theorem witness_VectorRotatesAndByteSwap :
    LanesExist small .four ∧ LanesExist .reset .eight ∧ (1 : BitVec 5) ≠ 0 ∧ (31 : BitVec 5) ≠ 0 ∧
    ¬ LanesExist small .eight ∧ (0 : BitVec 5) = 0 := by unfold LanesExist; decide

/-- `VectorAddAndSubtract`, `VectorLogic`: the vector types. -/
theorem witness_VectorAddAndSubtract :
    LanesExist small .four ∧ LanesExist .reset .four ∧ LanesExist .reset .eight ∧ ¬ LanesExist small .eight := by
  unfold LanesExist; decide

theorem witness_VectorLogic :
    LanesExist small .four ∧ LanesExist .reset .eight ∧ ¬ LanesExist small .eight := by unfold LanesExist; decide

theorem witness_VectorShifts :
    LanesExist small .four ∧ (1 : BitVec 5) ≠ 0 ∧ (31 : BitVec 5) ≠ 0 ∧ ¬ LanesExist small .eight ∧
    (0 : BitVec 5) = 0 := by unfold LanesExist; decide

theorem witness_Vtrn4Transposes :
    ([0, 1, 2, 3] : List VReg).Nodup ∧ ([7, 0, 4, 3] : List VReg).Nodup ∧ ¬ ([0, 1, 2, 0] : List VReg).Nodup := by
  decide

theorem witness_Vtrn8Transposes :
    (State.reset.hasV8 = true ∧ ([7, 6, 5, 4, 3, 2, 1, 0] : List VReg).Nodup) ∧
    ¬ (small.hasV8 = true ∧ ([7, 6, 5, 4, 3, 2, 1, 0] : List VReg).Nodup) ∧
    ¬ (State.reset.hasV8 = true ∧ ([7, 6, 5, 4, 3, 2, 1, 7] : List VReg).Nodup) := by decide

/-- `TransposeTwiceIsIdentity`: two steps of the same transpose. -/
theorem witness_TransposeTwiceIsIdentity :
    (Instr.vtrn4 0 1 2 3).WellFormed grid4.hasV8 ∧
    exec (.vtrn4 0 1 2 3) grid4 = .next (transpose .four [0, 1, 2, 3] grid4) ∧
    exec (.vtrn4 0 1 2 3) (transpose .four [0, 1, 2, 3] grid4) =
      .next (transpose .four [0, 1, 2, 3] (transpose .four [0, 1, 2, 3] grid4)) :=
  ⟨by decide,
    whenLegal_pos (show (Instr.vtrn4 0 1 2 3).WellFormed grid4.hasV8 by decide) _,
    whenLegal_pos (show (Instr.vtrn4 0 1 2 3).WellFormed (transpose .four [0, 1, 2, 3] grid4).hasV8 by decide) _⟩

theorem witness_VandcAndVrho :
    LanesExist small .four ∧ ((1 : BitVec 5) ≠ 0 ∧ (31 : BitVec 5) ≠ 0 ∧ (31 : BitVec 5) ≠ 0) ∧
    ¬ LanesExist small .eight ∧ ((2 : BitVec 5) = 0 ∨ (13 : BitVec 5) = 0 ∨ (0 : BitVec 5) = 0) := by
  unfold LanesExist; decide

/-- `LaneLaws`: the smallest and the largest amount. -/
theorem witness_LaneLaws : (1 ≤ 1 ∧ 1 ≤ 31) ∧ (1 ≤ 31 ∧ 31 ≤ 31) := by decide

/-- `EightLanesExtendFour`: a computing command, a load and a `VPACK` at their last legal operand, and a store. -/
theorem witness_EightLanesExtendFour :
    (fourLaneForm (Instr.vnot .eight 1 2) = some (.vnot .four 1 2) ∧
      (Instr.vnot .eight 1 2).WellFormed State.reset.hasV8 ∧ ¬ addrViolation .reset (.vnot .eight 1 2)) ∧
    (fourLaneForm (Instr.vldle .eight 0 0 2) = some (.vldle .four 0 0 2) ∧
      (Instr.vldle .eight 0 0 2).WellFormed (State.reset.setX 2 (-32)).hasV8 ∧
      ¬ addrViolation (State.reset.setX 2 (-32)) (.vldle .eight 0 0 2)) ∧
    (Instr.vpack .eight 0 8).WellFormed State.reset.hasV8 ∧
    (State.reset.hasV8 = true ∧ vecEnd (State.reset.setX 2 (-32)) .eight 0 2 ≤ State.reset.memSize) := by
  simp only [addrViolation, vecEnd]; decide

/-- `VectorCommandLaws`: both vector types, and amounts and registers that meet each clause. -/
theorem witness_VectorCommandLaws :
    LanesExist small .four ∧ LanesExist .reset .eight ∧ (2 : VReg) ≠ 1 ∧
    ((1 : BitVec 5).toNat + (31 : BitVec 5).toNat = 32 ∧ (31 : BitVec 5).toNat + (1 : BitVec 5).toNat = 32 ∧
      (2 : VReg) ≠ 0 ∧ (2 : VReg) ≠ 3) ∧
    ((1 : BitVec 5) ≠ 0 ∧ (31 : BitVec 5) ≠ 0 ∧ (13 : BitVec 5) ≠ 0 ∧
      (2 : VReg) ≠ 0 ∧ (3 : VReg) ≠ 0 ∧ (2 : VReg) ≠ 3 ∧ (2 : VReg) ≠ 4 ∧ (3 : VReg) ≠ 4) := by
  unfold LanesExist; decide

/-- `AccessPatternIndependentOfData`: two states that differ in the mask and in the bytes, with one trace. -/
theorem witness_AccessPatternIndependentOfData :
    selnState.hasV8 = (xs [(1, 16), (2, 0), (3, 8), (4, 2)]).hasV8 ∧
    (selnState.setM 2 true).memSize = (xs [(1, 16), (2, 0), (3, 8), (4, 2)]).memSize ∧
    addressInputs (.seln .w16 2 1 2 3 4) (selnState.setM 2 true) =
      addressInputs (.seln .w16 2 1 2 3 4) (xs [(1, 16), (2, 0), (3, 8), (4, 2)]) ∧
    accessTrace (.seln .w16 2 1 2 3 4) (selnState.setM 2 true) =
      [.read 0 2, .read 8 2, .write 16 2, .read 2 2, .read 10 2, .write 18 2] := by decide

/-- `AccessTraceShowsEveryWrite`: a command that changes a byte. -/
theorem witness_AccessTraceShowsEveryWrite :
    gives (exec (.vstle .four 1 80 2) (lanes4 1 1 0 0 0 small))
      (fun t => memGet t.mem 80 != memGet (lanes4 1 1 0 0 0 small).mem 80) = true := by decide

end Sys2Proof.Tests
end

section
/-!
The register port (10_state.md section 7). First the rules: which storage an index names, what a read returns there and
what the step of a host write there does, and the frame of each register update. Then the statements settled from them.
-/

namespace Sys2Proof.Machine

/-! ### What a register update leaves unchanged -/

theorem onlyX_setX (s : State) (r : XReg) (w : Word) : OnlyX [r] s (s.setX r w) := by
  have others : SameX [r] s (s.setX r w) := fun q hq => getX_setX_other s w (by simpa using hq)
  exact ⟨others, fun _ _ => rfl, fun _ _ _ => rfl, fun _ _ => rfl, ⟨rfl, rfl⟩, rfl, rfl, rfl, rfl⟩

theorem onlyM_setM (s : State) (r : MReg) (b : Bool) : OnlyM r s (s.setM r b) := by
  have others : SameM [r] s (s.setM r b) := fun q hq => by
    rw [getM_setM, if_neg (by simpa using hq)]
  exact ⟨fun _ _ => rfl, others, fun _ _ _ => rfl, fun _ _ => rfl, ⟨rfl, rfl⟩, rfl, rfl, rfl, rfl⟩

@[simp] theorem getLane_setLane_same (s : State) (r : VReg) (k : Fin 8) (u : Lane) :
    (s.setLane r k u).getLane r k = u := by simp [getLane_setLane]

theorem getLane_setLane_other (s : State) {r q : VReg} {k j : Fin 8} (u : Lane) (h : q ≠ r ∨ j ≠ k) :
    (s.setLane r k u).getLane q j = s.getLane q j := by
  rw [getLane_setLane, if_neg (by tauto)]

theorem onlyV_setLane (s : State) (r : VReg) (k : Fin 8) (u : Lane) : OnlyV [r] .eight s (s.setLane r k u) := by
  have others : SameV [r] Lanes.eight.count s (s.setLane r k u) := by
    intro q j h
    rcases h with hq | hj
    · exact getLane_setLane_other s u (.inl (by simpa using hq))
    · exact absurd j.isLt (Nat.not_lt.2 hj)
  exact ⟨fun _ _ => rfl, fun _ _ => rfl, others, fun _ _ => rfl, ⟨rfl, rfl⟩, rfl, rfl, rfl, rfl⟩

/-! ### What an index of the port names -/

theorem portReg_x (r : XReg) : portReg (BitVec.ofNat 12 r.toNat) = .x r := by
  have hr := r.isLt
  have index : (BitVec.ofNat 12 r.toNat).toNat = r.toNat := by
    rw [BitVec.toNat_ofNat]; omega
  rw [portReg, index, if_pos hr, BitVec.ofNat_toNat, BitVec.setWidth_eq]

theorem portReg_m (r : MReg) : portReg (BitVec.ofNat 12 (0x10 + r.toNat)) = .m r := by
  have hr := r.isLt
  have index : (BitVec.ofNat 12 (0x10 + r.toNat)).toNat = 0x10 + r.toNat := by
    rw [BitVec.toNat_ofNat]; omega
  rw [portReg, index, if_neg (by omega), if_pos (by omega), Nat.add_sub_cancel_left, BitVec.ofNat_toNat,
    BitVec.setWidth_eq]

/-- The index of a lane holds the register in bits 5:3 and the lane in bits 2:0. -/
theorem portReg_lane (r : VReg) (k : Fin 8) :
    portReg (BitVec.ofNat 12 (0x40 + 8 * r.toNat + k.val)) = .lane r k := by
  have hr := r.isLt
  have hk := k.isLt
  have index : (BitVec.ofNat 12 (0x40 + 8 * r.toNat + k.val)).toNat = 0x40 + 8 * r.toNat + k.val := by
    rw [BitVec.toNat_ofNat]; omega
  have register : (0x40 + 8 * r.toNat + k.val - 0x40) / 8 = r.toNat := by omega
  have lane : (0x40 + 8 * r.toNat + k.val - 0x40) % 8 = k.val := by omega
  rw [portReg, index, if_neg (by omega), if_neg (by omega), if_pos (by omega), register, lane, BitVec.ofNat_toNat,
    BitVec.setWidth_eq, Fin.ofNat_val_eq_self]

theorem portReg_cap : portReg 0x100 = .cap := by decide

theorem portReg_memsz : portReg 0x103 = .memsz := by decide

/-- An index that section 7 does not list lies in none of the map's ranges and is none of its five single indices. -/
theorem portReg_of_reservedIndex {ra : BitVec 12} (h : ReservedIndex ra) : portReg ra = .reserved := by
  unfold ReservedIndex at h
  have not_single : ∀ c : BitVec 12, 0x100 ≤ c.toNat → c.toNat < 0x105 → ra ≠ c := by
    rintro c hlo hhi rfl
    omega
  rw [portReg, if_neg (by omega), if_neg (by omega), if_neg (by omega)]
  simp [not_single]

/-! ### Which lanes exist at the port -/

theorem laneExists_iff (s : State) (k : Fin 8) : laneExists s k = true ↔ k.val < 4 ∨ s.hasV8 = true := by
  simp [laneExists, or_comm]

theorem laneExists_eq_false {s : State} {k : Fin 8} (h4 : 4 ≤ k.val) (hv8 : s.hasV8 = false) :
    laneExists s k = false := by
  rw [laneExists, hv8, Bool.false_or, decide_eq_false (Nat.not_lt.2 h4)]

/-! ### What a read returns -/

section Read
variable (s : State) {ra : BitVec 12}

theorem regRead_of_x {r : XReg} (h : portReg ra = .x r) : regRead s ra = s.getX r := by
  rw [regRead, h]

theorem regRead_toNat_of_m {r : MReg} (h : portReg ra = .m r) :
    (regRead s ra).toNat = if s.getM r then 1 else 0 := by
  rw [regRead, h]
  cases hm : s.getM r <;> simp [hm]

theorem regRead_toNat_of_lane {r : VReg} {k : Fin 8} (h : portReg ra = .lane r k) (hk : laneExists s k = true) :
    (regRead s ra).toNat = (s.getLane r k).toNat := by
  rw [regRead, h]
  simp only [hk, if_true]
  exact BitVec.toNat_setWidth_of_le (by decide)

theorem regRead_of_absentLane {r : VReg} {k : Fin 8} (h : portReg ra = .lane r k) (hk : laneExists s k = false) :
    regRead s ra = 0 := by
  rw [regRead, h]
  simp [hk]

theorem regRead_of_reserved (h : portReg ra = .reserved) : regRead s ra = 0 := by
  rw [regRead, h]

end Read

theorem regRead_cap (s : State) : regRead s 0x100 = if s.hasV8 then 0x13F else 0x13D := by
  have word : regRead s 0x100 = capWord s := by rw [regRead, portReg_cap]
  rw [word, capWord]
  cases s.hasV8 <;> rfl

theorem regRead_memsz (s : State) : regRead s 0x103 = BitVec.ofNat 64 s.memSize := by
  rw [regRead, portReg_memsz, memszWord]

/-! ### What the step of a register write does -/

section Write
variable {s : State} {ra : BitVec 12} {data : Word} {rest : List HostTxn}

/-- A write at any index but that of `CMD` stores in one step, whatever `STATUS.ERR` is (R242). -/
theorem step_eq_regStore (hw : AboutToWrite s ra data rest) (h : portReg ra ≠ .cmd) :
    step s = .next (regStore ra data (s.afterWrite rest)) := by
  have not_cmd : ra ≠ cmdIndex := fun e => h (e ▸ portReg_cmdIndex)
  rw [step_cons hw]
  exact if_neg not_cmd

theorem step_write_x {r : XReg} (hw : AboutToWrite s ra data rest) (h : portReg ra = .x r) :
    step s = .next ((s.afterWrite rest).setX r data) := by
  rw [step_eq_regStore hw (by simp [h]), regStore, h]

theorem step_write_m {r : MReg} (hw : AboutToWrite s ra data rest) (h : portReg ra = .m r) :
    step s = .next ((s.afterWrite rest).setM r (data.getLsbD 0)) := by
  rw [step_eq_regStore hw (by simp [h]), regStore, h]

theorem step_write_lane {r : VReg} {k : Fin 8} (hw : AboutToWrite s ra data rest) (h : portReg ra = .lane r k)
    (hk : laneExists s k = true) : step s = .next ((s.afterWrite rest).setLane r k (data.setWidth 32)) := by
  have hk' : laneExists (s.afterWrite rest) k = true := hk
  rw [step_eq_regStore hw (by simp [h]), regStore, h]
  simp only [hk', if_true]

theorem step_write_absentLane {r : VReg} {k : Fin 8} (hw : AboutToWrite s ra data rest)
    (h : portReg ra = .lane r k) (hk : laneExists s k = false) : step s = .next (s.afterWrite rest) := by
  have hk' : laneExists (s.afterWrite rest) k = false := hk
  rw [step_eq_regStore hw (by simp [h]), regStore, h]
  simp [hk']

/-- The indices that ignore every write (R27, R29, R30, R32). -/
theorem step_write_ignored (hw : AboutToWrite s ra data rest)
    (h : portReg ra = .cap ∨ portReg ra = .errcmd ∨ portReg ra = .memsz ∨ portReg ra = .reserved) :
    step s = .next (s.afterWrite rest) := by
  rcases h with h | h | h | h <;> rw [step_eq_regStore hw (by simp [h]), regStore, h]

end Write

/-! ### The statements -/

/-- Settles O9: the map resolves each index, and the read and the write rule of what it names then apply. -/
theorem portAccessesRegisterFiles : Obligations.PortAccessesRegisterFiles := by
  refine ⟨fun s r data rest => ?scalar, fun s r data rest => ?mask, fun s r k data rest => ⟨fun hk => ?lane,
    fun h4 hv8 => ?absentLane⟩⟩
  case scalar =>
    exact ⟨regRead_of_x s (portReg_x r),
      fun hw => ⟨_, step_write_x hw (portReg_x r), getX_setX_same .., onlyX_setX ..⟩⟩
  case mask =>
    exact ⟨regRead_toNat_of_m s (portReg_m r),
      fun hw => ⟨_, step_write_m hw (portReg_m r), getM_setM_same .., onlyM_setM ..⟩⟩
  case lane =>
    have present : laneExists s k = true := (laneExists_iff s k).2 hk
    refine ⟨regRead_toNat_of_lane s (portReg_lane r k) present, fun hw =>
      ⟨_, step_write_lane hw (portReg_lane r k) present, ?_, fun _ _ => getLane_setLane_other _ _, onlyV_setLane ..⟩⟩
    rw [getLane_setLane_same, BitVec.toNat_setWidth]
  case absentLane =>
    have absent : laneExists s k = false := laneExists_eq_false h4 hv8
    exact ⟨regRead_of_absentLane s (portReg_lane r k) absent,
      fun hw => step_write_absentLane hw (portReg_lane r k) absent⟩

/-- Settles O10. At `MEMSIZE = 2^64` the 64 bits of `MEMSZ` wrap to 0. -/
theorem constantAndReservedIndices : Obligations.ConstantAndReservedIndices := by
  intro s
  refine ⟨regRead_cap s, fun hlt => ?_, fun heq => ?_,
    fun ra h => regRead_of_reserved s (portReg_of_reservedIndex h), fun ra data rest hw h => ?_⟩
  · rw [regRead_memsz, BitVec.toNat_ofNat, Nat.mod_eq_of_lt hlt]
  · rw [regRead_memsz, heq]; rfl
  · rcases h with rfl | rfl | h
    · exact step_write_ignored hw (.inl portReg_cap)
    · exact step_write_ignored hw (.inr (.inr (.inl portReg_memsz)))
    · exact step_write_ignored hw (.inr (.inr (.inr (portReg_of_reservedIndex h))))

end Sys2Proof.Machine
end

section
/-!
The decoder against the opcode table (30_encoding.md R83, R87). A masked comparison of words is read field by field in
each format; each row of the table then admits, among the words of its opcode, exactly those the decoder accepts.
-/

namespace Sys2Proof

/-! ### Words and their fields -/

/-- Fields, each a low bit and a length, that leave no bit of the word out determine it. -/
theorem word_eq_of_fields (fields : List (Nat × Nat))
    (cover : ∀ i < 32, ∃ f ∈ fields, f.1 ≤ i ∧ i < f.1 + f.2) {c d : CmdWord}
    (same : ∀ f ∈ fields, c.extractLsb' f.1 f.2 = d.extractLsb' f.1 f.2) : c = d := by
  apply BitVec.eq_of_getLsbD_eq
  intro i hi
  obtain ⟨f, hf, lo, hi⟩ := cover i hi
  have bit := congrArg (fun b => b.getLsbD (i - f.1)) (same f hf)
  have inside : i - f.1 < f.2 := by omega
  simpa [BitVec.getLsbD_extractLsb', inside, Nat.add_sub_cancel' lo] using bit

theorem masked_eq_iff_fields (fields : List (Nat × Nat))
    (cover : ∀ i < 32, ∃ f ∈ fields, f.1 ≤ i ∧ i < f.1 + f.2) (c mask value : CmdWord) :
    c &&& mask = value ↔
      ∀ f ∈ fields, c.extractLsb' f.1 f.2 &&& mask.extractLsb' f.1 f.2 = value.extractLsb' f.1 f.2 := by
  simp only [← BitVec.extractLsb'_and]
  exact ⟨fun h f _ => by rw [h], word_eq_of_fields fields cover⟩

theorem and_of_eq_allOnes {n : Nat} (x : BitVec n) {m : BitVec n} (h : m = BitVec.allOnes n) : x &&& m = x := by
  rw [h, BitVec.and_allOnes]

section Formats
variable (c m v : CmdWord)

/-- Format S (R71). -/
theorem masked_eq_iff_S : c &&& m = v ↔
    fldOp c &&& m.extractLsb' 24 8 = v.extractLsb' 24 8 ∧ fldW c &&& m.extractLsb' 22 2 = v.extractLsb' 22 2 ∧
    fldZ c &&& m.extractLsb' 20 2 = v.extractLsb' 20 2 ∧ fldA c &&& m.extractLsb' 16 4 = v.extractLsb' 16 4 ∧
    fldB c &&& m.extractLsb' 12 4 = v.extractLsb' 12 4 ∧ fldC c &&& m.extractLsb' 8 4 = v.extractLsb' 8 4 ∧
    fldD c &&& m.extractLsb' 4 4 = v.extractLsb' 4 4 ∧ fldE c &&& m.extractLsb' 0 4 = v.extractLsb' 0 4 := by
  simpa [fldOp, fldW, fldZ, fldA, fldB, fldC, fldD, fldE] using
    masked_eq_iff_fields [(24, 8), (22, 2), (20, 2), (16, 4), (12, 4), (8, 4), (4, 4), (0, 4)] (by decide) c m v

/-- Format V (R74). -/
theorem masked_eq_iff_V : c &&& m = v ↔
    fldOp c &&& m.extractLsb' 24 8 = v.extractLsb' 24 8 ∧ fldL c &&& m.extractLsb' 23 1 = v.extractLsb' 23 1 ∧
    fldVd c &&& m.extractLsb' 20 3 = v.extractLsb' 20 3 ∧ fldVs1 c &&& m.extractLsb' 17 3 = v.extractLsb' 17 3 ∧
    fldVs2 c &&& m.extractLsb' 14 3 = v.extractLsb' 14 3 ∧ fldZV c &&& m.extractLsb' 5 9 = v.extractLsb' 5 9 ∧
    fldImm5 c &&& m.extractLsb' 0 5 = v.extractLsb' 0 5 := by
  simpa [fldOp, fldL, fldVd, fldVs1, fldVs2, fldZV, fldImm5] using
    masked_eq_iff_fields [(24, 8), (23, 1), (20, 3), (17, 3), (14, 3), (5, 9), (0, 5)] (by decide) c m v

/-- Format VS (R76). -/
theorem masked_eq_iff_VS : c &&& m = v ↔
    fldOp c &&& m.extractLsb' 24 8 = v.extractLsb' 24 8 ∧ fldL c &&& m.extractLsb' 23 1 = v.extractLsb' 23 1 ∧
    fldVd c &&& m.extractLsb' 20 3 = v.extractLsb' 20 3 ∧ fldA c &&& m.extractLsb' 16 4 = v.extractLsb' 16 4 ∧
    fldB c &&& m.extractLsb' 12 4 = v.extractLsb' 12 4 ∧
    fldImm12 c &&& m.extractLsb' 0 12 = v.extractLsb' 0 12 := by
  simpa [fldOp, fldL, fldVd, fldA, fldB, fldImm12] using
    masked_eq_iff_fields [(24, 8), (23, 1), (20, 3), (16, 4), (12, 4), (0, 12)] (by decide) c m v

/-- Format VR (R77). -/
theorem masked_eq_iff_VR : c &&& m = v ↔
    fldOp c &&& m.extractLsb' 24 8 = v.extractLsb' 24 8 ∧ fldL c &&& m.extractLsb' 23 1 = v.extractLsb' 23 1 ∧
    fldVd c &&& m.extractLsb' 20 3 = v.extractLsb' 20 3 ∧ fldVs1 c &&& m.extractLsb' 17 3 = v.extractLsb' 17 3 ∧
    fldZR c &&& m.extractLsb' 15 2 = v.extractLsb' 15 2 ∧ fldR1 c &&& m.extractLsb' 10 5 = v.extractLsb' 10 5 ∧
    fldR2 c &&& m.extractLsb' 5 5 = v.extractLsb' 5 5 ∧ fldImm5 c &&& m.extractLsb' 0 5 = v.extractLsb' 0 5 := by
  simpa [fldOp, fldL, fldVd, fldVs1, fldZR, fldR1, fldR2, fldImm5] using
    masked_eq_iff_fields [(24, 8), (23, 1), (20, 3), (17, 3), (15, 2), (10, 5), (5, 5), (0, 5)] (by decide) c m v

/-- Format VT4 (R78). -/
theorem masked_eq_iff_VT4 : c &&& m = v ↔
    fldOp c &&& m.extractLsb' 24 8 = v.extractLsb' 24 8 ∧ fldL c &&& m.extractLsb' 23 1 = v.extractLsb' 23 1 ∧
    fldVd c &&& m.extractLsb' 20 3 = v.extractLsb' 20 3 ∧ fldVs1 c &&& m.extractLsb' 17 3 = v.extractLsb' 17 3 ∧
    fldVs2 c &&& m.extractLsb' 14 3 = v.extractLsb' 14 3 ∧ fldT4 c &&& m.extractLsb' 11 3 = v.extractLsb' 11 3 ∧
    fldZ4 c &&& m.extractLsb' 0 11 = v.extractLsb' 0 11 := by
  simpa [fldOp, fldL, fldVd, fldVs1, fldVs2, fldT4, fldZ4] using
    masked_eq_iff_fields [(24, 8), (23, 1), (20, 3), (17, 3), (14, 3), (11, 3), (0, 11)] (by decide) c m v

end Formats

/-! ### When a check of R83 passes -/

theorem evenCheck_eq_none (rs : List XReg) : evenCheck rs = none ↔ ∀ r ∈ rs, r &&& 1#4 = 0 := by
  have even_iff : ∀ r : XReg, r[0] = false ↔ r &&& 1#4 = 0#4 := by decide
  simp [evenCheck, even_iff]

theorem amountCheck_eq_none (ns : List (BitVec 5)) : amountCheck ns = none ↔ ns.all (fun n => n != 0) = true := by
  simp only [amountCheck, ite_eq_left_iff, reduceCtorEq, imp_false, not_not]

theorem differentCheck_eq_none (rs : List VReg) : differentCheck rs = none ↔ allDifferent rs = true := by
  simp [differentCheck]

theorem lanesOf_eq (c : CmdWord) : lanesOf c = if c.getLsbD 23 then .eight else .four := by
  have bit : (fldL c).getLsbD 0 = c.getLsbD 23 := by simp [fldL]
  have ofBit_eq : ∀ b : BitVec 1, Lanes.ofBit b = if b.getLsbD 0 then .eight else .four := by decide
  rw [lanesOf, ofBit_eq, bit]

theorem lanesCheck_lanesOf_eq_none (hasV8 : Bool) (c : CmdWord) :
    lanesCheck hasV8 (lanesOf c) = none ↔ hasV8 = true ∨ c.getLsbD 23 = false := by
  rw [lanesOf_eq]
  cases c.getLsbD 23 <;> simp [lanesCheck]

theorem packCheck_lanesOf_eq_none (c : CmdWord) (rs1 : XReg) :
    packCheck (lanesOf c) rs1 = none ↔ rs1.toNat + (if c.getLsbD 23 then 8 else 4) ≤ 16 := by
  rw [lanesOf_eq]
  cases c.getLsbD 23 <;> simp [packCheck, Lanes.count]

/-! ### What the decoder accepts -/

section Decode
variable {hasV8 : Bool} {c : CmdWord} {i : Instr}

theorem checkLegal_eq_ok_iff {j : Instr} : checkLegal hasV8 j = .ok i ↔ j = i ∧ i.WellFormed hasV8 := by
  unfold checkLegal
  split
  next legal => exact ⟨by rintro ⟨⟩; exact ⟨rfl, legal⟩, by rintro ⟨rfl, -⟩; rfl⟩
  next illegal => exact ⟨by rintro ⟨⟩, by rintro ⟨rfl, legal⟩; cases illegal.symm.trans legal⟩

theorem decode_eq_ok_iff : decode hasV8 c = .ok i ↔ decodeFields c = .ok i ∧ i.WellFormed hasV8 := by
  unfold decode
  cases decodeFields c with
  | error r => simp
  | ok j => simp [checkLegal_eq_ok_iff]

theorem exists_decode_of_ok (h : decodeFields c = .ok i) :
    (∃ j, decode hasV8 c = .ok j) ↔ i.illegality hasV8 = none := by
  simp [decode_eq_ok_iff, h]

theorem exists_decode_of_whenZero {z : Bool} (h : decodeFields c = whenZero z i) :
    (∃ j, decode hasV8 c = .ok j) ↔ z = true ∧ i.illegality hasV8 = none := by
  cases z
  · simp [decode_eq_ok_iff, h, whenZero]
  · simpa using exists_decode_of_ok h

/-- The decoder splits only words of the table's 54 opcodes (R83 item 1). -/
theorem exists_row_of_decodeFields (h : decodeFields c = .ok i) :
    ∃ row ∈ opcodeTable, fldOp c = row.value.extractLsb' 24 8 := by
  have known : (fldOp c).toNat ∈ opcodeTable.map fun row => (row.value.extractLsb' 24 8).toNat := by
    unfold decodeFields at h
    split at h
    case h_55 => cases h
    all_goals
      rw [‹(fldOp c).toNat = _›]
      decide
  obtain ⟨row, mem, op⟩ := List.mem_map.1 known
  exact ⟨row, mem, BitVec.eq_of_toNat_eq op.symm⟩

end Decode

/-! ### The rows of the table -/

/-- Among the words of the row's opcode, the decoder accepts exactly those the row admits. -/
def RowAgrees (row : OpcodeRow) : Prop :=
  ∀ (hasV8 : Bool) (c : CmdWord), fldOp c = row.value.extractLsb' 24 8 →
    ((∃ i, decode hasV8 c = .ok i) ↔ row.admits hasV8 c = true)

theorem admits_plainRow (name : String) (value mask : CmdWord) (hasV8 : Bool) (c : CmdWord) :
    (plainRow name value mask).admits hasV8 c = true ↔ c &&& mask = value := by
  simp [plainRow, OpcodeRow.admits, allDifferent]

/-- Every row's mask holds the whole opcode. -/
theorem fldOp_of_admits {row : OpcodeRow} (mem : row ∈ opcodeTable) {hasV8 : Bool} {c : CmdWord}
    (h : row.admits hasV8 c = true) : fldOp c = row.value.extractLsb' 24 8 := by
  have covered : ∀ r ∈ opcodeTable, r.mask.extractLsb' 24 8 = BitVec.allOnes 8 := by decide
  simp only [OpcodeRow.admits, Bool.and_eq_true, beq_iff_eq] at h
  obtain ⟨⟨⟨⟨masked, -⟩, -⟩, -⟩, -⟩ := h
  rw [← masked, BitVec.extractLsb'_and, covered row mem, BitVec.and_allOnes, fldOp]

/-- The rows of format S. A row's mask holds the zero bits of the word and bit 0 of each wide register field (R82). -/
theorem formatSRows_agree : ∀ row ∈ bitOpsRows ++ maskRows ++ wideRows, RowAgrees row := by
  intro row mem
  fin_cases mem
  all_goals
    intro hasV8 c op
    rw [admits_plainRow, exists_decode_of_whenZero (by rw [decodeFields, op]; rfl)]
    simp [masked_eq_iff_S, and_of_eq_allOnes, op, plainRow, Instr.illegality, evenCheck_eq_none, and_assoc, and_comm,
      and_left_comm]

/-- The one opcode whose split has a branch of its own: `L = 1` is refused (R83 item 5). -/
theorem vtrn4_agrees : RowAgrees ⟨"VTRN4", 0x73000000, 0xFF8007FF, .never, [], [20, 17, 14, 11], false⟩ := by
  intro hasV8 c op
  have fields : decodeFields c = if fldL c != 0 then .error .transpose4EightLanes
      else whenZero (fldZ4 c == 0) (.vtrn4 (fldVd c) (fldVs1 c) (fldVs2 c) (fldT4 c)) := by
    rw [decodeFields, op]; rfl
  by_cases four : fldL c = 0#1
  · rw [exists_decode_of_whenZero (fields.trans (if_neg (by simp [four])))]
    simp [masked_eq_iff_VT4, and_of_eq_allOnes, op, OpcodeRow.admits, Instr.illegality, differentCheck_eq_none, four,
      fldVd, fldVs1, fldVs2, fldT4]
  · have refused : decodeFields c = .error .transpose4EightLanes := fields.trans (if_pos (by simpa using four))
    simp [decode_eq_ok_iff, refused, masked_eq_iff_VT4, and_of_eq_allOnes, OpcodeRow.admits, four]

/-- By format, the rows in the table's order. -/
theorem simdRows_agree : ∀ row ∈ simdRows, RowAgrees row := by
  simp only [simdRows, List.forall_mem_cons]
  refine ⟨?vzero, ?vpack, ?vsplat, ?vldle, ?vldbe, ?vstle, ?vstbe, ?vrotl, ?vrotr, ?vadd, ?vsub, ?vxor, ?vor, ?vand,
    ?vnot, ?vandc, ?vshl, ?vshr, ?vbswap, vtrn4_agrees, ?vtrn8, ?vrho, List.forall_mem_nil _⟩
  -- format VS
  case vpack | vsplat | vldle | vldbe | vstle | vstbe =>
    intro hasV8 c op
    rw [exists_decode_of_whenZero (by rw [decodeFields, op]; rfl)]
    simp [masked_eq_iff_VS, and_of_eq_allOnes, op, OpcodeRow.admits, Instr.illegality, lanesCheck_lanesOf_eq_none,
      packCheck_lanesOf_eq_none, allDifferent, fldA, and_assoc]
  -- format VT8, which has no unused bit
  case vtrn8 =>
    intro hasV8 c op
    rw [exists_decode_of_ok (by rw [decodeFields, op]; rfl)]
    simp [masked_eq_iff_V, and_of_eq_allOnes, op, OpcodeRow.admits, Instr.illegality, lanesCheck,
      differentCheck_eq_none, fldT8]
  -- format VR
  case vrho =>
    intro hasV8 c op
    rw [exists_decode_of_whenZero (by rw [decodeFields, op]; rfl)]
    simp [masked_eq_iff_VR, and_of_eq_allOnes, op, OpcodeRow.admits, Instr.illegality, lanesCheck_lanesOf_eq_none,
      amountCheck_eq_none, allDifferent, fldR1, fldR2, fldImm5, and_assoc]
  -- format V
  all_goals
    intro hasV8 c op
    rw [exists_decode_of_whenZero (by rw [decodeFields, op]; rfl)]
    simp [masked_eq_iff_V, and_of_eq_allOnes, op, OpcodeRow.admits, Instr.illegality, lanesCheck_lanesOf_eq_none,
      amountCheck_eq_none, allDifferent, fldImm5, and_assoc]

theorem rowAgrees_of_mem {row : OpcodeRow} (mem : row ∈ opcodeTable) : RowAgrees row := by
  rcases List.mem_append.1 mem with formatS | simd
  · exact formatSRows_agree row formatS
  · exact simdRows_agree row simd

theorem exists_decode_iff_legalWord (hasV8 : Bool) (c : CmdWord) :
    (∃ i, decode hasV8 c = .ok i) ↔ legalWord hasV8 c = true := by
  rw [legalWord, List.any_eq_true]
  constructor
  · rintro ⟨i, accepted⟩
    obtain ⟨row, mem, op⟩ := exists_row_of_decodeFields (decode_eq_ok_iff.1 accepted).1
    exact ⟨row, mem, (rowAgrees_of_mem mem hasV8 c op).1 ⟨i, accepted⟩⟩
  · rintro ⟨row, mem, admits⟩
    exact (rowAgrees_of_mem mem hasV8 c (fldOp_of_admits mem admits)).2 admits

end Sys2Proof
end

section
/-!
Issuing a word (60_exceptions.md R233, R239, R240): how a legal command may leave `STATUS`, what the step of a `CMD`
write does with a legal and with an illegal word, and the statement settled from them.
-/

namespace Sys2Proof.Machine

/-! ### How a legal command leaves STATUS -/

/-- The command gives a next state, with `STATUS` as it was or with an error other than `IllegalCommand`. -/
def EndsLegally (s : State) (r : Result) : Prop :=
  ∃ t, r = .next t ∧ (t.status = s.status ∨ ∃ k ≠ ErrorKind.illegalCommand, t.status = ⟨true, k.code⟩)

section EndsLegally
variable {s : State} {i : Instr} {body : Result}

theorem EndsLegally.next {t : State} (h : t.status = s.status) : EndsLegally s (.next t) := ⟨t, rfl, .inl h⟩

theorem EndsLegally.raise {k : ErrorKind} (hk : k ≠ .illegalCommand) : EndsLegally s (raise k i s) :=
  ⟨_, rfl, .inr ⟨k, hk, rfl⟩⟩

theorem EndsLegally.whenLegal (legal : i.WellFormed s.hasV8) (h : EndsLegally s body) :
    EndsLegally s (whenLegal i s body) := by
  rwa [whenLegal_pos legal]

theorem EndsLegally.whenArgs {ok : Bool} (h : EndsLegally s body) : EndsLegally s (whenArgs i ok s body) := by
  cases ok
  · exact .raise (by decide)
  · exact h

theorem EndsLegally.whenInRange {buffers : List (Nat × Nat)} (h : EndsLegally s body) :
    EndsLegally s (whenInRange i buffers s body) := by
  unfold Machine.whenInRange
  split
  · exact h
  · exact .raise (by decide)

theorem EndsLegally.status_ne_illegal {r : Result} (h : EndsLegally s r) (he : s.status.err = false) :
    ∃ t, r = .next t ∧ t.status ≠ ⟨true, 1⟩ := by
  have code_ne : ∀ k ≠ ErrorKind.illegalCommand, k.code ≠ 1 := by
    intro k hk
    cases k
    · exact absurd rfl hk
    all_goals decide
  obtain ⟨t, ht, same | ⟨k, hk, raised⟩⟩ := h
  · exact ⟨t, ht, fun illegal => by simp [← same, illegal] at he⟩
  · exact ⟨t, ht, fun illegal => code_ne k hk (congrArg Status.cause (raised.symm.trans illegal))⟩

end EndsLegally

@[simp] theorem writeTransposed_status (l : Lanes) (regs : List VReg) (old : State) (rs : List VReg) (j : Nat)
    (s : State) : (writeTransposed l regs old rs j s).status = s.status := by
  induction rs generalizing j s with
  | nil => rfl
  | cons r rs ih => rw [writeTransposed, ih, setLanes_status]

/-- By the checks each command makes before its first write (R239). -/
theorem exec_endsLegally {i : Instr} {s : State} (legal : i.WellFormed s.hasV8) : EndsLegally s (exec i s) := by
  cases i with
  | ispow2 | highbit | sigbytes | ctz | clog2 | clz => exact .next rfl
  | mset | mclr | mexp | misz | meq | mlt | mgt | mlte | mgte | mand | mor | mxor | mnot | sel | ifset | mval =>
    exact .next rfl
  | seln | zout => exact .whenInRange (.next rfl)
  | wmk | wadd | wor => exact .whenLegal legal (.next rfl)
  | wshr | wshl | wmul | wcsh | wcmb => exact .whenLegal legal (.whenArgs (.next rfl))
  | vldle | vldbe | vstle | vstbe => exact .whenLegal legal (.whenInRange (.next rfl))
  | vzero | vpack | vsplat | vrotl | vrotr | vadd | vsub | vxor | vor | vand | vnot | vandc | vshl | vshr | vbswap
  | vrho => exact .whenLegal legal (.next rfl)
  | vtrn4 | vtrn8 => exact .whenLegal legal (.next (writeTransposed_status ..))

theorem onlyError_raiseError (k : ErrorKind) (c : CmdWord) (s : State) : OnlyError s (raiseError k c s) :=
  ⟨fun _ _ => rfl, fun _ _ => rfl, fun _ _ _ => rfl, fun _ _ => rfl, rfl, rfl, rfl, rfl⟩

/-! ### A CMD write -/

theorem step_write_cmd {s : State} {data : Word} {rest : List HostTxn} (hw : AboutToWrite s 0x104 data rest) :
    step s = issue (data.setWidth 32) (s.afterWrite rest) := by
  rw [step_cons hw]
  rfl

section Issue
variable {s : State} {c : CmdWord}

theorem issue_of_illegalWord (he : s.status.err = false) (h : legalWord s.hasV8 c = false) :
    issue c s = .next (raiseError .illegalCommand c s) := by
  rcases issue_cases (rfl : issue c s = _) with ⟨err, -⟩ | ⟨-, -, result⟩ | ⟨-, i, accepted, -⟩
  · simp [he] at err
  · exact result
  · simp [(exists_decode_iff_legalWord s.hasV8 c).1 ⟨i, accepted⟩] at h

theorem issue_of_legalWord (he : s.status.err = false) (h : legalWord s.hasV8 c = true) :
    ∃ i, i.WellFormed s.hasV8 ∧ issue c s = exec i s := by
  rcases issue_cases (rfl : issue c s = _) with ⟨err, -⟩ | ⟨-, ⟨r, rejected⟩, -⟩ | ⟨-, i, accepted, result⟩
  · simp [he] at err
  · obtain ⟨i, accepted⟩ := (exists_decode_iff_legalWord s.hasV8 c).2 h
    simp [rejected] at accepted
  · exact ⟨i, (decode_eq_ok_iff.1 accepted).2, result⟩

end Issue

/-- Settles O6: the decoder accepts exactly the table's words, and a legal command never ends in `IllegalCommand`. -/
theorem illegalWordsRaiseIllegalCommand : Obligations.IllegalWordsRaiseIllegalCommand := by
  intro s data rest hw he
  rw [step_write_cmd hw]
  constructor
  · intro illegal
    exact ⟨_, issue_of_illegalWord (s := s.afterWrite rest) he illegal, rfl, rfl, onlyError_raiseError ..⟩
  · intro legal
    obtain ⟨i, wellFormed, result⟩ := issue_of_legalWord (s := s.afterWrite rest) he legal
    rw [result]
    exact (exec_endsLegally wellFormed).status_ne_illegal he

end Sys2Proof.Machine
end

section
/-!
The BitOps unit (40_bitops.md sections 2 and 3). First what each result function is, on the operand as a natural number
and at every width: the searches for a least number, the highest set bit, the test for a power of two. Then what a
command's write of a number does, and the statements settled from the two.
-/

namespace Sys2Proof.Machine

/-! ### The search for a least number -/

/-- The search finds the least match at or after its start, when some match lies within its reach. -/
theorem isLeast_firstFrom (p : Nat → Bool) {fuel k m : Nat} (hkm : k ≤ m) (reach : m ≤ k + fuel) (hm : p m = true) :
    IsLeast {j | k ≤ j ∧ p j = true} (firstFrom p fuel k) := by
  induction fuel generalizing k with
  | zero =>
    obtain rfl : m = k := by omega
    exact ⟨⟨le_rfl, hm⟩, fun j hj => hj.1⟩
  | succ fuel ih =>
    rw [firstFrom]
    split
    next hk => exact ⟨⟨le_rfl, hk⟩, fun j hj => hj.1⟩
    next hk =>
      have after_start : ∀ {j}, k ≤ j → p j = true → k + 1 ≤ j := fun {j} hkj hj =>
        Nat.lt_of_le_of_ne hkj fun e => hk (e ▸ hj)
      obtain ⟨⟨hle, found⟩, least⟩ := ih (after_start hkm hm) (by omega)
      exact ⟨⟨by omega, found⟩, fun j hj => least ⟨after_start hj.1 hj.2, hj.2⟩⟩

theorem isLeast_firstFrom_zero (p : Nat → Bool) {fuel m : Nat} (reach : m ≤ fuel) (hm : p m = true) :
    IsLeast {j | p j = true} (firstFrom p fuel 0) := by
  simpa using isLeast_firstFrom p (Nat.zero_le m) (by omega : m ≤ 0 + fuel) hm

/-! ### What each result is -/

section Results
variable {w : Nat} (n : BitVec w)

/-- R101's test, on the natural number. -/
theorem isPow2_iff : isPow2 n = true ↔ 2 ≤ n.toNat ∧ n.toNat &&& (n.toNat - 1) = 0 := by
  rw [isPow2, Bool.and_eq_true, decide_eq_true_eq, beq_iff_eq]
  refine and_congr_right fun two_le => ?_
  have one_lt : 1 < 2 ^ w := by have := n.isLt; omega
  have one_toNat : (1 : BitVec w).toNat = 1 := Nat.mod_eq_of_lt one_lt
  have pred_toNat : (n - 1).toNat = n.toNat - 1 := by
    rw [BitVec.toNat_sub_of_le (by rw [BitVec.le_def]; omega), one_toNat]
  rw [← BitVec.toNat_inj, BitVec.toNat_and, pred_toNat, BitVec.ofNat_eq_ofNat, BitVec.toNat_zero]

/-- Clearing the lowest set bit leaves 0 exactly on a power of two; `2 ≤ n` excludes `2^0`. -/
theorem isPow2_iff_exists_pow : isPow2 n = true ↔ ∃ k, 1 ≤ k ∧ n.toNat = 2 ^ k := by
  rw [isPow2_iff]
  constructor
  · rintro ⟨two_le, clear⟩
    obtain ⟨k, hk⟩ := (Nat.and_sub_one_eq_zero_iff_isPowerOfTwo (by omega)).1 clear
    refine ⟨k, Nat.one_le_iff_ne_zero.2 fun k_zero => ?_, hk⟩
    rw [hk, k_zero] at two_le
    exact absurd two_le (by decide)
  · rintro ⟨k, one_le, hk⟩
    have two_le : 2 ^ 1 ≤ n.toNat := hk ▸ Nat.pow_le_pow_right (by decide) one_le
    exact ⟨two_le, (Nat.and_sub_one_eq_zero_iff_isPowerOfTwo (by omega)).2 ⟨k, hk⟩⟩

/-- The search from the top stops at or below `k` exactly when it meets no set bit from `k` up. -/
theorem highBitBelow_le_iff (m k : Nat) :
    highBitBelow n m ≤ k ↔ ∀ i, k ≤ i → i < m → n.getLsbD i = false := by
  induction m with
  | zero => simp [highBitBelow]
  | succ m ih =>
    rw [highBitBelow]
    split
    next bit =>
      refine ⟨fun hk i _ _ => by omega, fun clear => ?_⟩
      by_contra hk
      simp [clear m (by omega) (Nat.lt_succ_self m)] at bit
    next bit =>
      rw [ih]
      refine ⟨fun clear i hk hi => ?_, fun clear i hk hi => clear i hk (by omega)⟩
      rcases Nat.lt_succ_iff_lt_or_eq.1 hi with hi | rfl
      · exact clear i hk hi
      · simpa using bit

/-- R102's second reading: `HIGHBIT` is at most `k` exactly when `n < 2^k`. -/
theorem highBit_le_iff (k : Nat) : highBit n ≤ k ↔ n.toNat < 2 ^ k := by
  rw [highBit, highBitBelow_le_iff]
  constructor
  · intro clear
    refine Nat.lt_pow_two_of_testBit _ fun i hk => ?_
    rw [BitVec.testBit_toNat]
    by_cases hi : i < w
    · exact clear i hk hi
    · exact BitVec.getLsbD_of_ge n i (by omega)
  · intro hlt i hk _
    rw [← BitVec.testBit_toNat]
    exact Nat.testBit_lt_two_pow (hlt.trans_le (Nat.pow_le_pow_right (by decide) hk))

theorem highBit_le_width : highBit n ≤ w := (highBit_le_iff n w).2 n.isLt

theorem toNat_lt_two_pow_highBit : n.toNat < 2 ^ highBit n := (highBit_le_iff n _).1 le_rfl

theorem highBit_eq_zero_iff : highBit n = 0 ↔ n.toNat = 0 := by
  rw [← Nat.le_zero, highBit_le_iff, pow_zero, Nat.lt_one_iff]

theorem testBit_of_highBit_le {j : Nat} (h : highBit n ≤ j) : n.toNat.testBit j = false :=
  Nat.testBit_lt_two_pow ((highBit_le_iff n j).1 h)

/-- R102's first reading: the bit below `HIGHBIT` is set. -/
theorem testBit_highBit_sub_one (h : n.toNat ≠ 0) : n.toNat.testBit (highBit n - 1) = true := by
  have pos : highBit n ≠ 0 := fun e => h ((highBit_eq_zero_iff n).1 e)
  have lower : 2 ^ (highBit n - 1) ≤ n.toNat := by
    rw [← not_lt, ← highBit_le_iff]; omega
  have upper : n.toNat < 2 ^ (highBit n - 1 + 1) := by
    rw [← highBit_le_iff]; omega
  exact Nat.testBit_of_two_pow_le_and_two_pow_add_one_gt lower upper

theorem toNat_lt_two_pow_bytes (whole : 8 ∣ w) : n.toNat < 2 ^ (8 * (w / 8)) := by
  rw [Nat.mul_div_cancel' whole]
  exact n.isLt

theorem isLeast_sigBytes (whole : 8 ∣ w) : IsLeast {k | n.toNat < 2 ^ (8 * k)} (sigBytes n) := by
  simpa [sigBytes] using isLeast_firstFrom_zero (fun k => decide (n.toNat < 2 ^ (8 * k))) le_rfl
    (decide_eq_true (toNat_lt_two_pow_bytes n whole))

theorem sigBytes_le (whole : 8 ∣ w) : sigBytes n ≤ w / 8 :=
  (isLeast_sigBytes n whole).2 (toNat_lt_two_pow_bytes n whole)

theorem trailingZeros_of_toNat_eq_zero (h : n.toNat = 0) : trailingZeros n = w := if_pos (BitVec.eq_of_toNat_eq h)

theorem isLeast_trailingZeros (h : n.toNat ≠ 0) : IsLeast {i | n.toNat.testBit i = true} (trailingZeros n) := by
  have not_zero : n ≠ 0 := fun e => h (by simp [e])
  obtain ⟨i, bit⟩ := Nat.exists_testBit_of_ne_zero h
  rw [BitVec.testBit_toNat] at bit
  rw [trailingZeros, if_neg not_zero]
  simpa [BitVec.testBit_toNat] using isLeast_firstFrom_zero (fun i => n.getLsbD i) (BitVec.lt_of_getLsbD bit).le bit

/-- Bit `W - 1` is set exactly from `2^(W-1)` on. -/
theorem getLsbD_top_iff : n.getLsbD (w - 1) = true ↔ 2 ^ (w - 1) ≤ n.toNat := by
  rw [← BitVec.msb_eq_getLsbD_last, BitVec.msb_eq_decide, decide_eq_true_eq]

/-- 90_conflicts.md C1: `2^(W-1)` itself is on this side. -/
theorem ceilLog2_of_top (h : 2 ^ (w - 1) ≤ n.toNat) : ceilLog2 n = w := if_pos ((getLsbD_top_iff n).2 h)

theorem isLeast_ceilLog2 (h : n.toNat < 2 ^ (w - 1)) : IsLeast {k | n.toNat ≤ 2 ^ k} (ceilLog2 n) := by
  have top_clear : ¬ n.getLsbD (w - 1) = true := by rwa [getLsbD_top_iff, not_le]
  rw [ceilLog2, if_neg top_clear]
  simpa using isLeast_firstFrom_zero (fun k => decide (n.toNat ≤ 2 ^ k)) le_rfl (decide_eq_true n.isLt.le)

end Results

/-! ### What the commands read and write -/

@[simp] theorem toNat_readW (s : State) (w : Width) (r : XReg) : (s.readW w r).toNat = operandNat s w r :=
  BitVec.toNat_setWidth w.bits (s.getX r)

theorem onlyX_writeNat (s : State) (r : XReg) (k : Nat) : OnlyX [r] s (s.writeNat r k) := onlyX_setX ..

@[simp] theorem getX_writeNat_same (s : State) (r : XReg) (k : Nat) :
    (s.writeNat r k).getX r = BitVec.ofNat 64 k := getX_setX_same ..

theorem eight_dvd_bits (w : Width) : 8 ∣ w.bits := by cases w <;> decide

/-! ### The statements -/

/-- Settles O22: the model's test, once read as a power of two and once as the cleared lowest bit. -/
theorem ispow2TestsPowerOfTwo : Obligations.Ispow2TestsPowerOfTwo := by
  intro w rd rs1 s
  have power := isPow2_iff_exists_pow (s.readW w rs1)
  have cleared := isPow2_iff (s.readW w rs1)
  rw [toNat_readW] at power cleared
  refine ⟨rfl, _, rfl, onlyX_writeNat .., ?_⟩
  rw [getX_writeNat_same, ← power, ← cleared]
  cases isPow2 (s.readW w rs1) <;> decide

/-- Settles O23: both readings of R102 come from when `HIGHBIT` is at most `k`. -/
theorem highbitIsTheBitWidth : Obligations.HighbitIsTheBitWidth := by
  intro w rd rs1 s
  refine ⟨rfl, _, highBit (s.readW w rs1), rfl, onlyX_writeNat .., getX_writeNat_same .., highBit_le_width _, ?_⟩
  rw [← toNat_readW]
  exact ⟨(highBit_eq_zero_iff _).2,
    fun h => ⟨Nat.one_le_iff_ne_zero.2 fun e => h ((highBit_eq_zero_iff _).1 e), testBit_highBit_sub_one _ h⟩,
    fun _ => testBit_of_highBit_le _, toNat_lt_two_pow_highBit _, fun j => (highBit_le_iff _ j).2⟩

/-- Settles O24: the search finds the least byte count, and `W/8` bytes hold every operand. -/
theorem sigbytesCountsBytes : Obligations.SigbytesCountsBytes := by
  intro w rd rs1 s
  have whole := eight_dvd_bits w
  obtain ⟨fits, least⟩ := isLeast_sigBytes (s.readW w rs1) whole
  refine ⟨rfl, _, sigBytes (s.readW w rs1), rfl, onlyX_writeNat .., getX_writeNat_same .., sigBytes_le _ whole, ?_⟩
  rw [← toNat_readW]
  exact ⟨fits, fun _ hj => least hj⟩

/-- Settles O25: below the least set bit every bit is 0, and an operand of 0 has none set. -/
theorem ctzCountsTrailingZeros : Obligations.CtzCountsTrailingZeros := by
  intro w rd rs1 s
  refine ⟨rfl, _, trailingZeros (s.readW w rs1), rfl, onlyX_writeNat .., getX_writeNat_same .., ?_⟩
  rw [← toNat_readW]
  refine ⟨trailingZeros_of_toNat_eq_zero _, fun h => ?_, fun j hj => ?_⟩
  · have bit : (s.readW w rs1).toNat.testBit _ = true := (isLeast_trailingZeros _ h).1
    exact ⟨BitVec.lt_of_getLsbD (BitVec.testBit_toNat _ ▸ bit), bit⟩
  · by_cases h : (s.readW w rs1).toNat = 0
    · rw [h, Nat.zero_testBit]
    · exact Bool.eq_false_iff.2 fun bit => not_le.2 hj ((isLeast_trailingZeros _ h).2 bit)

/-- Settles O26: from `2^(W-1)` on the top bit decides, below it the search finds the least exponent. -/
theorem clog2IsCeilingLog : Obligations.Clog2IsCeilingLog := by
  intro w rd rs1 s
  refine ⟨rfl, _, ceilLog2 (s.readW w rs1), rfl, onlyX_writeNat .., getX_writeNat_same .., ?_⟩
  rw [← toNat_readW]
  refine ⟨ceilLog2_of_top _, fun h => ?_⟩
  obtain ⟨reached, least⟩ := isLeast_ceilLog2 _ h
  exact ⟨reached, fun _ hj => least hj⟩

end Sys2Proof.Machine
end

section
/-!
The Mask unit (41_mask.md sections 2 to 5). First what its functions compute, on the operands as natural numbers and at
every width, with the write each command makes of the result. Then the loop of SELN round by round, the buffers of SELN
and ZOUT against the memory's end, and the statements settled from them.
-/

namespace Sys2Proof.Machine

/-! ### What the unit's functions compute -/

section Functions
variable {w : Nat} (p q : BitVec w)

theorem isZero_iff : isZero p = true ↔ p.toNat = 0 := by
  rw [isZero, decide_eq_true_eq, ← BitVec.toNat_inj, BitVec.ofNat_eq_ofNat, BitVec.toNat_zero]

theorem isNonZero_eq_not_isZero : isNonZero p = !isZero p := decide_not

theorem isNonZero_iff : isNonZero p = true ↔ p.toNat ≠ 0 := by
  rw [isNonZero_eq_not_isZero, Bool.not_eq_true', ← Bool.not_eq_true, isZero_iff]

theorem isEq_iff : isEq p q = true ↔ p.toNat = q.toNat := by
  rw [isEq, decide_eq_true_eq, BitVec.toNat_inj]

theorem isLt_iff : isLt p q = true ↔ p.toNat < q.toNat := decide_eq_true_iff

theorem isGt_iff : isGt p q = true ↔ p.toNat > q.toNat := decide_eq_true_iff

theorem isLte_iff : isLte p q = true ↔ p.toNat ≤ q.toNat := decide_eq_true_iff

theorem isGte_iff : isGte p q = true ↔ p.toNat ≥ q.toNat := decide_eq_true_iff

theorem toNat_expand (k : Bool) : (expand w k).toNat = if k then 2 ^ w - 1 else 0 := by
  cases k
  · exact BitVec.toNat_zero
  · exact BitVec.toNat_allOnes

/-- R135: with `k` all ones the two `q` cancel; with `k = 0` the difference is masked away. -/
theorem selectBits_expand (k : Bool) : selectBits (expand w k) p q = if k then p else q := by
  cases k
  · calc q ^^^ (0#w &&& (p ^^^ q)) = q ^^^ 0#w := by rw [BitVec.zero_and]
      _ = q := BitVec.xor_zero
  · calc q ^^^ (ones w &&& (p ^^^ q)) = q ^^^ (p ^^^ q) := by rw [BitVec.allOnes_and]
      _ = p := by rw [BitVec.xor_comm p, ← BitVec.xor_assoc, BitVec.xor_self, BitVec.zero_xor]

end Functions

/-! ### What the commands write -/

/-- A command whose meaning is one write of a mask register, with the condition under which it sets it. -/
theorem exists_next_setM (s : State) (md : MReg) {b : Bool} {P : Prop} (h : b = true ↔ P) :
    ∃ t, (.next (s.setM md b) : Result) = .next t ∧ OnlyM md s t ∧ (t.getM md = true ↔ P) :=
  ⟨_, rfl, onlyM_setM .., by rwa [getM_setM_same]⟩

theorem bits_le_64 (w : Width) : w.bits ≤ 64 := by cases w <;> decide

theorem onlyX_writeW (s : State) (w : Width) (r : XReg) (v : BitVec w.bits) : OnlyX [r] s (s.writeW w r v) :=
  onlyX_setX ..

/-- A result of width `W` is zero-extended (R9), so the register holds the same number. -/
theorem toNat_getX_writeW (s : State) (w : Width) (r : XReg) (v : BitVec w.bits) :
    ((s.writeW w r v).getX r).toNat = v.toNat := by
  rw [State.writeW, getX_setX_same, BitVec.toNat_setWidth_of_le (bits_le_64 w)]

theorem onlyBytes_withBus {s : State} {bus : Bus} {a n : Nat}
    (outside : ∀ b, b < a ∨ a + n ≤ b → memGet bus.mem b = memGet s.mem b) : OnlyBytes a n s (s.withBus bus) :=
  ⟨fun _ _ => rfl, fun _ _ => rfl, fun _ _ _ => rfl, outside, ⟨rfl, rfl⟩, rfl, rfl, rfl, rfl⟩

/-! ### The loop of SELN, round by round -/

theorem memGet_memWrite_memRead (mem : List Host.Cell) (a src : Nat) {n j : Nat} (hj : j < n) :
    memGet (memWrite mem a (memRead mem src n)) (a + j) = memGet mem (src + j) := by
  rw [memGet_memWrite, memRead_length, if_pos (by omega), Nat.add_sub_cancel_left, List.getD_eq_getElem?_getD,
    memRead_getElem?, if_pos hj, Option.getD_some]

section SelectLoop
variable {n : Nat} {set : Bool} {d x y : Nat} {bus : Bus}

/-- The loop over `i + j` elements is the loop over the first `i`, then the loop over the `j` after them. -/
theorem selectLoop_add (i j : Nat) :
    selectLoop n set (i + j) d x y bus =
      selectLoop n set j (d + i * n) (x + i * n) (y + i * n) (selectLoop n set i d x y bus) := by
  induction i generalizing d x y bus with
  | zero => simp [selectLoop]
  | succ i ih =>
    have advance : ∀ a, a + n + i * n = a + (i + 1) * n := fun a => by rw [Nat.succ_mul]; omega
    rw [Nat.succ_add, selectLoop, ih, advance, advance, advance, selectLoop]

/-- One round writes the element it has read from the chosen source. -/
theorem selectLoop_one_mem :
    (selectLoop n set 1 d x y bus).mem = memWrite bus.mem d (memRead bus.mem (if set then x else y) n) := by
  cases set <;> rfl

/-- Round `i` overwrites element `i` of the destination with what element `i` of the chosen source then holds. -/
theorem memGet_selectLoop_succ (i : Nat) {j : Nat} (hj : j < n) :
    memGet (selectLoop n set (i + 1) d x y bus).mem (d + i * n + j) =
      memGet (selectLoop n set i d x y bus).mem ((if set then x else y) + i * n + j) := by
  rw [selectLoop_add, selectLoop_one_mem, memGet_memWrite_memRead _ _ _ hj]
  cases set <;> rfl

/-- Round `i` changes no byte outside element `i` of the destination. -/
theorem memGet_selectLoop_succ_outside (i : Nat) {a : Nat} (h : a < d + i * n ∨ d + (i + 1) * n ≤ a) :
    memGet (selectLoop n set (i + 1) d x y bus).mem a = memGet (selectLoop n set i d x y bus).mem a := by
  rw [selectLoop_add]
  refine selectLoop_outside _ _ _ _ _ _ _ _ ?_
  rw [Nat.succ_mul] at h
  omega

end SelectLoop

/-! ### The buffers of SELN and ZOUT -/

section Buffers
variable {w : Width} {ms : MReg} {rpd rpx rpy rlen : XReg} {s : State}

/-- R235's end of a buffer is its address and its bytes, since `W/8` is whole. -/
theorem bufEnd_eq (s : State) (w : Width) (rp rlen : XReg) : bufEnd s w rp rlen = bufAddr s rp + bufBytes s w rlen := by
  rw [bufEnd, Nat.mul_div_assoc _ (eight_dvd_bits w)]
  rfl

theorem exec_seln (hd : bufEnd s w rpd rlen ≤ s.memSize) (hx : bufEnd s w rpx rlen ≤ s.memSize)
    (hy : bufEnd s w rpy rlen ≤ s.memSize) :
    exec (.seln w ms rpd rpx rpy rlen) s = .next (s.withBus (selnBus w ms rpd rpx rpy rlen s)) := by
  rw [bufEnd_eq] at hd hx hy
  exact whenInRange_pos (by simp [selnBuffers, hd, hx, hy]) _

theorem raisesAddr_seln
    (h : s.memSize < bufEnd s w rpd rlen ∨ s.memSize < bufEnd s w rpx rlen ∨ s.memSize < bufEnd s w rpy rlen) :
    RaisesAddr (.seln w ms rpd rpx rpy rlen) s := by
  simp only [bufEnd_eq] at h
  exact whenInRange_neg (by simpa [selnBuffers] using h) _

theorem exec_zout (h : bufEnd s w rpd rlen ≤ s.memSize) :
    exec (.zout w ms rpd rlen) s = .next (s.withBus (zoutBus w ms rpd rlen s)) := by
  rw [bufEnd_eq] at h
  exact whenInRange_pos (by simpa [zoutBuffers] using h) _

theorem raisesAddr_zout (h : s.memSize < bufEnd s w rpd rlen) : RaisesAddr (.zout w ms rpd rlen) s := by
  rw [bufEnd_eq] at h
  exact whenInRange_neg (by simpa [zoutBuffers] using h) _

theorem memGet_zoutBus_outside {a : Nat} (h : a < bufAddr s rpd ∨ bufAddr s rpd + bufBytes s w rlen ≤ a) :
    memGet (zoutBus w ms rpd rlen s).mem a = memGet s.mem a := by
  rw [zoutBus, zeroLoop_byte, if_neg (by omega), bus_mem]

theorem memGet_zoutBus_inside {j : Nat} (h : j < bufBytes s w rlen) :
    memGet (zoutBus w ms rpd rlen s).mem (bufAddr s rpd + j) =
      if s.getM ms then memGet s.mem (bufAddr s rpd + j) else 0 := by
  have inside : bufAddr s rpd ≤ bufAddr s rpd + j ∧ bufAddr s rpd + j < bufAddr s rpd + bufBytes s w rlen := by
    omega
  rw [zoutBus, zeroLoop_byte]
  cases s.getM ms <;> simp [inside]

end Buffers

/-! ### The statements -/

/-- Settles O29: the two tests read the operand at width `W`. -/
theorem maskFactoriesOfOneOperand : Obligations.MaskFactoriesOfOneOperand := by
  intro w md rs1 s
  rw [← toNat_readW]
  exact ⟨⟨rfl, _, rfl, onlyM_setM .., getM_setM_same ..⟩,
    ⟨rfl, _, rfl, onlyM_setM .., getM_setM_same ..⟩,
    ⟨rfl, exists_next_setM s md (isNonZero_iff _)⟩,
    ⟨rfl, exists_next_setM s md (isZero_iff _)⟩⟩

/-- Settles O30: each factory computes its relation on the operands at width `W`. -/
theorem maskComparisonsAreUnsigned : Obligations.MaskComparisonsAreUnsigned := by
  intro w md rs1 rs2 s
  rw [← toNat_readW, ← toNat_readW]
  exact ⟨⟨rfl, exists_next_setM s md (isEq_iff _ _)⟩,
    ⟨rfl, exists_next_setM s md (isLt_iff _ _)⟩,
    ⟨rfl, exists_next_setM s md (isGt_iff _ _)⟩,
    ⟨rfl, exists_next_setM s md (isLte_iff _ _)⟩,
    ⟨rfl, exists_next_setM s md (isGte_iff _ _)⟩⟩

/-- Settles O31: both sources are read before the write, so `md` may be one of them. -/
theorem maskCombinatorsAreBoolean : Obligations.MaskCombinatorsAreBoolean := by
  intro md ms1 ms2 s
  exact ⟨⟨rfl, exists_next_setM s md Bool.and_eq_true_iff⟩,
    ⟨rfl, exists_next_setM s md Bool.or_eq_true_iff⟩,
    ⟨rfl, exists_next_setM s md bne_iff_ne⟩,
    ⟨rfl, exists_next_setM s md (Bool.not_eq_true' _).to_iff⟩⟩

/-- Settles O32: `expand` of the mask picks one operand, and is itself all ones or 0. -/
theorem selAndMvalReadTheMask : Obligations.SelAndMvalReadTheMask := by
  intro w rd ms rs1 rs2 s
  refine ⟨⟨rfl, _, rfl, onlyX_writeW .., ?_⟩, ⟨rfl, _, rfl, onlyX_writeW .., ?_⟩⟩
  · rw [toNat_getX_writeW, selectBits_expand, ← toNat_readW, ← toNat_readW]
    exact ⟨fun set => by rw [if_pos set], fun cleared => by simp [cleared]⟩
  · rw [← BitVec.toNat_inj, toNat_getX_writeW, toNat_expand]
    exact ⟨fun set => if_pos set, fun cleared => by simp [cleared]⟩

/-- Settles O35: round `i` is the loop over one element, on the bus the rounds before it have left. -/
theorem selnTakesElementsInOrder : Obligations.SelnTakesElementsInOrder := by
  intro w ms rpd rpx rpy rlen s after src
  exact ⟨rfl, exec_seln, rfl,
    fun i _ hj => memGet_selectLoop_succ i hj,
    fun i _ h => memGet_selectLoop_succ_outside i h,
    raisesAddr_seln⟩

/-- Settles O36: the loop keeps or zeroes each byte of the buffer and reaches no other. -/
theorem zoutZeroesWhenTheMaskIsCleared : Obligations.ZoutZeroesWhenTheMaskIsCleared := by
  intro w ms rpd rlen s
  refine ⟨rfl, fun inside => ?_, raisesAddr_zout⟩
  exact ⟨_, exec_zout inside, onlyBytes_withBus fun _ => memGet_zoutBus_outside,
    fun _ => memGet_zoutBus_inside⟩

end Sys2Proof.Machine
end

section
/-!
The Wide unit (42_wide.md section 2, R160 to R165). First the arithmetic of a value made of two halves: its number, and
its halves after an OR, a shift and an addition. Then the write of a register pair, when a Wide command passes its
checks of even fields and operands, what it then does, and the statements settled from them.
-/

namespace Sys2Proof.Machine

/-! ### A wide value and its halves -/

section Halves
variable (hi lo hi' lo' : Word)

theorem toNat_halves : (hi ++ lo : WideWord).toNat = hi.toNat * 2 ^ 64 + lo.toNat := by
  rw [BitVec.toNat_append, ← Nat.shiftLeft_add_eq_or_of_lt lo.isLt, Nat.shiftLeft_eq]

theorem halves_or : (hi ++ lo : WideWord) ||| (hi' ++ lo') = (hi ||| hi') ++ (lo ||| lo') := BitVec.or_append

/-- R161: the bits shifted out of the high half come in at the top of the low half. -/
theorem halves_ushiftRight {k : Nat} (hk : k < 64) :
    (hi ++ lo : WideWord) >>> k = (hi >>> k) ++ (lo >>> k ||| hi <<< (64 - k)) := by
  apply BitVec.eq_of_getLsbD_eq
  intro i hi128
  rw [BitVec.getLsbD_ushiftRight, BitVec.getLsbD_append, BitVec.getLsbD_append, BitVec.getLsbD_or,
    BitVec.getLsbD_ushiftRight, BitVec.getLsbD_ushiftRight, BitVec.getLsbD_shiftLeft]
  by_cases low : k + i < 64
  · -- the bit comes from the low half and stays there
    simp [low, show i < 64 by omega, show i < 64 - k by omega]
  · rw [if_neg low]
    by_cases crossing : i < 64
    · have from_high : i - (64 - k) = k + i - 64 := by omega
      simp [crossing, from_high, show ¬ i < 64 - k by omega, BitVec.getLsbD_of_ge lo (k + i) (by omega)]
    · have from_high : k + (i - 64) = k + i - 64 := by omega
      simp [crossing, from_high]

/-- R162: the bits shifted out of the low half come in at the bottom of the high half. -/
theorem halves_shiftLeft {k : Nat} (hk : k < 64) :
    (hi ++ lo : WideWord) <<< k = (hi <<< k ||| lo >>> (64 - k)) ++ (lo <<< k) := by
  apply BitVec.eq_of_getLsbD_eq
  intro i hi128
  rw [BitVec.getLsbD_shiftLeft, BitVec.getLsbD_append, BitVec.getLsbD_append, BitVec.getLsbD_or,
    BitVec.getLsbD_shiftLeft, BitVec.getLsbD_shiftLeft, BitVec.getLsbD_ushiftRight]
  by_cases low : i < 64
  · simp [low, hi128, show i - k < 64 by omega]
  · rw [if_neg low]
    by_cases crossing : i - k < 64
    · have from_low : 64 - k + (i - 64) = i - k := by omega
      simp [crossing, from_low, hi128, show i - 64 < k by omega, show ¬ i < k by omega]
    · have from_high : i - k - 64 = i - 64 - k := by omega
      simp [crossing, from_high, hi128, show ¬ i < k by omega, show i - 64 < 64 by omega,
        show ¬ i - 64 < k by omega, BitVec.getLsbD_of_ge lo (64 - k + (i - 64)) (by omega)]

/-- R163: the low halves carry exactly when their sum comes out below an operand. -/
theorem carry_iff : (lo + lo').toNat < lo'.toNat ↔ 2 ^ 64 ≤ lo.toNat + lo'.toNat := by
  have := lo.isLt
  have := lo'.isLt
  rw [BitVec.toNat_add]
  omega

theorem halves_add :
    (hi ++ lo : WideWord) + (hi' ++ lo') =
      (hi + hi' + (if (lo + lo').toNat < lo'.toNat then 1 else 0)) ++ (lo + lo') := by
  have := lo.isLt
  have := lo'.isLt
  have carry_toNat : (if (lo + lo').toNat < lo'.toNat then (1 : Word) else 0).toNat =
      if 2 ^ 64 ≤ lo.toNat + lo'.toNat then 1 else 0 := by
    rw [apply_ite BitVec.toNat]
    exact if_congr (carry_iff lo lo') rfl rfl
  apply BitVec.eq_of_toNat_eq
  rw [BitVec.toNat_add, toNat_halves, toNat_halves, toNat_halves, BitVec.toNat_add (hi + hi'), carry_toNat,
    BitVec.toNat_add, BitVec.toNat_add]
  split <;> omega

/-- R165: 128 bits hold the product of two 64-bit numbers. -/
theorem toNat_zext128_mul (u v : Word) : (zext128 u * zext128 v).toNat = u.toNat * v.toNat := by
  have widen : ∀ w : Word, (zext128 w).toNat = w.toNat := fun w => BitVec.toNat_setWidth_of_le (by decide)
  have fits : u.toNat * v.toNat < 2 ^ 128 := by
    rw [show 2 ^ 128 = 2 ^ 64 * 2 ^ 64 from rfl]
    exact Nat.mul_lt_mul'' u.isLt v.isLt
  rw [BitVec.toNat_mul, widen, widen, Nat.mod_eq_of_lt fits]

end Halves

/-! ### A register pair -/

section Pair
variable (s : State) (r : XReg)

@[simp] theorem toNat_getWide : (s.getWide r).toNat = wideNat s r := toNat_halves ..

theorem wideNat_setWide (t : WideWord) : wideNat (s.setWide r t) r = t.toNat := by
  rw [← toNat_getWide, getWide_setWide]

theorem getX_setWide_halves_low (hi lo : Word) : (s.setWide r (hi ++ lo)).getX r = lo := by
  rw [getX_setWide, if_neg (wide_high_ne r).symm, if_pos rfl, BitVec.extractLsb'_append_eq_right]

theorem getX_setWide_halves_high (hi lo : Word) : (s.setWide r (hi ++ lo)).getX (r + 1) = hi := by
  rw [getX_setWide, if_pos rfl, BitVec.extractLsb'_append_eq_left]

theorem onlyX_setWide (t : WideWord) : OnlyX [r, r + 1] s (s.setWide r t) := by
  have others : SameX [r, r + 1] s (s.setWide r t) := fun q hq => by
    obtain ⟨not_low, not_high⟩ : q ≠ r ∧ q ≠ r + 1 := by simpa using hq
    rw [getX_setWide, if_neg not_high, if_neg not_low]
  exact ⟨others, fun _ _ => rfl, fun _ _ _ => rfl, fun _ _ => rfl, ⟨rfl, rfl⟩, rfl, rfl, rfl, rfl⟩

end Pair

/-! ### When a Wide command passes its checks -/

section Checks
variable {hasV8 : Bool} {s : State} {i : Instr} {ok : Bool} {wd ws rsh rs1 rs2 ws1 ws2 : XReg}

/-- R82: a command whose one check is that of its wide fields is legal exactly when they are even. -/
theorem wellFormed_iff_evenReg (rs : List XReg) (wide : i.illegality hasV8 = evenCheck rs) :
    i.WellFormed hasV8 ↔ ∀ r ∈ rs, EvenReg r := by
  have even_iff : ∀ r : XReg, r &&& 1#4 = 0 ↔ EvenReg r := by unfold EvenReg; decide
  simp only [Instr.WellFormed, wide, evenCheck_eq_none, even_iff]

theorem wellFormed_wmk : (Instr.wmk wd rs1 rs2).WellFormed hasV8 ↔ EvenReg wd := by
  simpa using wellFormed_iff_evenReg (i := .wmk wd rs1 rs2) [wd] rfl

theorem wellFormed_wor : (Instr.wor wd ws1 ws2).WellFormed hasV8 ↔ EvenReg wd ∧ EvenReg ws1 ∧ EvenReg ws2 := by
  simpa using wellFormed_iff_evenReg (i := .wor wd ws1 ws2) [wd, ws1, ws2] rfl

theorem wellFormed_wadd : (Instr.wadd wd ws1 ws2).WellFormed hasV8 ↔ EvenReg wd ∧ EvenReg ws1 ∧ EvenReg ws2 := by
  simpa using wellFormed_iff_evenReg (i := .wadd wd ws1 ws2) [wd, ws1, ws2] rfl

theorem wellFormed_wshr : (Instr.wshr wd ws rsh).WellFormed hasV8 ↔ EvenReg wd ∧ EvenReg ws := by
  simpa using wellFormed_iff_evenReg (i := .wshr wd ws rsh) [wd, ws] rfl

theorem wellFormed_wshl : (Instr.wshl wd ws rsh).WellFormed hasV8 ↔ EvenReg wd ∧ EvenReg ws := by
  simpa using wellFormed_iff_evenReg (i := .wshl wd ws rsh) [wd, ws] rfl

theorem wellFormed_wmul : (Instr.wmul wd ws1 rs2).WellFormed hasV8 ↔ EvenReg wd ∧ EvenReg ws1 := by
  simpa using wellFormed_iff_evenReg (i := .wmul wd ws1 rs2) [wd, ws1] rfl

theorem shiftOk_iff : shiftOk s rsh = true ↔ (s.getX rsh).toNat < 64 := decide_eq_true_iff

theorem whenLegal_whenArgs_pos (legal : i.WellFormed s.hasV8) (args : ok = true) (body : Result) :
    whenLegal i s (whenArgs i ok s body) = body := by
  rw [whenLegal_pos legal, whenArgs, if_pos args]

theorem whenLegal_whenArgs_neg (legal : i.WellFormed s.hasV8) (args : ¬ ok = true) (body : Result) :
    whenLegal i s (whenArgs i ok s body) = .next (raiseError .argError (encode i) s) := by
  rw [whenLegal_pos legal, whenArgs, if_neg args, raise]

/-! ### What the commands then write -/

theorem exec_wor (even : EvenReg wd ∧ EvenReg ws1 ∧ EvenReg ws2) :
    exec (.wor wd ws1 ws2) s =
      .next (s.setWide wd ((s.getX (ws1 + 1) ||| s.getX (ws2 + 1)) ++ (s.getX ws1 ||| s.getX ws2))) := by
  rw [← halves_or]
  exact whenLegal_pos (wellFormed_wor.2 even) _

theorem exec_wshr (even : EvenReg wd ∧ EvenReg ws) (amount : (s.getX rsh).toNat < 64) :
    exec (.wshr wd ws rsh) s = .next (s.setWide wd (s.getWide ws >>> (s.getX rsh).toNat)) :=
  whenLegal_whenArgs_pos (wellFormed_wshr.2 even) (shiftOk_iff.2 amount) _

theorem exec_wshl (even : EvenReg wd ∧ EvenReg ws) (amount : (s.getX rsh).toNat < 64) :
    exec (.wshl wd ws rsh) s = .next (s.setWide wd (s.getWide ws <<< (s.getX rsh).toNat)) :=
  whenLegal_whenArgs_pos (wellFormed_wshl.2 even) (shiftOk_iff.2 amount) _

end Checks

/-! ### The statements -/

/-- Settles O39: both results are pairs of halves made from the old registers, written at once. -/
theorem wmkAndWorWriteBothHalves : Obligations.WmkAndWorWriteBothHalves := by
  intro wd rs1 rs2 ws1 ws2 s
  refine ⟨rfl, rfl, fun even => ?wmk, fun odd => ?wmkOdd, fun even => ?wor, fun odd => ?worOdd⟩
  case wmk =>
    exact ⟨_, whenLegal_pos (wellFormed_wmk.2 even) _, onlyX_setWide .., getX_setWide_halves_low ..,
      getX_setWide_halves_high ..⟩
  case wmkOdd => exact whenLegal_neg (mt wellFormed_wmk.1 odd) _
  case wor =>
    exact ⟨_, exec_wor even, onlyX_setWide .., getX_setWide_halves_low .., getX_setWide_halves_high ..⟩
  case worOdd => exact whenLegal_neg (mt wellFormed_wor.1 odd) _

/-- Settles O40: the number comes from the shift of the wide value, the halves from the bits that cross the middle. -/
theorem wideShiftsOfLessThan64 : Obligations.WideShiftsOfLessThan64 := by
  intro wd ws rsh s
  refine ⟨rfl, rfl, fun even amount => ⟨?wshr, ?wshl⟩, fun even large => ?large, fun odd => ?odd⟩
  case wshr =>
    refine ⟨_, exec_wshr even amount, onlyX_setWide .., ?_, ?_⟩
    · rw [wideNat_setWide, BitVec.toNat_ushiftRight, Nat.shiftRight_eq_div_pow, toNat_getWide]
    · rw [State.getWide, halves_ushiftRight _ _ amount]
      exact ⟨getX_setWide_halves_low .., getX_setWide_halves_high ..⟩
  case wshl =>
    refine ⟨_, exec_wshl even amount, onlyX_setWide .., ?_, ?_⟩
    · rw [wideNat_setWide, BitVec.toNat_shiftLeft, Nat.shiftLeft_eq, toNat_getWide]
    · rw [State.getWide, halves_shiftLeft _ _ amount]
      exact ⟨getX_setWide_halves_high .., getX_setWide_halves_low ..⟩
  case large =>
    have refused : ¬ shiftOk s rsh = true := fun ok => absurd (shiftOk_iff.1 ok) (by omega)
    exact ⟨whenLegal_whenArgs_neg (wellFormed_wshr.2 even) refused _,
      whenLegal_whenArgs_neg (wellFormed_wshl.2 even) refused _⟩
  case odd =>
    exact ⟨whenLegal_neg (mt wellFormed_wshr.1 odd) _, whenLegal_neg (mt wellFormed_wshl.1 odd) _⟩

/-- Settles O41: either low operand shows the carry, since the sum of the low halves is symmetric. -/
theorem waddAddsModulo2To128 : Obligations.WaddAddsModulo2To128 := by
  intro wd ws1 ws2 s
  refine ⟨rfl, fun even => ?sum, fun odd => whenLegal_neg (mt wellFormed_wadd.1 odd) _⟩
  case sum =>
    refine ⟨_, whenLegal_pos (wellFormed_wadd.2 even) _, onlyX_setWide .., ?number, ?halves⟩
    case number => rw [wideNat_setWide, BitVec.toNat_add, toNat_getWide, toNat_getWide]
    case halves =>
      rw [State.getWide, State.getWide, halves_add]
      refine ⟨getX_setWide_halves_low .., getX_setWide_halves_high .., ?_⟩
      rw [carry_iff, BitVec.add_comm, carry_iff, Nat.add_comm]

/-- Settles O42: the operand check asks for a high half of 0, and the product of the low halves then fits. -/
theorem wmulGivesTheExactProduct : Obligations.WmulGivesTheExactProduct := by
  intro wd ws1 rs2 s
  refine ⟨rfl, fun even high_zero => ?product, fun even high_ne => ?argError, fun odd => ?odd⟩
  case product =>
    refine ⟨_, whenLegal_whenArgs_pos (wellFormed_wmul.2 even) (beq_iff_eq.2 high_zero) _, onlyX_setWide .., ?_⟩
    rw [wideNat_setWide, toNat_zext128_mul]
  case argError => exact whenLegal_whenArgs_neg (wellFormed_wmul.2 even) (mt beq_iff_eq.1 high_ne) _
  case odd => exact whenLegal_neg (mt wellFormed_wmul.1 odd) _

end Sys2Proof.Machine
end

section
/-!
The SIMD unit (43_simd.md sections 2 to 8, R180 to R198, R205). First the lane functions: a lane and its bytes, the
rotations. Then when a vector command is legal, what it writes and leaves unchanged, the bytes a vector load or store
moves, the transpose, and the statements settled from them.
-/

namespace Sys2Proof.Machine

/-! ### A lane and its bytes -/

/-- The bytes of a joined lane, counted from the lowest. -/
theorem extractLsb'_bytes (b3 b2 b1 b0 : Byte) {j : Nat} (hj : j < 4) :
    (b3 ++ b2 ++ b1 ++ b0).extractLsb' (8 * j) 8 = [b0, b1, b2, b3].getD j 0 := by
  have above : ∀ {v w : Nat} {hi : BitVec v} {lo : BitVec w} {start : Nat}, w ≤ start →
      (hi ++ lo).extractLsb' start 8 = hi.extractLsb' (start - w) 8 := BitVec.extractLsb'_append_eq_of_le
  match j with
  | 0 => exact BitVec.extractLsb'_append_eq_right
  | 1 => exact (above (by decide)).trans BitVec.extractLsb'_append_eq_right
  | 2 => exact (above (by decide)).trans ((above (by decide)).trans BitVec.extractLsb'_append_eq_right)
  | 3 => exact (above (by decide)).trans ((above (by decide)).trans BitVec.extractLsb'_append_eq_left)

/-- R183: the first byte is the lowest. -/
theorem laneByte_laneOfLE (mem : List Host.Cell) (a : Nat) {j : Nat} (hj : j < 4) :
    laneByte (laneOfLE (memRead mem a 4)) j = memGet mem (a + j) := by
  refine (extractLsb'_bytes _ _ _ _ hj).trans ?_
  interval_cases j <;> rfl

/-- R184: the first byte is the highest. -/
theorem laneByte_laneOfBE (mem : List Host.Cell) (a : Nat) {j : Nat} (hj : j < 4) :
    laneByte (laneOfBE (memRead mem a 4)) (3 - j) = memGet mem (a + j) := by
  refine (extractLsb'_bytes _ _ _ _ (by omega)).trans ?_
  interval_cases j <;> rfl

/-- R198: the swap joins the lane's own bytes in the other order. -/
theorem laneByte_bswap32 (u : Lane) {j : Nat} (hj : j < 4) : laneByte (bswap32 u) j = laneByte u (3 - j) := by
  refine (extractLsb'_bytes _ _ _ _ hj).trans ?_
  interval_cases j <;> rfl

/-- R185: the lowest byte is stored first. -/
theorem bytesLE_getD (u : Lane) {j : Nat} (hj : j < 4) : (bytesLE u).getD j 0 = laneByte u j := by
  interval_cases j <;> rfl

/-- R186: the highest byte is stored first. -/
theorem bytesBE_getD (u : Lane) {j : Nat} (hj : j < 4) : (bytesBE u).getD j 0 = laneByte u (3 - j) := by
  interval_cases j <;> rfl

/-! ### Rotations -/

theorem rotl32_eq_rotateLeft (u : Lane) (n : BitVec 5) : rotl32 u n.toNat = u.rotateLeft n.toNat := by
  rw [BitVec.rotateLeft_def, Nat.mod_eq_of_lt n.isLt, rotl32]

theorem rotr32_eq_rotateRight (u : Lane) (n : BitVec 5) : rotr32 u n.toNat = u.rotateRight n.toNat := by
  rw [BitVec.rotateRight_def, Nat.mod_eq_of_lt n.isLt, rotr32]

/-! ### When a vector command is legal -/

section Legal
variable {s : State} {l : Lanes} {vd va vb vc : VReg} {rs1 : XReg} {n : BitVec 5} {i : Instr}

theorem lanesCheck_eq_none : lanesCheck s.hasV8 l = none ↔ LanesExist s l := by
  cases l <;> simp [lanesCheck, LanesExist]

/-- R80: a command whose one check is that of its vector type. -/
theorem wellFormed_iff_lanesExist (checks : i.illegality s.hasV8 = lanesCheck s.hasV8 l) :
    i.WellFormed s.hasV8 ↔ LanesExist s l := by
  rw [Instr.WellFormed, checks, lanesCheck_eq_none]

/-- R75: a command with one amount. -/
theorem wellFormed_iff_amount
    (checks : i.illegality s.hasV8 = (lanesCheck s.hasV8 l).or (amountCheck [n])) :
    i.WellFormed s.hasV8 ↔ LanesExist s l ∧ n ≠ 0 := by
  rw [Instr.WellFormed, checks, Option.or_eq_none_iff, lanesCheck_eq_none, amountCheck_eq_none]
  simp

theorem wellFormed_vpack :
    (Instr.vpack l vd rs1).WellFormed s.hasV8 ↔ LanesExist s l ∧ rs1.toNat + l.count ≤ 16 := by
  rw [Instr.WellFormed, Instr.illegality, Option.or_eq_none_iff, lanesCheck_eq_none, packCheck]
  simp

/-- R80: where the vector type exists, a command with no further check runs. -/
theorem whenLegal_of_lanesExist (checks : i.illegality s.hasV8 = lanesCheck s.hasV8 l) (types : LanesExist s l)
    (body : Result) : whenLegal i s body = body :=
  whenLegal_pos ((wellFormed_iff_lanesExist checks).2 types) body

theorem whenLegal_of_lanesAbsent (checks : i.illegality s.hasV8 = lanesCheck s.hasV8 l) (absent : ¬ LanesExist s l)
    (body : Result) : whenLegal i s body = .next (raiseError .illegalCommand (encode i) s) :=
  whenLegal_neg (mt (wellFormed_iff_lanesExist checks).1 absent) body

theorem allDifferent_iff_nodup (rs : List VReg) : allDifferent rs = true ↔ rs.Nodup := by
  refine ⟨allDifferent_nodup, fun different => ?_⟩
  induction different with
  | nil => rfl
  | cons fresh _ ih =>
    rw [allDifferent, ih]
    simpa using fun repeated => fresh _ repeated rfl

theorem wellFormed_vtrn4 : (Instr.vtrn4 va vb vc vd).WellFormed s.hasV8 ↔ [va, vb, vc, vd].Nodup := by
  rw [Instr.WellFormed, Instr.illegality, differentCheck_eq_none, allDifferent_iff_nodup]

end Legal

/-! ### What a write of lanes does -/

section Write
variable {s : State} {l : Lanes} {vd vs1 vs2 : VReg} {k : Fin 8}

theorem onlyV_setLanes (s : State) (l : Lanes) (r : VReg) (f : Fin 8 → Lane) : OnlyV [r] l s (s.setLanes l r f) := by
  have others : SameV [r] l.count s (s.setLanes l r f) := by
    intro q j untouched
    rw [getLane_setLanes, if_neg]
    rintro ⟨rfl, written⟩
    rcases untouched with other | above
    · exact other List.mem_cons_self
    · omega
  exact ⟨fun _ _ => rfl, fun _ _ => rfl, others, fun _ _ => rfl, ⟨rfl, rfl⟩, rfl, rfl, rfl, rfl⟩

theorem getLane_setLanes_written (f : Fin 8 → Lane) (hk : k.val < l.count) :
    (s.setLanes l vd f).getLane vd k = f k := by
  rw [getLane_setLanes, if_pos ⟨rfl, hk⟩]

theorem getLane_mapLanes_written (f : Lane → Lane) (hk : k.val < l.count) :
    (mapLanes l vd vs1 f s).getLane vd k = f (s.getLane vs1 k) := getLane_setLanes_written _ hk

theorem getLane_zipLanes_written (f : Lane → Lane → Lane) (hk : k.val < l.count) :
    (zipLanes l vd vs1 vs2 f s).getLane vd k = f (s.getLane vs1 k) (s.getLane vs2 k) := getLane_setLanes_written _ hk

end Write

/-- R181: the registers `rs1`, `rs1 + 1`, ... by number. -/
theorem add_ofNat_eq_ofNat_add (r : XReg) (k : Nat) : r + BitVec.ofNat 4 k = BitVec.ofNat 4 (r.toNat + k) := by
  rw [BitVec.ofNat_add, BitVec.ofNat_toNat, BitVec.setWidth_eq]

theorem toNat_lowLane (s : State) (r : XReg) : (lowLane s r).toNat = (s.getX r).toNat % 2 ^ 32 :=
  BitVec.toNat_setWidth 32 (s.getX r)

/-! ### What a vector load or store moves -/

section Transfer
variable {s : State} {l : Lanes} {vd vs : VReg} {imm : BitVec 12} {rs1 : XReg} {i : Instr}

/-- R235: a vector inside the memory is moved. -/
theorem whenLegal_whenInRange_pos (checks : i.illegality s.hasV8 = lanesCheck s.hasV8 l) (types : LanesExist s l)
    (inside : vecEnd s l imm rs1 ≤ s.memSize) (body : Result) :
    whenLegal i s (whenInRange i (vecBuffers l imm rs1 s) s body) = body := by
  have buffer : ∀ b ∈ vecBuffers l imm rs1 s, b.1 + b.2 ≤ s.memSize := List.forall_mem_singleton.2 inside
  rw [whenLegal_of_lanesExist checks types, whenInRange_pos buffer]

theorem whenLegal_whenInRange_neg (checks : i.illegality s.hasV8 = lanesCheck s.hasV8 l) (types : LanesExist s l)
    (outside : s.memSize < vecEnd s l imm rs1) (body : Result) :
    whenLegal i s (whenInRange i (vecBuffers l imm rs1 s) s body) =
      .next (raiseError .addrError (encode i) s) := by
  have buffer : ∃ b ∈ vecBuffers l imm rs1 s, s.memSize < b.1 + b.2 := ⟨_, List.mem_cons_self, outside⟩
  rw [whenLegal_of_lanesExist checks types, whenInRange_neg buffer]

/-- Lane `k` of a vector load is made of the four bytes at `EA + 4*k`. -/
theorem laneAt_loadRun (order : List Byte → Lane) {k : Fin 8} (hk : k.val < l.count) :
    laneAt (loadRun order l imm rs1 s).1 k =
      order (memRead s.mem ((s.getX rs1).toNat + imm.toNat + 4 * k.val) 4) :=
  laneAt_loadLanes order _ _ hk

theorem laneList_length (s : State) (l : Lanes) (r : VReg) : (s.laneList l r).length = l.count := by
  cases l <;> simp [State.laneList, Lanes.count]

theorem laneList_getElem? (s : State) (l : Lanes) (r : VReg) {k : Fin 8} (hk : k.val < l.count) :
    (s.laneList l r)[k.val]? = some (s.getLane r k) := by
  simp [State.laneList, State.getLane, hk]

/-- Lanes of four bytes each, one after the other: byte `j` of lane `k` stands at `4*k + j`. -/
theorem getD_flatMap_bytes {order : Lane → List Byte} (four : ∀ u, (order u).length = 4) {us : List Lane} {u : Lane}
    {k j : Nat} (lane : us[k]? = some u) (hj : j < 4) : (us.flatMap order).getD (4 * k + j) 0 = (order u).getD j 0 := by
  induction us generalizing k with
  | nil => simp at lane
  | cons v us ih =>
    cases k with
    | zero =>
      obtain rfl : v = u := by simpa using lane
      simp [List.getElem?_append_left, four, hj]
    | succ k =>
      have later : 4 * (k + 1) + j - 4 = 4 * k + j := by omega
      rw [List.flatMap_cons, List.getD_append_right _ _ _ _ (by rw [four]; omega), four, later]
      exact ih (by simpa using lane)

section Store
variable {order : Lane → List Byte} (four : ∀ u, (order u).length = 4)
include four

theorem storeRun_mem :
    (storeRun order l vs imm rs1 s).mem = memWrite s.mem (effAddr s rs1 imm) ((s.laneList l vs).flatMap order) :=
  storeLanes_mem order four _ _ _

theorem length_stored : ((s.laneList l vs).flatMap order).length = 4 * l.count := by
  simp [List.length_flatMap, four, laneList_length, Nat.mul_comm]

theorem memGet_storeRun_inside {k : Fin 8} (hk : k.val < l.count) {j : Nat} (hj : j < 4) :
    memGet (storeRun order l vs imm rs1 s).mem ((s.getX rs1).toNat + imm.toNat + 4 * k.val + j) =
      (order (s.getLane vs k)).getD j 0 := by
  have written : effAddr s rs1 imm ≤ effAddr s rs1 imm + (4 * k.val + j) ∧
      effAddr s rs1 imm + (4 * k.val + j) < effAddr s rs1 imm + 4 * l.count := by omega
  rw [Nat.add_assoc, storeRun_mem four, ← effAddr, memGet_memWrite, length_stored four, if_pos written,
    Nat.add_sub_cancel_left, getD_flatMap_bytes four (laneList_getElem? s l vs hk) hj]

theorem onlyBytes_storeRun : OnlyBytes ((s.getX rs1).toNat + imm.toNat) (4 * l.count) s
    (s.withBus (storeRun order l vs imm rs1 s)) := by
  refine onlyBytes_withBus fun b outside => ?_
  rw [storeRun_mem four]
  exact memGet_memWrite_outside _ _ _ _ (by rwa [length_stored four])

end Store

end Transfer

/-! ### The transpose -/

/-- One command's writes after another's touch the registers of both. -/
theorem OnlyV.append {rs rs' : List VReg} {l : Lanes} {s t u : State} (first : OnlyV rs l s t)
    (second : OnlyV rs' l t u) : OnlyV (rs ++ rs') l s u := by
  obtain ⟨x, m, v, bytes, ⟨status, errcmd⟩, hasV8, memSize, pending, reply⟩ := first
  obtain ⟨x', m', v', bytes', ⟨status', errcmd'⟩, hasV8', memSize', pending', reply'⟩ := second
  have lanes : SameV (rs ++ rs') l.count s u := fun r k untouched => by
    rw [List.mem_append] at untouched
    rw [v' r k (by tauto), v r k (by tauto)]
  exact ⟨fun r h => (x' r h).trans (x r h), fun r h => (m' r h).trans (m r h), lanes,
    fun b h => (bytes' b h).trans (bytes b h), ⟨status'.trans status, errcmd'.trans errcmd⟩, hasV8'.trans hasV8,
    memSize'.trans memSize, pending'.trans pending, reply'.trans reply⟩

theorem onlyV_writeTransposed (l : Lanes) (regs : List VReg) (old : State) (rs : List VReg) (j : Nat) (s : State) :
    OnlyV rs l s (writeTransposed l regs old rs j s) := by
  induction rs generalizing j s with
  | nil => exact ⟨fun _ _ => rfl, fun _ _ => rfl, fun _ _ _ => rfl, fun _ _ => rfl, ⟨rfl, rfl⟩, rfl, rfl, rfl, rfl⟩
  | cons r rs ih => exact (onlyV_setLanes s l r _).append (ih ..)

theorem onlyV_transpose (l : Lanes) (regs : List VReg) (s : State) : OnlyV regs l s (transpose l regs s) :=
  onlyV_writeTransposed ..

/-- Lane `i` of `B_j` after is lane `j` of `B_i` before (R205, R206). -/
theorem getLane_transpose {l : Lanes} {regs : List VReg} (different : regs.Nodup) (s : State) {i j : Fin 8}
    (hi : i.val < l.count) (hj : j.val < regs.length) :
    (transpose l regs s).getLane (regs.getD j.val 0) i = s.getLane (regs.getD i.val 0) j := by
  rw [List.getD_eq_getElem _ _ hj, transpose, getLane_writeTransposed _ _ _ _ different _ _ _ hj, if_pos hi,
    Nat.zero_add, Fin.ofNat_val_eq_self]

/-- A word of format VT4 above its 23 bits of registers and zeroes (R78): the opcode and `L`. -/
theorem extractLsb'_formatVT4 (top : BitVec 9) (va vb vc vd : VReg) (start len : Nat) :
    (top ++ va ++ vb ++ vc ++ vd ++ 0#11).extractLsb' (23 + start) len = top.extractLsb' start len := by
  rw [BitVec.extractLsb'_append_eq_of_le (by omega), BitVec.extractLsb'_append_eq_of_le (by omega),
    BitVec.extractLsb'_append_eq_of_le (by omega), BitVec.extractLsb'_append_eq_of_le (by omega),
    BitVec.extractLsb'_append_eq_of_le (by omega)]
  congr 1
  omega

/-- R83 item 5: the split of a `VTRN4` word refuses `L = 1`. -/
theorem decode_vtrn4_eightLanes {c : CmdWord} (op : fldOp c = 0x73) (eight : fldL c = 1) (hasV8 : Bool) :
    decode hasV8 c = .error .transpose4EightLanes := by
  have refused : decodeFields c = .error .transpose4EightLanes := by
    rw [decodeFields, op]
    exact if_pos (by rw [eight]; rfl)
  rw [decode, refused]

/-! ### The statements -/

/-- Settles O44: the three commands differ in what they write to each lane, and `VPACK` has a check of its own. -/
theorem vectorConstruction : Obligations.VectorConstruction := by
  intro l vd rs1 s
  refine ⟨rfl, rfl, rfl, fun types => ⟨?vzero, ?vsplat, fun bound => ?vpack⟩, fun absent => ?absent, fun bad => ?bad⟩
  case vzero =>
    exact ⟨_, whenLegal_of_lanesExist rfl types _, onlyV_setLanes .., fun _ => getLane_setLanes_written _⟩
  case vsplat =>
    refine ⟨_, whenLegal_of_lanesExist rfl types _, onlyV_setLanes .., fun k hk => ?_⟩
    rw [getLane_setLanes_written _ hk, toNat_lowLane]
  case vpack =>
    refine ⟨_, whenLegal_pos (wellFormed_vpack.2 ⟨types, bound⟩) _, onlyV_setLanes .., fun k hk => ?_⟩
    rw [getLane_setLanes_written _ hk, toNat_lowLane, add_ofNat_eq_ofNat_add]
  case absent => exact ⟨whenLegal_of_lanesAbsent rfl absent _, whenLegal_of_lanesAbsent rfl absent _⟩
  case bad =>
    refine whenLegal_neg (mt wellFormed_vpack.1 ?_) _
    rintro ⟨types, bound⟩
    exact bad.elim (fun absent => absent types) (Nat.not_lt.2 bound)

/-- Settles O45: each lane is joined from four bytes, and the two orders join them from either end. -/
theorem vectorLoads : Obligations.VectorLoads := by
  intro l vd imm rs1 s
  refine ⟨rfl, rfl, fun types inside => ⟨?vldle, ?vldbe⟩, fun types outside => ?outside, fun absent => ?absent⟩
  case vldle =>
    refine ⟨_, whenLegal_whenInRange_pos rfl types inside _, onlyV_setLanes .., fun k hk j hj => ?_⟩
    rw [getLane_setLanes_written _ hk, laneAt_loadRun _ hk, laneByte_laneOfLE _ _ hj]
  case vldbe =>
    refine ⟨_, whenLegal_whenInRange_pos rfl types inside _, onlyV_setLanes .., fun k hk j hj => ?_⟩
    rw [getLane_setLanes_written _ hk, laneAt_loadRun _ hk, laneByte_laneOfBE _ _ hj]
  case outside =>
    exact ⟨whenLegal_whenInRange_neg rfl types outside _, whenLegal_whenInRange_neg rfl types outside _⟩
  case absent => exact ⟨whenLegal_of_lanesAbsent rfl absent _, whenLegal_of_lanesAbsent rfl absent _⟩

/-- Settles O46: the lanes' bytes stand one after the other from `EA` on. -/
theorem vectorStores : Obligations.VectorStores := by
  intro l vs imm rs1 s
  refine ⟨rfl, rfl, fun types inside => ⟨?vstle, ?vstbe⟩, fun types outside => ?outside, fun absent => ?absent⟩
  case vstle =>
    refine ⟨_, whenLegal_whenInRange_pos rfl types inside _, onlyBytes_storeRun bytesLE_length,
      fun k hk j hj => ?_⟩
    exact (memGet_storeRun_inside bytesLE_length hk hj).trans (bytesLE_getD _ hj)
  case vstbe =>
    refine ⟨_, whenLegal_whenInRange_pos rfl types inside _, onlyBytes_storeRun bytesBE_length,
      fun k hk j hj => ?_⟩
    exact (memGet_storeRun_inside bytesBE_length hk hj).trans (bytesBE_getD _ hj)
  case outside =>
    exact ⟨whenLegal_whenInRange_neg rfl types outside _, whenLegal_whenInRange_neg rfl types outside _⟩
  case absent => exact ⟨whenLegal_of_lanesAbsent rfl absent _, whenLegal_of_lanesAbsent rfl absent _⟩

/-- Settles O48: the rules' formulas are rotations since an amount is below 32. -/
theorem vectorRotatesAndByteSwap : Obligations.VectorRotatesAndByteSwap := by
  intro l vd vs1 n s
  refine ⟨rfl, rfl, rfl, fun types amount => ⟨?vrotl, ?vrotr⟩, fun types => ?vbswap, fun bad => ?bad,
    fun absent => whenLegal_of_lanesAbsent rfl absent _⟩
  case vrotl =>
    refine ⟨_, whenLegal_pos ((wellFormed_iff_amount rfl).2 ⟨types, amount⟩) _, onlyV_setLanes .., fun k hk => ?_⟩
    rw [getLane_mapLanes_written _ hk]
    exact ⟨rfl, rotl32_eq_rotateLeft _ n⟩
  case vrotr =>
    refine ⟨_, whenLegal_pos ((wellFormed_iff_amount rfl).2 ⟨types, amount⟩) _, onlyV_setLanes .., fun k hk => ?_⟩
    rw [getLane_mapLanes_written _ hk]
    exact ⟨rfl, rotr32_eq_rotateRight _ n⟩
  case vbswap =>
    refine ⟨_, whenLegal_of_lanesExist rfl types _, onlyV_setLanes .., fun k hk j hj => ?_⟩
    rw [getLane_mapLanes_written _ hk, laneByte_bswap32 _ hj]
  case bad =>
    have illegal : ¬ (LanesExist s l ∧ n ≠ 0) := by tauto
    exact ⟨whenLegal_neg (mt (wellFormed_iff_amount rfl).1 illegal) _,
      whenLegal_neg (mt (wellFormed_iff_amount rfl).1 illegal) _⟩

/-- Settles O49: `BitVec` addition and subtraction at width 32. -/
theorem vectorAddAndSubtract : Obligations.VectorAddAndSubtract := by
  intro l vd vs1 vs2 s
  refine ⟨rfl, rfl, fun types => ⟨?vadd, ?vsub⟩, fun absent => ?absent⟩
  case vadd =>
    refine ⟨_, whenLegal_of_lanesExist rfl types _, onlyV_setLanes .., fun k hk => ?_⟩
    rw [getLane_zipLanes_written _ hk, BitVec.toNat_add]
  case vsub =>
    refine ⟨_, whenLegal_of_lanesExist rfl types _, onlyV_setLanes .., fun k hk => ?_⟩
    rw [getLane_zipLanes_written _ hk, BitVec.toNat_sub']
    omega
  case absent => exact ⟨whenLegal_of_lanesAbsent rfl absent _, whenLegal_of_lanesAbsent rfl absent _⟩

/-- Settles O50: each command is a bitwise function of the lanes, and a complement is a difference from all ones. -/
theorem vectorLogic : Obligations.VectorLogic := by
  intro l vd vs1 vs2 s
  refine ⟨rfl, rfl, rfl, rfl, fun types => ⟨?vxor, ?vor, ?vand, ?vnot⟩, fun absent => ?absent⟩
  case vxor =>
    refine ⟨_, whenLegal_of_lanesExist rfl types _, onlyV_setLanes .., fun k hk b => ?_⟩
    rw [getLane_zipLanes_written _ hk, BitVec.getLsbD_xor]
  case vor =>
    refine ⟨_, whenLegal_of_lanesExist rfl types _, onlyV_setLanes .., fun k hk b => ?_⟩
    rw [getLane_zipLanes_written _ hk, BitVec.getLsbD_or]
  case vand =>
    refine ⟨_, whenLegal_of_lanesExist rfl types _, onlyV_setLanes .., fun k hk b => ?_⟩
    rw [getLane_zipLanes_written _ hk, BitVec.getLsbD_and]
  case vnot =>
    refine ⟨_, whenLegal_of_lanesExist rfl types _, onlyV_setLanes .., fun k hk => ?_⟩
    rw [getLane_mapLanes_written _ hk, BitVec.toNat_not]
  case absent =>
    exact ⟨whenLegal_of_lanesAbsent rfl absent _, whenLegal_of_lanesAbsent rfl absent _,
      whenLegal_of_lanesAbsent rfl absent _, whenLegal_of_lanesAbsent rfl absent _⟩

/-- Settles O52: all lanes are read from the old state, and the decoder refuses the word with `L` set. -/
theorem vtrn4Transposes : Obligations.Vtrn4Transposes := by
  intro va vb vc vd s
  refine ⟨rfl, fun different => ?transposed, fun repeated => ?repeated, fun hasV8 => ?eight⟩
  case transposed =>
    exact ⟨_, whenLegal_pos (wellFormed_vtrn4.2 different) _, onlyV_transpose ..,
      fun i j hi hj => getLane_transpose different s hi hj⟩
  case repeated => exact whenLegal_neg (mt wellFormed_vtrn4.1 repeated) _
  case eight =>
    have top := extractLsb'_formatVT4 (0x73#8 ++ 1#1) va vb vc vd
    exact ⟨_, decode_vtrn4_eightLanes (top 1 8) (top 0 1) hasV8⟩

end Sys2Proof.Machine
end

section
/-!
The error conditions of a command (60_exceptions.md R233 to R235, R239) and the two host transactions that change
nothing (R236, R241). First what each check makes of a command's end, then the end of every legal command by the checks
it makes, and the statements settled from them.
-/

namespace Sys2Proof.Machine

/-! ### How a legal command ends -/

/-- The command ends in `ArgError` under `arg`, in `AddrError` under `addr`, and with no error under neither. -/
def EndsBy (i : Instr) (s : State) (arg addr : Prop) (r : Result) : Prop :=
  (arg → r = .next (raiseError .argError (encode i) s)) ∧
  (addr → r = .next (raiseError .addrError (encode i) s)) ∧
  (¬ arg → ¬ addr → ∃ t, r = .next t ∧ SameError s t)

section EndsBy
variable {i : Instr} {s t : State} {arg addr : Prop} {body : Result}

theorem EndsBy.next (same : SameError s t) : EndsBy i s False False (.next t) :=
  ⟨False.elim, False.elim, fun _ _ => ⟨t, rfl, same⟩⟩

theorem EndsBy.whenLegal (legal : i.WellFormed s.hasV8) (h : EndsBy i s arg addr body) :
    EndsBy i s arg addr (whenLegal i s body) := by
  rwa [whenLegal_pos legal]

/-- R234: an operand precondition, checked first, decides between `ArgError` and the end of the rest. -/
theorem EndsBy.whenArgs {ok : Bool} (holds : ok = true ↔ ¬ arg) (h : EndsBy i s False False body) :
    EndsBy i s arg False (whenArgs i ok s body) := by
  obtain ⟨-, -, completes⟩ := h
  refine ⟨fun violated => if_neg fun passed => holds.1 passed violated, False.elim, fun kept inside => ?_⟩
  rw [Machine.whenArgs, if_pos (holds.2 kept)]
  exact completes id inside

/-- R235: the range check, made before any access, decides between `AddrError` and the end of the rest. -/
theorem EndsBy.whenInRange {buffers : List (Nat × Nat)} (outside : addr ↔ ∃ b ∈ buffers, s.memSize < b.1 + b.2)
    (h : EndsBy i s False False body) : EndsBy i s False addr (whenInRange i buffers s body) := by
  obtain ⟨-, -, completes⟩ := h
  refine ⟨False.elim, fun violated => whenInRange_neg (outside.1 violated) _, fun args kept => ?_⟩
  have inside : ∀ b ∈ buffers, b.1 + b.2 ≤ s.memSize := by simpa [outside] using kept
  rw [whenInRange_pos inside]
  exact completes args id

end EndsBy

/-! ### The checks against the tables -/

section Tables
variable {s : State} {w : Width} {l : Lanes} {imm : BitVec 12} {rs1 rsh rsh1 rsh2 ws1 rpd rpx rpy rlen : XReg}

theorem shiftOk_iff_not_large : shiftOk s rsh = true ↔ ¬ 64 ≤ (s.getX rsh).toNat := by
  rw [shiftOk_iff, Nat.not_le]

theorem bothShiftsOk_iff_not_large : (shiftOk s rsh1 && shiftOk s rsh2) = true ↔
    ¬ (64 ≤ (s.getX rsh1).toNat ∨ 64 ≤ (s.getX rsh2).toNat) := by
  rw [Bool.and_eq_true, shiftOk_iff_not_large, shiftOk_iff_not_large, not_or]

theorem highHalfClear_iff : (s.getX (ws1 + 1) == 0) = true ↔ ¬ s.getX (ws1 + 1) ≠ 0 := by
  rw [beq_iff_eq, not_not]

theorem vecEnd_outside_iff :
    s.memSize < vecEnd s l imm rs1 ↔ ∃ b ∈ vecBuffers l imm rs1 s, s.memSize < b.1 + b.2 := by
  simp [vecBuffers, vecEnd, effAddr, vecBytes]

theorem selnBuffers_outside_iff :
    (s.memSize < bufEnd s w rpd rlen ∨ s.memSize < bufEnd s w rpx rlen ∨ s.memSize < bufEnd s w rpy rlen) ↔
      ∃ b ∈ selnBuffers w rpd rpx rpy rlen s, s.memSize < b.1 + b.2 := by
  simp [selnBuffers, bufEnd_eq]

theorem zoutBuffers_outside_iff :
    s.memSize < bufEnd s w rpd rlen ↔ ∃ b ∈ zoutBuffers w rpd rlen s, s.memSize < b.1 + b.2 := by
  simp [zoutBuffers, bufEnd_eq]

end Tables

/-! ### Every command -/

theorem sameError_transpose (l : Lanes) (regs : List VReg) (s : State) : SameError s (transpose l regs s) := by
  obtain ⟨-, -, -, -, same, -⟩ := onlyV_transpose l regs s
  exact same

/-- R239 step 3, by the checks the command makes before its first write. -/
theorem exec_endsBy_tables {i : Instr} {s : State} (legal : i.WellFormed s.hasV8) :
    EndsBy i s (argViolation s i) (addrViolation s i) (exec i s) := by
  cases i with
  | ispow2 | highbit | sigbytes | ctz | clog2 | clz => exact .next ⟨rfl, rfl⟩
  | mset | mclr | mexp | misz | meq | mlt | mgt | mlte | mgte | mand | mor | mxor | mnot | sel | ifset | mval =>
    exact .next ⟨rfl, rfl⟩
  | seln => exact .whenInRange selnBuffers_outside_iff (.next ⟨rfl, rfl⟩)
  | zout => exact .whenInRange zoutBuffers_outside_iff (.next ⟨rfl, rfl⟩)
  | wmk | wadd | wor => exact .whenLegal legal (.next ⟨rfl, rfl⟩)
  | wshr | wshl | wcsh => exact .whenLegal legal (.whenArgs shiftOk_iff_not_large (.next ⟨rfl, rfl⟩))
  | wcmb => exact .whenLegal legal (.whenArgs bothShiftsOk_iff_not_large (.next ⟨rfl, rfl⟩))
  | wmul => exact .whenLegal legal (.whenArgs highHalfClear_iff (.next ⟨rfl, rfl⟩))
  | vldle | vldbe | vstle | vstbe => exact .whenLegal legal (.whenInRange vecEnd_outside_iff (.next ⟨rfl, rfl⟩))
  | vzero | vpack | vsplat | vrotl | vrotr | vadd | vsub | vxor | vor | vand | vnot | vandc | vshl | vshr | vbswap
  | vrho => exact .whenLegal legal (.next ⟨rfl, rfl⟩)
  | vtrn4 | vtrn8 => exact .whenLegal legal (.next (sameError_transpose ..))

/-- R239 step 2 comes before every other check, and a command without a check of R83 is always legal. -/
theorem exec_of_illegal {i : Instr} {s : State} (illegal : ¬ i.WellFormed s.hasV8) :
    exec i s = .next (raiseError .illegalCommand (encode i) s) := by
  cases i with
  | ispow2 | highbit | sigbytes | ctz | clog2 | clz => exact absurd rfl illegal
  | mset | mclr | mexp | misz | meq | mlt | mgt | mlte | mgte | mand | mor | mxor | mnot | sel | ifset | mval
  | seln | zout => exact absurd rfl illegal
  | _ => exact whenLegal_neg illegal _

/-- Only Wide commands have an operand precondition, and none of them has a buffer. -/
theorem not_argViolation_and_addrViolation (i : Instr) (s : State) : ¬ (argViolation s i ∧ addrViolation s i) := by
  rintro ⟨arg, addr⟩
  cases i with
  | wshr | wshl | wmul | wcsh | wcmb => exact addr
  | _ => exact arg

/-! ### The transactions that change nothing -/

/-- R239 step 1: the drop comes before the decoder. -/
theorem issue_of_err {s : State} (c : CmdWord) (err : s.status.err = true) : issue c s = .next s := if_pos err

theorem transact_regRead (ra : BitVec 12) (s : State) :
    transact (.regRead ra) s = .next { s with reply := .word (regRead s ra) } := rfl

/-- What a register reads as does not depend on the transactions still to come. -/
theorem regRead_pending (s : State) (rest : List HostTxn) (ra : BitVec 12) :
    regRead { s with pending := rest } ra = regRead s ra := rfl

/-! ### The statements -/

/-- Settles O16: the decode check comes first, then the one table the command has an entry in. -/
theorem errorConditionsAreTheTables : Obligations.ErrorConditionsAreTheTables := by
  intro i s
  simp only [← imp_and]
  exact ⟨not_argViolation_and_addrViolation i s, exec_of_illegal, exec_endsBy_tables⟩

/-- Settles O7: the `CMD` write issues its word, and the issue drops it. -/
theorem commandDroppedWhileErrorSet : Obligations.CommandDroppedWhileErrorSet := by
  intro s data rest hw err
  rw [step_write_cmd hw]
  exact issue_of_err (s := s.afterWrite rest) _ err

/-- Settles O12: the step is the read's transaction, which writes `reply` alone. -/
theorem regReadChangesNothing : Obligations.RegReadChangesNothing := by
  intro s ra rest hr
  rw [step_cons hr, transact_regRead, regRead_pending]

end Sys2Proof.Machine
end

section
/-!
Decoding and encoding (30_encoding.md sections 1 to 7 and 10). An instruction's word splits back into the instruction,
and a word whose unused fields are 0 is the one its format joins from its fields; the checks of R83 then decide what the
decoder answers.
-/

namespace Sys2Proof

/-! ### From the instruction to its word and back -/

/-- R87 steps 1 and 2, one lemma of `DecodeFields` per constructor. -/
theorem decodeFields_encode (i : Instr) : decodeFields (encode i) = .ok i :=
  match i with
  | .ispow2 .. => Laws.DecodeFields.ispow2 ..
  | .highbit .. => Laws.DecodeFields.highbit ..
  | .sigbytes .. => Laws.DecodeFields.sigbytes ..
  | .ctz .. => Laws.DecodeFields.ctz ..
  | .clog2 .. => Laws.DecodeFields.clog2 ..
  | .clz .. => Laws.DecodeFields.clz ..
  | .mset .. => Laws.DecodeFields.mset ..
  | .mclr .. => Laws.DecodeFields.mclr ..
  | .mexp .. => Laws.DecodeFields.mexp ..
  | .misz .. => Laws.DecodeFields.misz ..
  | .meq .. => Laws.DecodeFields.meq ..
  | .mlt .. => Laws.DecodeFields.mlt ..
  | .mgt .. => Laws.DecodeFields.mgt ..
  | .mlte .. => Laws.DecodeFields.mlte ..
  | .mgte .. => Laws.DecodeFields.mgte ..
  | .mand .. => Laws.DecodeFields.mand ..
  | .mor .. => Laws.DecodeFields.mor ..
  | .mxor .. => Laws.DecodeFields.mxor ..
  | .mnot .. => Laws.DecodeFields.mnot ..
  | .sel .. => Laws.DecodeFields.sel ..
  | .ifset .. => Laws.DecodeFields.ifset ..
  | .mval .. => Laws.DecodeFields.mval ..
  | .seln .. => Laws.DecodeFields.seln ..
  | .zout .. => Laws.DecodeFields.zout ..
  | .wmk .. => Laws.DecodeFields.wmk ..
  | .wshr .. => Laws.DecodeFields.wshr ..
  | .wshl .. => Laws.DecodeFields.wshl ..
  | .wadd .. => Laws.DecodeFields.wadd ..
  | .wor .. => Laws.DecodeFields.wor ..
  | .wmul .. => Laws.DecodeFields.wmul ..
  | .wcsh .. => Laws.DecodeFields.wcsh ..
  | .wcmb .. => Laws.DecodeFields.wcmb ..
  | .vzero .. => Laws.DecodeFields.vzero ..
  | .vpack .. => Laws.DecodeFields.vpack ..
  | .vsplat .. => Laws.DecodeFields.vsplat ..
  | .vldle .. => Laws.DecodeFields.vldle ..
  | .vldbe .. => Laws.DecodeFields.vldbe ..
  | .vstle .. => Laws.DecodeFields.vstle ..
  | .vstbe .. => Laws.DecodeFields.vstbe ..
  | .vrotl .. => Laws.DecodeFields.vrotl ..
  | .vrotr .. => Laws.DecodeFields.vrotr ..
  | .vadd .. => Laws.DecodeFields.vadd ..
  | .vsub .. => Laws.DecodeFields.vsub ..
  | .vxor .. => Laws.DecodeFields.vxor ..
  | .vor .. => Laws.DecodeFields.vor ..
  | .vand .. => Laws.DecodeFields.vand ..
  | .vnot .. => Laws.DecodeFields.vnot ..
  | .vandc .. => Laws.DecodeFields.vandc ..
  | .vshl .. => Laws.DecodeFields.vshl ..
  | .vshr .. => Laws.DecodeFields.vshr ..
  | .vbswap .. => Laws.DecodeFields.vbswap ..
  | .vtrn4 .. => Laws.DecodeFields.vtrn4 ..
  | .vtrn8 .. => Laws.DecodeFields.vtrn8 ..
  | .vrho .. => Laws.DecodeFields.vrho ..

theorem decode_encode (hasV8 : Bool) (i : Instr) : decode hasV8 (encode i) = checkLegal hasV8 i := by
  rw [decode, decodeFields_encode]

theorem checkLegal_of_illegality {hasV8 : Bool} {i : Instr} {r : IllegalReason} (h : i.illegality hasV8 = some r) :
    checkLegal hasV8 i = .error r := by
  rw [checkLegal, h]

/-! ### From the word to its fields and back -/

theorem whenZero_eq_ok_iff {z : Bool} {i j : Instr} : whenZero z i = .ok j ↔ z = true ∧ i = j := by
  cases z <;> simp [whenZero]

section Formats
variable {c : CmdWord} {op : BitVec 8}

/-- Format S (R71). -/
theorem wordS_eq {w : BitVec 2} {a b f d e : BitVec 4} (hop : (fldOp c).toNat = op.toNat) (hz : fldZ c = 0#2)
    (hw : fldW c = w) (ha : fldA c = a) (hb : fldB c = b) (hf : fldC c = f) (hd : fldD c = d) (he : fldE c = e) :
    wordS op w a b f d e = c := by
  obtain rfl := BitVec.eq_of_toNat_eq hop
  subst hw ha hb hf hd he
  refine word_eq_of_fields [(24, 8), (22, 2), (20, 2), (16, 4), (12, 4), (8, 4), (4, 4), (0, 4)] (by decide) ?_
  simp only [List.forall_mem_cons]
  exact ⟨fldOp_wordS .., fldW_wordS .., (fldZ_wordS ..).trans hz.symm, fldA_wordS .., fldB_wordS .., fldC_wordS ..,
    fldD_wordS .., fldE_wordS .., List.forall_mem_nil _⟩

/-- Format V (R74). -/
theorem wordV_eq {l : BitVec 1} {vd vs1 vs2 : BitVec 3} {n : BitVec 5} (hop : (fldOp c).toNat = op.toNat)
    (hz : fldZV c = 0#9) (hl : fldL c = l) (hd : fldVd c = vd) (h1 : fldVs1 c = vs1) (h2 : fldVs2 c = vs2)
    (hn : fldImm5 c = n) :
    wordV op l vd vs1 vs2 n = c := by
  obtain rfl := BitVec.eq_of_toNat_eq hop
  subst hl hd h1 h2 hn
  refine word_eq_of_fields [(24, 8), (23, 1), (20, 3), (17, 3), (14, 3), (5, 9), (0, 5)] (by decide) ?_
  simp only [List.forall_mem_cons]
  exact ⟨fldOp_wordV .., fldL_wordV .., fldVd_wordV .., fldVs1_wordV .., fldVs2_wordV ..,
    (fldZV_wordV ..).trans hz.symm, fldImm5_wordV .., List.forall_mem_nil _⟩

/-- Format VS (R76). -/
theorem wordVS_eq {l : BitVec 1} {vd : BitVec 3} {rs1 : BitVec 4} {imm : BitVec 12} (hop : (fldOp c).toNat = op.toNat)
    (hz : fldB c = 0#4) (hl : fldL c = l) (hd : fldVd c = vd) (h1 : fldA c = rs1) (hi : fldImm12 c = imm) :
    wordVS op l vd rs1 imm = c := by
  obtain rfl := BitVec.eq_of_toNat_eq hop
  subst hl hd h1 hi
  refine word_eq_of_fields [(24, 8), (23, 1), (20, 3), (16, 4), (12, 4), (0, 12)] (by decide) ?_
  simp only [List.forall_mem_cons]
  exact ⟨fldOp_wordVS .., fldL_wordVS .., fldVd_wordVS .., fldA_wordVS .., (fldB_wordVS ..).trans hz.symm,
    fldImm12_wordVS .., List.forall_mem_nil _⟩

/-- Format VR (R77). -/
theorem wordVR_eq {l : BitVec 1} (hop : (fldOp c).toNat = op.toNat) (hz : fldZR c = 0#2) (hl : fldL c = l) :
    wordVR op l (fldVd c) (fldVs1 c) (fldR1 c) (fldR2 c) (fldImm5 c) = c := by
  obtain rfl := BitVec.eq_of_toNat_eq hop
  subst hl
  refine word_eq_of_fields [(24, 8), (23, 1), (20, 3), (17, 3), (15, 2), (10, 5), (5, 5), (0, 5)] (by decide) ?_
  simp only [List.forall_mem_cons]
  exact ⟨fldOp_wordVR .., fldL_wordVR .., fldVd_wordVR .., fldVs1_wordVR .., (fldZR_wordVR ..).trans hz.symm,
    fldR1_wordVR .., fldR2_wordVR .., fldImm5_wordVR .., List.forall_mem_nil _⟩

/-- Format VT4 (R78). -/
theorem wordVT4_eq (hop : (fldOp c).toNat = op.toNat) (hl : fldL c = 0#1) (hz : fldZ4 c = 0#11) :
    wordVT4 op (fldVd c) (fldVs1 c) (fldVs2 c) (fldT4 c) = c := by
  obtain rfl := BitVec.eq_of_toNat_eq hop
  refine word_eq_of_fields [(24, 8), (23, 1), (20, 3), (17, 3), (14, 3), (11, 3), (0, 11)] (by decide) ?_
  simp only [List.forall_mem_cons]
  exact ⟨fldOp_wordVT4 .., (fldL_wordVT4 ..).trans hl.symm, fldVd_wordVT4 .., fldVs1_wordVT4 .., fldVs2_wordVT4 ..,
    fldT4_wordVT4 .., (fldZ4_wordVT4 ..).trans hz.symm, List.forall_mem_nil _⟩

/-- Format VT8 (R79), which has no unused bit. -/
theorem wordVT8_eq (hop : (fldOp c).toNat = op.toNat) :
    wordVT8 op (fldT8 c 0) (fldT8 c 1) (fldT8 c 2) (fldT8 c 3) (fldT8 c 4) (fldT8 c 5) (fldT8 c 6) (fldT8 c 7) = c := by
  obtain rfl := BitVec.eq_of_toNat_eq hop
  refine word_eq_of_fields [(24, 8), (21, 3), (18, 3), (15, 3), (12, 3), (9, 3), (6, 3), (3, 3), (0, 3)]
    (by decide) ?_
  simp only [List.forall_mem_cons]
  exact ⟨fldOp_wordVT8 .., fldT8_0_wordVT8 .., fldT8_1_wordVT8 .., fldT8_2_wordVT8 .., fldT8_3_wordVT8 ..,
    fldT8_4_wordVT8 .., fldT8_5_wordVT8 .., fldT8_6_wordVT8 .., fldT8_7_wordVT8 .., List.forall_mem_nil _⟩

end Formats

/-- The split keeps every bit: the opcode picks the constructor, its fields are the operands, the rest is 0 (R72). -/
theorem encode_of_decodeFields {c : CmdWord} {i : Instr} (h : decodeFields c = .ok i) : encode i = c := by
  unfold decodeFields at h
  split at h
  case h_52 op => -- `VTRN4`, the one opcode whose split looks at `L`
    split at h
    · cases h
    next four =>
      obtain ⟨zero, rfl⟩ := whenZero_eq_ok_iff.1 h
      exact wordVT4_eq op (by simpa using four) (by simpa using zero)
  case h_53 op => -- `VTRN8`
    cases h
    exact wordVT8_eq op
  case h_55 => cases h
  all_goals
    rename_i op
    obtain ⟨zero, rfl⟩ := whenZero_eq_ok_iff.1 h
    simp only [Bool.and_eq_true, beq_iff_eq] at zero
  case h_54 => -- format VR
    exact wordVR_eq op zero (Lanes.bit_ofBit _).symm
  -- format VS
  case h_34 | h_35 | h_36 | h_37 | h_38 | h_39 =>
    apply wordVS_eq op <;> simp [zero, lanesOf]
  -- format V
  case h_33 | h_40 | h_41 | h_42 | h_43 | h_44 | h_45 | h_46 | h_47 | h_48 | h_49 | h_50 | h_51 =>
    apply wordV_eq op <;> simp [zero, lanesOf]
  -- format S
  all_goals apply wordS_eq op <;> simp [zero, width]

/-! ### The statements -/

/-- Settles O2: the split gives the instruction back, and `checkLegal` answers by its illegality. -/
theorem decodeUndoesEncode : Obligations.DecodeUndoesEncode := by
  intro hasV8 i
  rw [decode_encode]
  exact ⟨fun legal => checkLegal_eq_ok_iff.2 ⟨rfl, legal⟩, fun _ => checkLegal_of_illegality⟩

/-- Settles O3: an accepted word splits into a legal instruction, and the split keeps every bit. -/
theorem legalWordIsEncodingOfItsCommand : Obligations.LegalWordIsEncodingOfItsCommand := by
  intro hasV8 c i accepted
  obtain ⟨fields, legal⟩ := decode_eq_ok_iff.1 accepted
  exact ⟨legal, encode_of_decodeFields fields⟩

/-- Settles O4: row by row, the decoder and the table agree on the words of the row's opcode. -/
theorem legalWordsAreTheOpcodeTables : Obligations.LegalWordsAreTheOpcodeTables := exists_decode_iff_legalWord

/-- Settles O1: the decoder evaluated on each word. -/
theorem decodesWordsOfEveryFamily : Obligations.DecodesWordsOfEveryFamily := by
  refine ⟨?_, ?_, ?_, ?_, ?_, ?_, ?_, ?_⟩ <;> decide

end Sys2Proof
end

section
/-!
The host's transactions (10_state.md section 7, 60_exceptions.md R237, R240 to R243, 70_reset_and_hazards.md R260): what
the step of each does, with the statements about single transactions and about the state after reset.
-/

namespace Sys2Proof.Machine

/-! ### STATUS and ERRCMD at the port -/

theorem portReg_status : portReg 0x101 = .status := by decide

theorem portReg_errcmd : portReg 0x102 = .errcmd := by decide

/-- R28: `ERR` is bit 0 and `CAUSE` starts at bit 4. -/
theorem toNat_statusWord (s : State) :
    (statusWord s).toNat = (if s.status.err then 1 else 0) + 16 * s.status.cause.toNat := by
  have word : ∀ (err : Bool) (cause : BitVec 4),
      (0#56 ++ cause ++ 0#3 ++ BitVec.ofBool err).toNat = (if err then 1 else 0) + 16 * cause.toNat := by decide
  exact word ..

theorem toNat_errcmdWord (s : State) : (errcmdWord s).toNat = s.errcmd.toNat :=
  BitVec.toNat_setWidth_of_le (by decide)

theorem step_write_status {s : State} {data : Word} {rest : List HostTxn} (hw : AboutToWrite s 0x101 data rest) :
    step s = .next (if data.getLsbD 0 then clearError (s.afterWrite rest) else s.afterWrite rest) := by
  rw [step_eq_regStore hw (by decide), regStore, portReg_status]

/-! ### A register write -/

/-- R242: a write issues its word at `CMD` and is a store at any other index. -/
theorem transact_regWrite (ra : BitVec 12) (data : Word) (s : State) :
    transact (.regWrite ra data) s =
      if ra = cmdIndex then issue (data.setWidth 32) { s with reply := .none }
      else .next (regStore ra data { s with reply := .none }) := rfl

theorem issue_of_decode {s : State} {c : CmdWord} {i : Instr} (err : s.status.err = false)
    (accepted : decode s.hasV8 c = .ok i) : issue c s = exec i s := by
  rcases issue_cases (rfl : issue c s = _) with ⟨set, -⟩ | ⟨-, ⟨r, refused⟩, -⟩ | ⟨-, j, decoded, result⟩
  · simp [err] at set
  · simp [accepted] at refused
  · obtain rfl : i = j := by simpa [accepted] using decoded
    exact result

/-! ### The host's memory accesses -/

section HostMemory
variable {s : State} {a : Nat} {b : Byte}

theorem transact_memRead_inside (h : a < s.memSize) :
    transact (.memRead a) s = .next { s with reply := .byte (memGet s.mem a) } := if_pos h

theorem transact_memRead_outside (h : s.memSize ≤ a) :
    transact (.memRead a) s = .refused (.hostMemoryOutOfRange a) := if_neg (Nat.not_lt.2 h)

theorem transact_memWrite_inside (h : a < s.memSize) :
    transact (.memWrite a b) s = .next { s with mem := memSet s.mem a b, reply := .none } := if_pos h

theorem transact_memWrite_outside (h : s.memSize ≤ a) :
    transact (.memWrite a b) s = .refused (.hostMemoryOutOfRange a) := if_neg (Nat.not_lt.2 h)

theorem onlyBytes_memSet (s : State) (a : Nat) (b : Byte) : OnlyBytes a 1 s { s with mem := memSet s.mem a b } := by
  have others : SameBytes a 1 s { s with mem := memSet s.mem a b } := fun c outside => by
    rw [memGet_memSet, if_neg (by omega)]
  exact ⟨fun _ _ => rfl, fun _ _ => rfl, fun _ _ _ => rfl, others, ⟨rfl, rfl⟩, rfl, rfl, rfl, rfl⟩

end HostMemory

/-! ### The statements -/

/-- Settles O5: the step issues the word, and a legal word that is not dropped is executed. -/
theorem stepRunsDecodedCommand : Obligations.StepRunsDecodedCommand := by
  intro s data rest i hw err accepted
  rw [step_write_cmd hw]
  exact issue_of_decode (s := s.afterWrite rest) err accepted

/-- Settles O8: index `0x101` names `STATUS`, and only bit 0 of what is stored there matters. -/
theorem statusWriteClearsError : Obligations.StatusWriteClearsError := by
  intro s data rest hw
  rw [step_write_status hw]
  exact ⟨fun set => by rw [if_pos set]; rfl, fun clear => by rw [clear]; rfl⟩

/-- Settles O11: each index names its register, and the words' set fields do not overlap. -/
theorem statusAndErrcmdRead : Obligations.StatusAndErrcmdRead := by
  intro s
  have status : regRead s 0x101 = statusWord s := by rw [regRead, portReg_status]
  have errcmd : regRead s 0x102 = errcmdWord s := by rw [regRead, portReg_errcmd]
  have cmd : regRead s 0x104 = 0 := by
    rw [regRead, show (0x104 : BitVec 12) = cmdIndex from rfl, portReg_cmdIndex]
  exact ⟨status ▸ toNat_statusWord s, errcmd ▸ toNat_errcmdWord s, cmd,
    fun data rest hw => step_write_ignored hw (.inr (.inl portReg_errcmd))⟩

/-- Settles O13: a byte is read and written in place, and one that does not exist is refused by name. -/
theorem hostMemoryTransactions : Obligations.HostMemoryTransactions := by
  refine ⟨fun s a rest next => ⟨fun inside => ?_, fun outside => ?_⟩,
    fun s a b rest next => ⟨fun inside => ?_, fun outside => ?_⟩⟩
  · exact (step_cons next).trans (transact_memRead_inside inside)
  · exact (step_cons next).trans (transact_memRead_outside outside)
  · refine ⟨_, (step_cons next).trans (transact_memWrite_inside inside), ?_, onlyBytes_memSet (s.afterWrite rest) a b⟩
    rw [memGet_memSet, if_pos rfl]
  · exact (step_cons next).trans (transact_memWrite_outside outside)

/-- Settles O14: the step is the clear of the error, with the transaction taken. -/
theorem resetTouchesOnlyTheErrorState : Obligations.ResetTouchesOnlyTheErrorState := by
  intro s rest next
  exact ⟨_, step_cons next, rfl, rfl⟩

/-- Settles O17: there is no byte and no error in the state after reset, and that block has `HAS_V8`. -/
theorem resetStateIsLegal : Obligations.ResetStateIsLegal := by
  have noError : State.reset.status.err = false := rfl
  have status : StatusLegal .reset := ⟨fun _ => ⟨rfl, rfl⟩, fun err => by simp [noError] at err⟩
  have lanes : HighLanesAbsent .reset := fun absent => by cases absent
  exact ⟨⟨le_rfl, rfl, List.forall_mem_nil _, status, lanes⟩, fun err => by simp [noError] at err, rfl, rfl⟩

end Sys2Proof.Machine
end

section
/-!
What every step keeps (10_state.md sections 6, 7, 9; 60_exceptions.md R230 to R232, R249). First the four ends of a
command, then what a command keeps of the block whatever its end, then the same two questions for a transaction of the
host; the statements follow from the answers.
-/

namespace Sys2Proof.Machine

/-! ### The four ends of a command -/

/-- R239: the three errors, each under its table's condition, and completion. -/
theorem exec_ends (i : Instr) (s : State) :
    (¬ i.WellFormed s.hasV8 ∧ RaisesIllegal i s) ∨
    (i.WellFormed s.hasV8 ∧ argViolation s i ∧ RaisesArg i s) ∨
    (i.WellFormed s.hasV8 ∧ addrViolation s i ∧ RaisesAddr i s) ∨
    (i.WellFormed s.hasV8 ∧ ∃ t, exec i s = .next t ∧ SameError s t) := by
  by_cases legal : i.WellFormed s.hasV8
  · obtain ⟨arg, addr, completes⟩ := exec_endsBy_tables legal
    by_cases argBad : argViolation s i
    · exact .inr (.inl ⟨legal, argBad, arg argBad⟩)
    by_cases addrBad : addrViolation s i
    · exact .inr (.inr (.inl ⟨legal, addrBad, addr addrBad⟩))
    · exact .inr (.inr (.inr ⟨legal, completes argBad addrBad⟩))
  · exact .inl ⟨legal, exec_of_illegal legal⟩

theorem exists_next_exec (i : Instr) (s : State) : ∃ t, exec i s = .next t := by
  rcases exec_ends i s with ⟨-, raised⟩ | ⟨-, -, raised⟩ | ⟨-, -, raised⟩ | ⟨-, t, completed, -⟩
  exacts [⟨_, raised⟩, ⟨_, raised⟩, ⟨_, raised⟩, ⟨t, completed⟩]

theorem canArgError_of_argViolation {i : Instr} {s : State} (h : argViolation s i) :
    Instr.canArgError i = true := by
  cases i with
  | wmul | wshr | wshl | wcsh | wcmb => rfl
  | _ => exact h.elim

theorem canAddrError_of_addrViolation {i : Instr} {s : State} (h : addrViolation s i) :
    Instr.canAddrError i = true := by
  cases i with
  | vldle | vldbe | vstle | vstbe | seln | zout => rfl
  | _ => exact h.elim

/-- The word `c` raises the error `k` on a block with this `HAS_V8`, for some values of its operands (R230). -/
def CanRaise (hasV8 : Bool) (c : CmdWord) : ErrorKind → Prop
  | .illegalCommand => ∃ r, decode hasV8 c = .error r
  | .argError => ∃ i, decode hasV8 c = .ok i ∧ Instr.canArgError i = true
  | .addrError => ∃ i, decode hasV8 c = .ok i ∧ Instr.canAddrError i = true

/-- R231, R232: a command completes with `STATUS` and `ERRCMD` as they were, or all it does is to raise an error that
its own word can raise. -/
theorem exec_completes_or_raises {i : Instr} {s t : State} (h : exec i s = .next t) :
    SameError s t ∨ ∃ k, t = raiseError k (encode i) s ∧ CanRaise s.hasV8 (encode i) k := by
  have same {u : State} (h' : exec i s = .next u) : u = t := by
    rw [h] at h'
    cases h'
    rfl
  rcases exec_ends i s with
    ⟨illegal, raised⟩ | ⟨legal, arg, raised⟩ | ⟨legal, addr, raised⟩ | ⟨-, u, completed, unchanged⟩
  · obtain ⟨r, broken⟩ := Option.ne_none_iff_exists'.1 illegal
    exact .inr ⟨_, (same raised).symm, r, (decodeUndoesEncode _ i).2 r broken⟩
  · exact .inr ⟨_, (same raised).symm, i, (decodeUndoesEncode _ i).1 legal, canArgError_of_argViolation arg⟩
  · exact .inr ⟨_, (same raised).symm, i, (decodeUndoesEncode _ i).1 legal, canAddrError_of_addrViolation addr⟩
  · exact .inl (same completed ▸ unchanged)

/-! ### What a command keeps of the block -/

/-- From `s` to `t` the parameters and the host's sequence stay, the memory list stays canonical and inside the memory,
and no lane that does not exist is written. -/
structure KeepsBlock (s t : State) : Prop where
  hasV8 : t.hasV8 = s.hasV8
  memSize : t.memSize = s.memSize
  pending : t.pending = s.pending
  canonical : Memory.wf s.mem = true → Memory.wf t.mem = true
  inside : ∀ c ∈ t.mem, c ∈ s.mem ∨ c.1 < s.memSize
  absentLanes : s.hasV8 = false → ∀ (r : VReg) (k : Fin 8), 4 ≤ k.val → t.getLane r k = s.getLane r k

/-- A next state the meaning answers keeps the block. -/
def ResultKeepsBlock (s : State) (r : Result) : Prop := ∀ t, r = .next t → KeepsBlock s t

section KeepsBlock
variable {s t : State} {i : Instr} {body : Result}

/-- An update of anything but the memory and the vector registers. -/
theorem KeepsBlock.of_eq (hasV8 : t.hasV8 = s.hasV8) (memSize : t.memSize = s.memSize) (pending : t.pending = s.pending)
    (mem : t.mem = s.mem) (v : t.v = s.v) : KeepsBlock s t where
  hasV8 := hasV8
  memSize := memSize
  pending := pending
  canonical := by rw [mem]; exact id
  inside := fun c hc => .inl (mem ▸ hc)
  absentLanes := fun _ r k _ => by rw [State.getLane, v, State.getLane]

theorem keepsBlock_raiseError (k : ErrorKind) (c : CmdWord) (s : State) : KeepsBlock s (raiseError k c s) :=
  .of_eq rfl rfl rfl rfl rfl

/-- A lane write touches lanes 4 to 7 only where they exist. -/
theorem KeepsBlock.of_onlyV {rs : List VReg} {l : Lanes} (only : OnlyV rs l s t) (mem : t.mem = s.mem)
    (types : LanesExist s l) : KeepsBlock s t := by
  obtain ⟨-, -, lanes, -, -, hasV8, memSize, pending, -⟩ := only
  refine ⟨hasV8, memSize, pending, by rw [mem]; exact id, fun c hc => .inl (mem ▸ hc), fun absent r k high => ?_⟩
  obtain rfl : l = .four := types.resolve_right (by simp [absent])
  exact lanes r k (.inr high)

theorem KeepsBlock.of_withBus {bus : Bus} (canonical : Memory.wf s.mem = true → Memory.wf bus.mem = true)
    (inside : ∀ c ∈ bus.mem, c ∈ s.mem ∨ c.1 < s.memSize) : KeepsBlock s (s.withBus bus) :=
  ⟨rfl, rfl, rfl, canonical, inside, fun _ _ _ _ => rfl⟩

theorem ResultKeepsBlock.next (h : KeepsBlock s t) : ResultKeepsBlock s (.next t) := by
  rintro u ⟨⟩
  exact h

theorem ResultKeepsBlock.whenLegal (h : i.WellFormed s.hasV8 → ResultKeepsBlock s body) :
    ResultKeepsBlock s (whenLegal i s body) := by
  intro t result
  rcases whenLegal_cases result with ⟨legal, result⟩ | ⟨-, rfl⟩
  · exact h legal t result
  · exact keepsBlock_raiseError ..

theorem ResultKeepsBlock.whenArgs {ok : Bool} (h : ResultKeepsBlock s body) :
    ResultKeepsBlock s (whenArgs i ok s body) := by
  intro t result
  rcases whenArgs_cases result with ⟨-, result⟩ | ⟨-, rfl⟩
  · exact h t result
  · exact keepsBlock_raiseError ..

theorem ResultKeepsBlock.whenInRange {buffers : List (Nat × Nat)}
    (h : (∀ b ∈ buffers, b.1 + b.2 ≤ s.memSize) → ResultKeepsBlock s body) :
    ResultKeepsBlock s (whenInRange i buffers s body) := by
  intro t result
  rcases whenInRange_cases result with ⟨inside, result⟩ | ⟨-, rfl⟩
  · exact h inside t result
  · exact keepsBlock_raiseError ..

end KeepsBlock

/-! ### The addresses a command's loop writes -/

theorem mem_selectLoop {n : Nat} {set : Bool} {len d x y : Nat} {b : Bus} {c : Host.Cell}
    (h : c ∈ (selectLoop n set len d x y b).mem) : c ∈ b.mem ∨ c.1 < d + len * n := by
  induction len generalizing d x y b with
  | zero => exact .inl h
  | succ len ih =>
    have advance : d + (len + 1) * n = d + n + len * n := by rw [Nat.succ_mul]; omega
    rw [advance]
    rcases ih h with h | h
    · rcases mem_memWrite h with ⟨-, below⟩ | h
      · simp only [apply_ite List.length, busRead_bytes, memRead_length, ite_self] at below
        exact .inr (by omega)
      · exact .inl h
    · exact .inr h

theorem mem_zeroLoop {set : Bool} {n d : Nat} {b : Bus} {c : Host.Cell} (h : c ∈ (zeroLoop set n d b).mem) :
    c ∈ b.mem ∨ c.1 < d + n := by
  induction n generalizing d b with
  | zero => exact .inl h
  | succ n ih =>
    rcases ih h with h | h
    · rcases mem_memWrite h with ⟨-, below⟩ | h
      · simp only [apply_ite List.length, busRead_bytes, memRead_length, List.length_singleton, ite_self] at below
        exact .inr (by omega)
      · exact .inl h
    · exact .inr (by omega)

theorem writeTransposed_mem (l : Lanes) (regs : List VReg) (old : State) (rs : List VReg) (j : Nat) (s : State) :
    (writeTransposed l regs old rs j s).mem = s.mem := by
  induction rs generalizing j s with
  | nil => rfl
  | cons r rs ih => rw [writeTransposed, ih, setLanes_mem]

/-! ### Every command keeps the block -/

section Commands
variable {s : State} {i : Instr} {l : Lanes}

/-- R80: among its checks a vector command has the one of its type. -/
theorem lanesExist_of_wellFormed {other : Option IllegalReason}
    (checks : i.illegality s.hasV8 = (lanesCheck s.hasV8 l).or other) (legal : i.WellFormed s.hasV8) :
    LanesExist s l := by
  rw [Instr.WellFormed, checks, Option.or_eq_none_iff, lanesCheck_eq_none] at legal
  exact legal.1

theorem setLanes_keepsBlock {vd : VReg} {f : Fin 8 → Lane} (types : LanesExist s l) :
    ResultKeepsBlock s (.next (s.setLanes l vd f)) :=
  .next (.of_onlyV (onlyV_setLanes ..) rfl types)

theorem loadVec_keepsBlock {order : List Byte → Lane} {vd : VReg} {imm : BitVec 12} {rs1 : XReg}
    (checks : i.illegality s.hasV8 = lanesCheck s.hasV8 l) :
    ResultKeepsBlock s (loadVec i order l vd imm rs1 s) :=
  .whenLegal fun legal => .whenInRange fun _ => setLanes_keepsBlock ((wellFormed_iff_lanesExist checks).1 legal)

theorem storeVec_keepsBlock {order : Lane → List Byte} (four : ∀ u, (order u).length = 4) {vs : VReg} {imm : BitVec 12}
    {rs1 : XReg} : ResultKeepsBlock s (storeVec i order l vs imm rs1 s) := by
  refine .whenLegal fun _ => .whenInRange fun fits => .next (.of_withBus ?_ fun c hc => ?_)
  · rw [storeRun_mem four]
    exact memWrite_wf _ _
  · rw [storeRun_mem four] at hc
    have fits := List.forall_mem_singleton.1 fits
    rcases mem_memWrite hc with ⟨-, below⟩ | old
    · rw [length_stored four] at below
      exact .inr (below.trans_le fits)
    · exact .inl old

theorem seln_keepsBlock {w : Width} {ms : MReg} {rpd rpx rpy rlen : XReg} :
    ResultKeepsBlock s (execSeln w ms rpd rpx rpy rlen s) := by
  refine .whenInRange fun fits => .next (.of_withBus (selectLoop_wf _ _ _ _ _ _ s.bus) fun c hc => ?_)
  exact (mem_selectLoop hc).imp_right fun below => below.trans_le (fits _ List.mem_cons_self)

theorem zout_keepsBlock {w : Width} {ms : MReg} {rpd rlen : XReg} : ResultKeepsBlock s (execZout w ms rpd rlen s) := by
  refine .whenInRange fun fits => .next (.of_withBus (zeroLoop_wf _ _ _ s.bus) fun c hc => ?_)
  exact (mem_zeroLoop hc).imp_right fun below => below.trans_le (fits _ List.mem_cons_self)

theorem transpose_keepsBlock {regs : List VReg} (types : LanesExist s l) :
    ResultKeepsBlock s (.next (transpose l regs s)) :=
  .next (.of_onlyV (onlyV_transpose ..) (writeTransposed_mem ..) types)

end Commands

theorem exec_keepsBlock {i : Instr} {s : State} : ResultKeepsBlock s (exec i s) := by
  cases i with
  | ispow2 | highbit | sigbytes | ctz | clog2 | clz => exact .next (.of_eq rfl rfl rfl rfl rfl)
  | mset | mclr | mexp | misz | meq | mlt | mgt | mlte | mgte | mand | mor | mxor | mnot | sel | ifset | mval =>
    exact .next (.of_eq rfl rfl rfl rfl rfl)
  | seln => exact seln_keepsBlock
  | zout => exact zout_keepsBlock
  | wmk | wadd | wor => exact .whenLegal fun _ => .next (.of_eq rfl rfl rfl rfl rfl)
  | wshr | wshl | wmul | wcsh | wcmb => exact .whenLegal fun _ => .whenArgs (.next (.of_eq rfl rfl rfl rfl rfl))
  | vldle | vldbe => exact loadVec_keepsBlock rfl
  | vstle => exact storeVec_keepsBlock bytesLE_length
  | vstbe => exact storeVec_keepsBlock bytesBE_length
  | vzero | vsplat | vadd | vsub | vxor | vor | vand | vnot | vandc | vbswap =>
    exact .whenLegal fun legal => setLanes_keepsBlock ((wellFormed_iff_lanesExist rfl).1 legal)
  | vpack | vrotl | vrotr | vshl | vshr | vrho =>
    exact .whenLegal fun legal => setLanes_keepsBlock (lanesExist_of_wellFormed rfl legal)
  | vtrn4 => exact .whenLegal fun _ => transpose_keepsBlock (.inl rfl)
  | vtrn8 => exact .whenLegal fun legal => transpose_keepsBlock (lanesExist_of_wellFormed rfl legal)

/-! ### A transaction of the host -/

section Transaction
variable {x : HostTxn} {s t : State}

theorem regStore_keepsBlock (ra : BitVec 12) (data : Word) (s : State) : KeepsBlock s (regStore ra data s) := by
  unfold regStore
  split
  case h_3 r k _ => -- a lane
    split
    next present =>
      refine ⟨rfl, rfl, rfl, id, fun _ => .inl, fun absent q j high => getLane_setLane_other _ _ (.inr ?_)⟩
      rintro rfl
      simp [laneExists_eq_false high absent] at present
    next => exact .of_eq rfl rfl rfl rfl rfl
  case h_4 => split <;> exact .of_eq rfl rfl rfl rfl rfl -- `STATUS`
  all_goals exact .of_eq rfl rfl rfl rfl rfl

/-- R242: a store into a register, or nothing, unless it is the clear. -/
theorem regStore_error (ra : BitVec 12) (data : Word) (s : State) :
    SameError s (regStore ra data s) ∨ regStore ra data s = clearError s := by
  unfold regStore
  split
  case h_3 => split <;> exact .inl ⟨rfl, rfl⟩ -- a lane
  case h_4 => split <;> [exact .inr rfl; exact .inl ⟨rfl, rfl⟩] -- `STATUS`
  all_goals exact .inl ⟨rfl, rfl⟩

theorem issue_keepsBlock (c : CmdWord) (s : State) : ResultKeepsBlock s (issue c s) := by
  rcases issue_cases (rfl : issue c s = _) with ⟨-, result⟩ | ⟨-, -, result⟩ | ⟨-, i, -, result⟩ <;> rw [result]
  · exact .next (.of_eq rfl rfl rfl rfl rfl)
  · exact .next (keepsBlock_raiseError ..)
  · exact exec_keepsBlock

/-- What a transaction that is not refused does, besides returning a value (R241 to R243, R260). -/
theorem transact_cases (h : transact x s = .next t) : ∃ r : Reply,
    t = { s with reply := r } ∨ t = clearError { s with reply := r } ∨
    (∃ ra data, t = regStore ra data { s with reply := r }) ∨ (∃ c, issue c { s with reply := r } = .next t) ∨
    ∃ a b, a < s.memSize ∧ t = { s with mem := memSet s.mem a b, reply := r } := by
  cases x with
  | regRead ra => exact ⟨_, .inl (by cases h; rfl)⟩
  | reset => exact ⟨_, .inr (.inl (by cases h; rfl))⟩
  | regWrite ra data =>
    refine ⟨.none, .inr (.inr ?_)⟩
    rw [transact_regWrite] at h
    split at h
    · exact .inr (.inl ⟨_, h⟩)
    · exact .inl ⟨ra, data, by cases h; rfl⟩
  | memRead a =>
    rcases Nat.lt_or_ge a s.memSize with inside | outside
    · rw [transact_memRead_inside inside] at h
      exact ⟨_, .inl (by cases h; rfl)⟩
    · rw [transact_memRead_outside outside] at h
      cases h
  | memWrite a b =>
    rcases Nat.lt_or_ge a s.memSize with inside | outside
    · rw [transact_memWrite_inside inside] at h
      exact ⟨_, .inr (.inr (.inr (.inr ⟨a, b, inside, by cases h; rfl⟩)))⟩
    · rw [transact_memWrite_outside outside] at h
      cases h

theorem KeepsBlock.of_reply {r : Reply} (h : KeepsBlock { s with reply := r } t) : KeepsBlock s t :=
  ⟨h.hasV8, h.memSize, h.pending, h.canonical, h.inside, h.absentLanes⟩

theorem transact_keepsBlock (h : transact x s = .next t) : KeepsBlock s t := by
  obtain ⟨r, rfl | rfl | ⟨ra, data, rfl⟩ | ⟨c, issued⟩ | ⟨a, b, inside, rfl⟩⟩ := transact_cases h
  · exact .of_eq rfl rfl rfl rfl rfl
  · exact .of_eq rfl rfl rfl rfl rfl
  · exact .of_reply (regStore_keepsBlock ..)
  · exact .of_reply (issue_keepsBlock c _ t issued)
  · have cells : ∀ c ∈ memSet s.mem a b, c ∈ s.mem ∨ c.1 < s.memSize := fun c hc => by
      rcases mem_memSet hc with rfl | old
      exacts [.inr inside, .inl old]
    exact ⟨rfl, rfl, rfl, memSet_wf a b, cells, fun _ _ _ _ => rfl⟩

/-- R239: the record a `CMD` write leaves is the old one, or a new and true one. -/
theorem issue_error {c : CmdWord} (h : issue c s = .next t) :
    SameError s t ∨ ∃ k, t.status = ⟨true, k.code⟩ ∧ CanRaise s.hasV8 t.errcmd k := by
  rcases issue_cases h with ⟨-, result⟩ | ⟨-, refused, result⟩ | ⟨-, i, -, result⟩
  · cases result
    exact .inl ⟨rfl, rfl⟩
  · cases result
    exact .inr ⟨.illegalCommand, rfl, refused⟩
  · refine (exec_completes_or_raises result.symm).imp_right ?_
    rintro ⟨k, rfl, true_record⟩
    exact ⟨k, rfl, true_record⟩

/-- What a transaction leaves in `STATUS` and `ERRCMD`: what was there, nothing, or a true record of an error. -/
theorem transact_error (h : transact x s = .next t) :
    SameError s t ∨ (t.status = ⟨false, 0⟩ ∧ t.errcmd = 0) ∨
      ∃ k, t.status = ⟨true, k.code⟩ ∧ CanRaise s.hasV8 t.errcmd k := by
  obtain ⟨r, rfl | rfl | ⟨ra, data, rfl⟩ | ⟨c, issued⟩ | ⟨a, b, -, rfl⟩⟩ := transact_cases h
  · exact .inl ⟨rfl, rfl⟩
  · exact .inr (.inl ⟨rfl, rfl⟩)
  · rcases regStore_error ra data { s with reply := r } with same | cleared
    · exact .inl same
    · rw [cleared]
      exact .inr (.inl ⟨rfl, rfl⟩)
  · exact (issue_error issued).imp_right .inr
  · exact .inl ⟨rfl, rfl⟩

end Transaction

/-! ### A step -/

theorem step_cases {s t : State} (h : step s = .next t) :
    (s.pending = [] ∧ t = s) ∨
      ∃ x rest, s.pending = x :: rest ∧ transact x { s with pending := rest } = .next t := by
  cases next : s.pending with
  | nil =>
    rw [step_nil next] at h
    exact .inl ⟨rfl, by cases h; rfl⟩
  | cons x rest =>
    rw [step_cons next] at h
    exact .inr ⟨x, rest, rfl, h⟩

theorem exists_next_issue (c : CmdWord) (s : State) : ∃ t, issue c s = .next t := by
  rcases issue_cases (rfl : issue c s = _) with ⟨-, result⟩ | ⟨-, -, result⟩ | ⟨-, i, -, result⟩
  · exact ⟨_, result⟩
  · exact ⟨_, result⟩
  · rw [result]
    exact exists_next_exec i s

/-- R28 and R29 of a record that is the old one, cleared, or new. -/
theorem StatusLegal.of_transact {x : HostTxn} {s t : State} (h : transact x s = .next t) (legal : StatusLegal s) :
    StatusLegal t := by
  rcases transact_error h with ⟨status, errcmd⟩ | ⟨status, errcmd⟩ | ⟨k, status, -⟩
  · unfold StatusLegal
    rwa [status, errcmd]
  · exact ⟨fun _ => ⟨by rw [status], errcmd⟩, fun err => by simp [status] at err⟩
  · exact ⟨fun clear => by simp [status] at clear, fun _ => by rw [status]; cases k <;> decide⟩

theorem ErrorRecordLegal.of_transact {x : HostTxn} {s t : State} (h : transact x s = .next t)
    (legal : ErrorRecordLegal s) : ErrorRecordLegal t := by
  have hasV8 := (transact_keepsBlock h).hasV8
  unfold ErrorRecordLegal
  rw [hasV8]
  rcases transact_error h with ⟨status, errcmd⟩ | ⟨status, -⟩ | ⟨k, status, raises⟩
  · rwa [status, errcmd]
  · intro err
    simp [status] at err
  · rw [status]
    intro _
    cases k with
    | illegalCommand => exact .inl ⟨rfl, raises⟩
    | argError => exact .inr (.inl ⟨rfl, raises⟩)
    | addrError => exact .inr (.inr ⟨rfl, raises⟩)

/-! ### The statements -/

/-- Settles O15: the two ends of `exec_completes_or_raises`. -/
theorem commandErrorIsPrecise : Obligations.CommandErrorIsPrecise := by
  intro i s t h
  refine (exec_completes_or_raises h).imp_right ?_
  rintro ⟨k, rfl, -⟩
  exact ⟨k, rfl, rfl, onlyError_raiseError ..⟩

/-- Settles O18: a transaction keeps the block, and leaves the error record R28 and R29 describe. -/
theorem stepKeepsLegalState : Obligations.StepKeepsLegalState := by
  intro s t legal h
  rcases step_cases h with ⟨-, rfl⟩ | ⟨x, rest, -, h⟩
  · exact legal
  · have kept := transact_keepsBlock h
    refine ⟨kept.memSize ▸ legal.memSize_le, kept.canonical legal.mem_wf, fun c hc => ?inside,
      .of_transact h legal.status, fun absent r k high => ?lanes⟩
    case inside =>
      rw [kept.memSize]
      exact (kept.inside c hc).elim (legal.mem_inside c) id
    case lanes =>
      rw [kept.hasV8] at absent
      exact (kept.absentLanes absent r k high).trans (legal.highLanes absent r k high)

/-- Settles O19: a transaction leaves the old record, none, or a new one that is true. -/
theorem stepKeepsErrorRecord : Obligations.StepKeepsErrorRecord := by
  intro s t legal h
  rcases step_cases h with ⟨-, rfl⟩ | ⟨x, rest, -, h⟩
  · exact legal
  · exact ErrorRecordLegal.of_transact h legal

/-- Settles O20: every command gives a next state, so only the host's own memory accesses can be refused. -/
theorem stepRefusesOnlyMissingHostBytes : Obligations.StepRefusesOnlyMissingHostBytes := by
  intro s
  cases next : s.pending with
  | nil => exact .inl ⟨s, step_nil next⟩
  | cons x rest =>
    rw [step_cons next]
    cases x with
    | regRead | reset => exact .inl ⟨_, rfl⟩
    | regWrite ra data =>
      left
      rw [transact_regWrite]
      split
      exacts [exists_next_issue .., ⟨_, rfl⟩]
    | memRead a =>
      rcases Nat.lt_or_ge a s.memSize with inside | outside
      · exact .inl ⟨_, transact_memRead_inside inside⟩
      · exact .inr ⟨a, rest, .inl rfl, outside, transact_memRead_outside outside⟩
    | memWrite a b =>
      rcases Nat.lt_or_ge a s.memSize with inside | outside
      · exact .inl ⟨_, transact_memWrite_inside inside⟩
      · exact .inr ⟨a, rest, .inr ⟨b, rfl⟩, outside, transact_memWrite_outside outside⟩

/-- Settles O21: a transaction keeps the parameters and the sequence still to come. -/
theorem stepTakesOneTransaction : Obligations.StepTakesOneTransaction := by
  refine fun s => ⟨step_nil, fun t h => ?_⟩
  rcases step_cases h with ⟨next, rfl⟩ | ⟨x, rest, next, h⟩
  · exact ⟨by rw [next, List.tail_nil], rfl, rfl⟩
  · have kept := transact_keepsBlock h
    exact ⟨by rw [next, List.tail_cons, kept.pending], kept.hasV8, kept.memSize⟩

end Sys2Proof.Machine
end

section
/-!
The BitOps unit, continued (40_bitops.md sections 2 and 3): `CLZ`, and the identities between the unit's functions. Each
function but `CTZ` is given by `HIGHBIT`, which is the number of binary digits of the operand.
-/

namespace Sys2Proof.Machine

/-! ### HIGHBIT as the number of binary digits -/

section Results
variable {w w' : Nat} (n : BitVec w)

theorem highBit_eq_size : highBit n = n.toNat.size :=
  eq_of_forall_ge_iff fun k => (highBit_le_iff n k).trans Nat.size_le.symm

theorem highBit_setWidth (h : w ≤ w') : highBit (n.setWidth w') = highBit n := by
  rw [highBit_eq_size, highBit_eq_size, BitVec.toNat_setWidth_of_le h]

theorem highBit_of_toNat_eq_two_pow {k : Nat} (h : n.toNat = 2 ^ k) : highBit n = k + 1 := by
  rw [highBit_eq_size, h, Nat.size_pow]

theorem highBit_pos (h : n.toNat ≠ 0) : 0 < highBit n :=
  Nat.pos_of_ne_zero (mt (highBit_eq_zero_iff n).1 h)

theorem leadingZeros_add_highBit : leadingZeros n + highBit n = w := Nat.sub_add_cancel (highBit_le_width n)

theorem width_sub_leadingZeros : w - leadingZeros n = highBit n := Nat.sub_sub_self (highBit_le_width n)

/-- R103: the least number of bytes that holds `HIGHBIT` bits. -/
theorem sigBytes_eq (whole : 8 ∣ w) : sigBytes n = (highBit n + 7) / 8 := by
  have bytes : IsLeast {k | n.toNat < 2 ^ (8 * k)} ((highBit n + 7) / 8) := by
    simp only [← highBit_le_iff]
    exact ⟨show highBit n ≤ 8 * ((highBit n + 7) / 8) by omega, fun k (hk : highBit n ≤ 8 * k) => by omega⟩
  exact (isLeast_sigBytes n whole).unique bytes

/-! ### CTZ -/

theorem trailingZeros_eq {k : Nat} (bit : n.toNat.testBit k = true) (below : ∀ j < k, n.toNat.testBit j = false) :
    trailingZeros n = k := by
  have not_zero : n.toNat ≠ 0 := fun zero => by simp [zero] at bit
  refine (isLeast_trailingZeros n not_zero).unique ⟨bit, fun j hj => Nat.le_of_not_lt fun hlt => ?_⟩
  exact absurd hj (by simp [below j hlt])

theorem testBit_of_lt_trailingZeros (h : n.toNat ≠ 0) {j : Nat} (hj : j < trailingZeros n) :
    n.toNat.testBit j = false :=
  Bool.eq_false_iff.2 fun bit => absurd ((isLeast_trailingZeros n h).2 bit) (Nat.not_le.2 hj)

theorem trailingZeros_le : trailingZeros n ≤ w := by
  by_cases zero : n.toNat = 0
  · exact (trailingZeros_of_toNat_eq_zero n zero).le
  · have bit : n.toNat.testBit (trailingZeros n) = true := (isLeast_trailingZeros n zero).1
    rw [BitVec.testBit_toNat] at bit
    exact (BitVec.lt_of_getLsbD bit).le

theorem trailingZeros_setWidth (h : w ≤ w') (not_zero : n.toNat ≠ 0) :
    trailingZeros (n.setWidth w') = trailingZeros n := by
  have same := BitVec.toNat_setWidth_of_le (b := n) h
  have wide := isLeast_trailingZeros (n.setWidth w') (same ▸ not_zero)
  rw [same] at wide
  exact wide.unique (isLeast_trailingZeros n not_zero)

/-- R101: one bit is set, above bit 0, exactly when the lowest set bit is the highest. -/
theorem isPow2_iff_trailingZeros :
    isPow2 n = true ↔ n ≠ 0 ∧ trailingZeros n + 1 = highBit n ∧ 2 ≤ highBit n := by
  rw [isPow2_iff_exists_pow]
  constructor
  · rintro ⟨k, one_le, hk⟩
    have highest := highBit_of_toNat_eq_two_pow n hk
    have lowest : trailingZeros n = k :=
      trailingZeros_eq n (by rw [hk, Nat.testBit_two_pow_self]) fun j hj => by
        rw [hk, Nat.testBit_two_pow_of_ne (by omega)]
    refine ⟨?_, by omega, by omega⟩
    rintro rfl
    exact absurd hk.symm (by simp)
  · rintro ⟨not_zero, one_bit, two_le⟩
    have not_zero : n.toNat ≠ 0 := fun zero => not_zero (BitVec.eq_of_toNat_eq zero)
    refine ⟨trailingZeros n, by omega, Nat.eq_of_testBit_eq fun j => ?_⟩
    rcases Nat.lt_trichotomy j (trailingZeros n) with below | rfl | above
    · rw [testBit_of_lt_trailingZeros n not_zero below, Nat.testBit_two_pow_of_ne (by omega)]
    · rw [Nat.testBit_two_pow_self]
      exact (isLeast_trailingZeros n not_zero).1
    · rw [testBit_of_highBit_le n (by omega), Nat.testBit_two_pow_of_ne (by omega)]

/-! ### CLOG2 -/

theorem ceilLog2_le : ceilLog2 n ≤ w := by
  rcases Nat.lt_or_ge n.toNat (2 ^ (w - 1)) with below | top
  · exact (isLeast_ceilLog2 n below).2 n.isLt.le
  · exact (ceilLog2_of_top n top).le

/-- R105: `n ≤ 2^k` exactly when `n - 1 < 2^k`. -/
theorem ceilLog2_eq_highBit_pred (one_le : 1 ≤ n.toNat) (below : n.toNat < 2 ^ (w - 1)) :
    ceilLog2 n = highBit (n - 1) := by
  have one_toNat : (1 : BitVec w).toNat = 1 := Nat.mod_eq_of_lt (one_le.trans_lt n.isLt)
  have pred_toNat : (n - 1).toNat = n.toNat - 1 := by
    rw [BitVec.toNat_sub_of_le (by rw [BitVec.le_def, one_toNat]; exact one_le), one_toNat]
  refine (isLeast_ceilLog2 n below).unique ?_
  have same : ∀ k, n.toNat ≤ 2 ^ k ↔ highBit (n - 1) ≤ k := fun k => by
    rw [highBit_le_iff, pred_toNat]
    omega
  simp only [same]
  exact isLeast_Ici

theorem ceilLog2_eq_zero (wide : 2 ≤ w) (h : n.toNat ≤ 1) : ceilLog2 n = 0 := by
  have below : n.toNat < 2 ^ (w - 1) := h.trans_lt (Nat.one_lt_two_pow (by omega))
  exact Nat.le_zero.1 ((isLeast_ceilLog2 n below).2 h)

end Results

/-! ### The halving reduction -/

/-- The shift amounts halve a width of `b` bits down to 1. -/
def Halves : Nat → List Nat → Prop
  | b, [] => b = 1
  | b, h :: hs => b = 2 * h ∧ Halves h hs

theorem halves_halvings (w : Width) : Halves w.bits (halvings w) := by
  cases w <;> simp [Halves, halvings, Width.bits]

/-- A shift that leaves something drops as many digits as it shifts. -/
theorem size_shiftRight {m h : Nat} (left : m >>> h ≠ 0) : m.size = h + (m >>> h).size := by
  refine eq_of_forall_ge_iff fun k => ?_
  have reach : 2 ^ h ≤ m := by
    rw [Nat.shiftRight_eq_div_pow] at left
    exact Nat.le_of_not_lt fun small => left (Nat.div_eq_of_lt small)
  rcases Nat.lt_or_ge k h with short | long
  · have : ¬ m.size ≤ k := by
      rw [Nat.size_le]
      exact Nat.not_lt.2 ((Nat.pow_le_pow_right (by decide) short.le).trans reach)
    omega
  · obtain ⟨d, rfl⟩ := Nat.exists_eq_add_of_le long
    rw [Nat.add_le_add_iff_left, Nat.size_le, Nat.size_le, Nat.shiftRight_eq_div_pow,
      Nat.div_lt_iff_lt_mul (Nat.two_pow_pos h), Nat.pow_add, Nat.mul_comm]

/-- R102's second definition: each round halves the width that still holds the number. -/
theorem highBitByHalving_eq_size {hs : List Nat} {b hb m : Nat} (halves : Halves b hs) (fits : m < 2 ^ b) :
    highBitByHalving hs hb m = hb + m.size := by
  induction hs generalizing b hb m with
  | nil =>
    obtain rfl : b = 1 := halves
    have digit : m.size = m := by
      interval_cases m <;> simp
    rw [highBitByHalving, digit]
  | cons h hs ih =>
    obtain ⟨rfl, rest⟩ := halves
    rw [highBitByHalving]
    split
    next left =>
      have fits : m >>> h < 2 ^ h := by
        rw [Nat.shiftRight_eq_div_pow, Nat.div_lt_iff_lt_mul (Nat.two_pow_pos h), ← Nat.pow_add, ← Nat.two_mul]
        exact fits
      rw [ih rest fits, size_shiftRight left, Nat.add_assoc]
    next nothing =>
      have fits : m < 2 ^ h := by
        rw [Nat.shiftRight_eq_div_pow, not_not, Nat.div_eq_zero_iff] at nothing
        exact nothing.resolve_left (Nat.two_pow_pos h).ne'
      exact ih rest fits

/-! ### The statements -/

/-- Settles O27: `CLZ` counts the bits from `HIGHBIT` up to `W`. -/
theorem clzCountsLeadingZeros : Obligations.ClzCountsLeadingZeros := by
  intro w rd rs1 s
  refine ⟨rfl, _, leadingZeros (s.readW w rs1), rfl, onlyX_writeNat .., getX_writeNat_same .., rfl, Nat.sub_le .., ?_⟩
  have sum := leadingZeros_add_highBit (s.readW w rs1)
  rw [← toNat_readW]
  refine ⟨fun zero => ?_, fun not_zero => ?_, fun j hj => ?_⟩
  · have := (highBit_eq_zero_iff _).2 zero
    omega
  · have pos := highBit_pos _ not_zero
    refine ⟨by omega, ?_⟩
    rw [show w.bits - 1 - leadingZeros (s.readW w rs1) = highBit (s.readW w rs1) - 1 by omega]
    exact testBit_highBit_sub_one _ not_zero
  · rw [width_sub_leadingZeros] at hj
    exact testBit_of_highBit_le _ hj

/-- Settles O28: `HIGHBIT` gives `SIGBYTES`, `CLOG2` and `CLZ`, and between widths only the operand's number counts. -/
theorem bitOpsIdentities : Obligations.BitOpsIdentities := by
  refine ⟨fun w n => ?_, fun w w' n narrower => ?_⟩
  · have whole := eight_dvd_bits w
    have wide : 2 ≤ w.bits := by cases w <;> decide
    have halving : highBitByHalving (halvings w) 0 n.toNat = highBit n := by
      rw [highBitByHalving_eq_size (halves_halvings w) n.isLt, highBit_eq_size, Nat.zero_add]
    exact ⟨leadingZeros_add_highBit n, sigBytes_eq n whole, isPow2_iff_trailingZeros n,
      fun two_le => ceilLog2_eq_highBit_pred n (by omega), ceilLog2_eq_zero n wide, ceilLog2_of_top n,
      highBit_le_width n, (sigBytes_le n whole).trans (Nat.div_le_self ..), trailingZeros_le n, ceilLog2_le n,
      Nat.sub_le .., halving⟩
  · have highest := highBit_setWidth n narrower.le
    have sum := leadingZeros_add_highBit n
    have wideSum := leadingZeros_add_highBit (n.setWidth w'.bits)
    refine ⟨highest, ?sigBytes, by omega, fun not_zero => ?trailing, fun zero => ?zero⟩
    case sigBytes => rw [sigBytes_eq _ (eight_dvd_bits w'), sigBytes_eq _ (eight_dvd_bits w), highest]
    case trailing =>
      exact trailingZeros_setWidth n narrower.le fun zero => not_zero (BitVec.eq_of_toNat_eq zero)
    case zero => exact trailingZeros_of_toNat_eq_zero _ (by simp [zero])

end Sys2Proof.Machine
end

section
/-!
The Mask unit, continued (41_mask.md sections 2, 4, 5 and 7): `IFSET`, what `SELN` copies where its buffers do not
overlap the wrong way, the laws of the unit's functions, and the top-bit formulas of R134.
-/

namespace Sys2Proof.Machine

/-! ### The unit's functions -/

section Functions
variable {w : Nat} (p q : BitVec w)

theorem expand_and (k : Bool) : expand w k &&& p = if k then p else 0 := by
  cases k
  · exact BitVec.zero_and
  · exact BitVec.allOnes_and

theorem isLte_eq_not_isGt : isLte p q = !isGt p q := by
  rw [Bool.eq_iff_iff, Bool.not_eq_true', ← Bool.not_eq_true, isLte_iff, isGt_iff, gt_iff_lt, Nat.not_lt]

theorem isGte_eq_not_isLt : isGte p q = !isLt p q := by
  rw [Bool.eq_iff_iff, Bool.not_eq_true', ← Bool.not_eq_true, isGte_iff, isLt_iff, ge_iff_le, Nat.not_lt]

/-- R136: what R135 gives with a second source of 0. -/
theorem expand_and_eq_selectBits (k : Bool) : expand w k &&& p = selectBits (expand w k) p 0 := by
  rw [expand_and, selectBits_expand]

end Functions

theorem readW_eq_zero {s : State} {w : Width} {r : XReg} (h : operandNat s w r = 0) : s.readW w r = 0 :=
  BitVec.eq_of_toNat_eq ((toNat_readW s w r).trans h)

/-! ### What SELN copies -/

/-- The loop reads each element of the chosen source before it has overwritten it, unless the destination starts inside
that source: below it, the elements written lie below the one read next; after its end, outside it. -/
theorem memGet_selectLoop_copied {n : Nat} {set : Bool} {d x y : Nat} {bus : Bus} {len : Nat}
    (apart : d ≤ (if set then x else y) ∨ (if set then x else y) + len * n ≤ d) {j : Nat} (hj : j < len * n) :
    memGet (selectLoop n set len d x y bus).mem (d + j) = memGet bus.mem ((if set then x else y) + j) := by
  generalize hsrc : (if set then x else y) = src at apart ⊢
  induction len with
  | zero => omega
  | succ len ih =>
    rw [Nat.succ_mul] at apart hj
    rcases Nat.lt_or_ge j (len * n) with earlier | last
    · rw [memGet_selectLoop_succ_outside len (.inl (by omega))]
      exact ih earlier (by omega)
    · obtain ⟨i, rfl⟩ := Nat.exists_eq_add_of_le last
      rw [← Nat.add_assoc, memGet_selectLoop_succ len (by omega : i < n), hsrc, ← Nat.add_assoc]
      exact selectLoop_outside _ _ _ _ _ _ _ _ (by omega)

section Seln
variable {w : Width} {ms : MReg} {rpd rpx rpy rlen : XReg} {s : State}

theorem onlyBytes_selnBus : OnlyBytes (bufAddr s rpd) (bufBytes s w rlen) s
    (s.withBus (selnBus w ms rpd rpx rpy rlen s)) :=
  onlyBytes_withBus fun _ outside => selectLoop_outside _ _ _ _ _ _ _ _ outside

/-- The address of the chosen source. -/
theorem bufAddr_ite (k : Bool) : bufAddr s (if k then rpx else rpy) = if k then bufAddr s rpx else bufAddr s rpy :=
  apply_ite (bufAddr s) _ _ _

end Seln

/-! ### The top-bit formulas -/

section TopBit
variable {w : Nat} (p q : BitVec w) (wide : 0 < w)

theorem top_eq_msb : top p = p.msb := (BitVec.msb_eq_getLsbD_last p).symm

theorem isEq_eq_isZero_xor : isEq p q = isZero (p ^^^ q) := decide_eq_decide.2 BitVec.xor_eq_zero_iff.symm

include wide

/-- With equal top bits the difference borrows exactly when the first operand is below the second. -/
theorem msb_sub_of_msb_eq (same : p.msb = q.msb) : (p - q).msb = decide (p.toNat < q.toNat) := by
  have hp := p.isLt
  have hq := q.isLt
  have twice : 2 * 2 ^ (w - 1) = 2 ^ w := mul_pow_sub_one wide.ne' 2
  rw [BitVec.msb_eq_decide, BitVec.msb_eq_decide, decide_eq_decide] at same
  rw [BitVec.msb_eq_decide, decide_eq_decide, BitVec.toNat_sub]
  rcases Nat.lt_or_ge p.toNat q.toNat with below | above
  · rw [Nat.mod_eq_of_lt (by omega)]
    omega
  · have wraps : 2 ^ w - q.toNat + p.toNat = 2 ^ w + (p.toNat - q.toNat) := by omega
    rw [wraps, Nat.add_mod_left, Nat.mod_eq_of_lt (by omega)]
    omega

/-- With different top bits the operand whose top bit is set is the greater one; with equal ones the borrow decides. -/
theorem topIsLt_eq : topIsLt p q = isLt p q := by
  have formula : topIsLt p q = (p.msb ^^ ((p.msb ^^ q.msb) || ((p - q).msb ^^ p.msb))) := by
    simp only [topIsLt, top_eq_msb, BitVec.msb_xor, BitVec.msb_or]
  rw [formula, isLt]
  by_cases same : p.msb = q.msb
  · rw [msb_sub_of_msb_eq p q wide same, same]
    cases q.msb <;> simp
  · have p_half := BitVec.msb_eq_true_iff_two_mul_ge (x := p)
    have q_half := BitVec.msb_eq_true_iff_two_mul_ge (x := q)
    have differ : p.msb = !q.msb := Bool.eq_not_of_ne same
    rw [differ] at p_half ⊢
    cases top : q.msb <;> simp [top] at p_half q_half ⊢ <;> omega

end TopBit

/-- Only 0 has its top bit clear and that of its predecessor set: `v - 1` borrows from bit `W` for 0 alone. -/
theorem topIsZero_eq {w : Nat} (p : BitVec w) (wide : 1 < w) : topIsZero p = isZero p := by
  have formula : topIsZero p = (!p.msb && (p - 1).msb) := by
    simp only [topIsZero, top_eq_msb, BitVec.msb_and, BitVec.msb_not, Nat.zero_lt_of_lt wide, decide_true,
      Bool.true_and]
  rw [formula]
  cases top : p.msb with
  | true =>
    have not_zero : isZero p = false := decide_eq_false (by rintro rfl; simp at top)
    rw [not_zero]
    rfl
  | false =>
    have one_top : (1 : BitVec w).msb = false := by simp [wide.ne']
    have one_toNat : (1 : BitVec w).toNat = 1 := BitVec.toNat_one (Nat.zero_lt_of_lt wide)
    rw [msb_sub_of_msb_eq p 1 (Nat.zero_lt_of_lt wide) (top.trans one_top.symm), one_toNat]
    exact Bool.eq_iff_iff.2 (decide_eq_true_iff.trans (Nat.lt_one_iff.trans (isZero_iff p).symm))

/-! ### The statements -/

/-- Settles O33: the mask keeps or clears the operand, as `SEL` does with 0. -/
theorem ifsetGivesTheOperandOrZero : Obligations.IfsetGivesTheOperandOrZero := by
  intro w rd ms rs1 rs2 s
  refine ⟨rfl, _, rfl, onlyX_writeW .., fun set => ?_, fun cleared => ?_, fun zero => ?_⟩
  · rw [toNat_getX_writeW, expand_and, if_pos set, toNat_readW]
  · refine BitVec.eq_of_toNat_eq ?_
    rw [toNat_getX_writeW, expand_and, cleared]
    rfl
  · show execSel w rd ms rs1 rs2 s = _
    rw [execSel, readW_eq_zero zero, ← expand_and_eq_selectBits]

/-- Settles O34: outside the overlap left out, no element is overwritten before it is read. -/
theorem selnCopiesTheChosenBuffer : Obligations.SelnCopiesTheChosenBuffer := by
  intro w ms rpd rpx rpy rlen s hd hx hy
  refine ⟨_, exec_seln hd hx hy, onlyBytes_selnBus, ?_⟩
  intro src apart j hj
  rw [bufEnd_eq, bufAddr_ite] at apart
  exact memGet_selectLoop_copied apart hj

/-- Settles O37: each law is one of natural numbers, or of a mask that is all ones or 0. -/
theorem maskLaws : Obligations.MaskLaws := by
  intro w p q v k
  refine ⟨?trichotomy, ?lte, ?gte, isGte_eq_not_isLt p q, isLte_eq_not_isGt p q, isNonZero_eq_not_isZero v,
    isEq_eq_isZero_xor p q, ?expand, selectBits_expand p q true, selectBits_expand p q false,
    expand_and_eq_selectBits p k⟩
  case trichotomy =>
    simp only [← Bool.not_eq_true, isLt_iff, isEq_iff, isGt_iff]
    omega
  case expand =>
    rw [toNat_expand]
    cases k
    exacts [.inl rfl, .inr rfl]
  case lte =>
    rw [Bool.eq_iff_iff, Bool.or_eq_true, isLte_iff, isLt_iff, isEq_iff]
    omega
  case gte =>
    rw [Bool.eq_iff_iff, Bool.or_eq_true, isGte_iff, isGt_iff, isEq_iff]
    omega

/-- Settles O38: two formulas compute zero and less, and the others follow from these. -/
theorem topBitFormulasAreTheComparisons : Obligations.TopBitFormulasAreTheComparisons := by
  intro w p q
  have wide : 1 < w.bits := by cases w <;> decide
  have lt := topIsLt_eq p q (by omega)
  have gt : topIsGt p q = isGt p q := topIsLt_eq q p (by omega)
  refine ⟨topIsZero_eq p wide, lt, ?eq, gt, ?lte, ?gte, ?nonZero⟩
  case eq => rw [topIsEq, topIsZero_eq _ wide, isEq_eq_isZero_xor]
  case lte => rw [topIsLte, gt, isLte_eq_not_isGt]
  case gte => rw [topIsGte, lt, isGte_eq_not_isLt]
  case nonZero => rw [topIsNonZero, topIsZero_eq p wide, isNonZero_eq_not_isZero]

end Sys2Proof.Machine
end

section
/-!
The Wide unit, continued (42_wide.md section 2, R166 and R167): the 64-bit windows of `WCSH` and `WCMB`.
-/

namespace Sys2Proof.Machine

section Windows
variable {hasV8 : Bool} {s : State} {rd ws ws1 ws2 rsh rsh1 rsh2 : XReg}

theorem wellFormed_wcsh : (Instr.wcsh rd ws rsh).WellFormed hasV8 ↔ EvenReg ws := by
  simpa using wellFormed_iff_evenReg (i := .wcsh rd ws rsh) [ws] rfl

theorem wellFormed_wcmb : (Instr.wcmb rd ws1 rsh1 ws2 rsh2).WellFormed hasV8 ↔ EvenReg ws1 ∧ EvenReg ws2 := by
  simpa using wellFormed_iff_evenReg (i := .wcmb rd ws1 rsh1 ws2 rsh2) [ws1, ws2] rfl

/-- R166: the low half of the value shifted right. -/
theorem toNat_shiftedWindow (a : Nat) :
    ((s.getWide ws >>> a).setWidth 64).toNat = wideNat s ws / 2 ^ a % 2 ^ 64 := by
  rw [BitVec.toNat_setWidth, BitVec.toNat_ushiftRight, Nat.shiftRight_eq_div_pow, toNat_getWide]

/-- R167: the bits a left shift drops from 128 lie above the low half. -/
theorem toNat_combinedWindow (a b : Nat) :
    ((s.getWide ws1 >>> a ||| s.getWide ws2 <<< b).setWidth 64).toNat =
      (wideNat s ws1 / 2 ^ a ||| wideNat s ws2 * 2 ^ b) % 2 ^ 64 := by
  rw [BitVec.setWidth_or, BitVec.toNat_or, toNat_shiftedWindow, BitVec.toNat_setWidth, BitVec.toNat_shiftLeft,
    Nat.shiftLeft_eq, toNat_getWide, Nat.mod_mod_of_dvd _ (Nat.pow_dvd_pow 2 (by decide : 64 ≤ 128)),
    Nat.or_mod_two_pow]

theorem bothShiftsOk_iff :
    (shiftOk s rsh1 && shiftOk s rsh2) = true ↔ (s.getX rsh1).toNat < 64 ∧ (s.getX rsh2).toNat < 64 := by
  rw [Bool.and_eq_true, shiftOk_iff, shiftOk_iff]

end Windows

/-- Settles O43: the checks of the wide fields and of the amounts, then the low half of the shifted values. -/
theorem wideWindows : Obligations.WideWindows := by
  intro rd ws1 rsh1 ws2 rsh2 s
  refine ⟨rfl, rfl, fun even amount => ?wcsh, fun even large => ?wcshLarge, fun odd => ?wcshOdd,
    fun even amounts => ?wcmb, fun even large => ?wcmbLarge, fun odd => ?wcmbOdd⟩
  case wcsh =>
    refine ⟨_, whenLegal_whenArgs_pos (wellFormed_wcsh.2 even) (shiftOk_iff.2 amount) _, onlyX_setX .., ?_⟩
    rw [getX_setX_same, toNat_shiftedWindow, shiftAmount]
  case wcshLarge =>
    exact whenLegal_whenArgs_neg (wellFormed_wcsh.2 even) (mt shiftOk_iff.1 (Nat.not_lt.2 large)) _
  case wcshOdd => exact whenLegal_neg (mt wellFormed_wcsh.1 odd) _
  case wcmb =>
    refine ⟨_, whenLegal_whenArgs_pos (wellFormed_wcmb.2 even) (bothShiftsOk_iff.2 amounts) _, onlyX_setX .., ?_⟩
    rw [getX_setX_same, toNat_combinedWindow, shiftAmount, shiftAmount]
  case wcmbLarge =>
    exact whenLegal_whenArgs_neg (wellFormed_wcmb.2 even) (mt bothShiftsOk_iff.1 (by omega)) _
  case wcmbOdd => exact whenLegal_neg (mt wellFormed_wcmb.1 odd) _

end Sys2Proof.Machine
end

section
/-!
The SIMD unit, continued (43_simd.md sections 3 to 10): the laws of the functions of one lane, the shifts, `VANDC`,
`VRHO` and `VTRN8`, the transpose done twice, and the round trips of vector loads and stores.
-/

namespace Sys2Proof.Machine

/-! ### A lane and its bytes -/

theorem lane_ext {u v : Lane} (same : ∀ j < 4, laneByte u j = laneByte v j) : u = v := by
  apply BitVec.eq_of_getLsbD_eq
  intro i hi
  have bit := congrArg (fun b => b.getLsbD (i % 8)) (same (i / 8) (by omega))
  have low : i % 8 < 8 := Nat.mod_lt _ (by decide)
  simpa [laneByte, BitVec.getLsbD_extractLsb', low, Nat.div_add_mod] using bit

theorem laneOfLE_bytesLE (u : Lane) : laneOfLE (bytesLE u) = u := by
  refine lane_ext fun j hj => (extractLsb'_bytes _ _ _ _ hj).trans ?_
  interval_cases j <;> rfl

/-- The same four bytes, joined in the same places. -/
theorem laneOfBE_bytesBE (u : Lane) : laneOfBE (bytesBE u) = u := laneOfLE_bytesLE u

theorem laneOfBE_bytesLE (u : Lane) : laneOfBE (bytesLE u) = bswap32 u := rfl

theorem bswap32_bswap32 (u : Lane) : bswap32 (bswap32 u) = u := by
  refine lane_ext fun j hj => ?_
  rw [laneByte_bswap32 _ hj, laneByte_bswap32 _ (by omega), Nat.sub_sub_self (by omega)]

/-! ### Rotations -/

theorem rotl32_eq_rotr32 (u : Lane) {n n' : Nat} (sum : n + n' = 32) : rotl32 u n = rotr32 u n' := by
  obtain rfl : n = 32 - n' := by omega
  rw [rotl32, rotr32, BitVec.or_comm, Nat.sub_sub_self (by omega)]

theorem rho32_swap12 (u : Lane) (r1 r2 r3 : Nat) : rho32 u r1 r2 r3 = rho32 u r2 r1 r3 := by
  rw [rho32, rho32, BitVec.xor_comm (rotr32 u r1)]

theorem rho32_swap23 (u : Lane) (r1 r2 r3 : Nat) : rho32 u r1 r2 r3 = rho32 u r1 r3 r2 := by
  rw [rho32, rho32, BitVec.xor_assoc, BitVec.xor_comm (rotr32 u r2), BitVec.xor_assoc]

/-- Two equal rotations cancel. -/
theorem rho32_self (u : Lane) (r r3 : Nat) : rho32 u r r r3 = rotr32 u r3 := by
  rw [rho32, BitVec.xor_self, BitVec.zero_xor]

theorem rho32_eq_rotateRight (u : Lane) (r1 r2 r3 : BitVec 5) :
    rho32 u r1.toNat r2.toNat r3.toNat =
      u.rotateRight r1.toNat ^^^ u.rotateRight r2.toNat ^^^ u.rotateRight r3.toNat := by
  rw [rho32, rotr32_eq_rotateRight, rotr32_eq_rotateRight, rotr32_eq_rotateRight]

/-! ### When a vector command is legal -/

section Legal
variable {s : State} {l : Lanes} {vd vs1 t0 t1 t2 t3 t4 t5 t6 t7 : VReg} {r1 r2 r3 : BitVec 5}

theorem wellFormed_vrho :
    (Instr.vrho l vd vs1 r1 r2 r3).WellFormed s.hasV8 ↔ LanesExist s l ∧ r1 ≠ 0 ∧ r2 ≠ 0 ∧ r3 ≠ 0 := by
  rw [Instr.WellFormed, Instr.illegality, Option.or_eq_none_iff, lanesCheck_eq_none, amountCheck_eq_none]
  simp

theorem wellFormed_vtrn8 : (Instr.vtrn8 t0 t1 t2 t3 t4 t5 t6 t7).WellFormed s.hasV8 ↔
    s.hasV8 = true ∧ [t0, t1, t2, t3, t4, t5, t6, t7].Nodup := by
  rw [Instr.WellFormed, Instr.illegality, Option.or_eq_none_iff, lanesCheck_eq_none, differentCheck_eq_none,
    allDifferent_iff_nodup]
  simp [LanesExist]

end Legal

/-! ### The transpose, twice -/

section Transpose
variable {l : Lanes} {regs : List VReg} {i : Instr} {s t u : State}

/-- Lane `k` of `B_j` comes from lane `j` of `B_k`, and that one from lane `k` of `B_j`; other lanes never move. -/
theorem getLane_transpose_transpose (different : regs.Nodup) (square : regs.length = l.count) (r : VReg) (k : Fin 8) :
    (transpose l regs (transpose l regs s)).getLane r k = s.getLane r k := by
  by_cases named : r ∈ regs ∧ k.val < l.count
  · obtain ⟨member, hk⟩ := named
    obtain ⟨j, hj, rfl⟩ := List.getElem_of_mem member
    have count_le : l.count ≤ 8 := by cases l <;> decide
    have twice := getLane_transpose different (transpose l regs s) (i := k) (j := ⟨j, by omega⟩) hk hj
    rw [getLane_transpose different s (square ▸ hj : j < l.count) (square.symm ▸ hk),
      List.getD_eq_getElem _ _ hj] at twice
    exact twice
  · have untouched : r ∉ regs ∨ l.count ≤ k.val := by
      rw [not_and_or, Nat.not_lt] at named
      exact named
    obtain ⟨-, -, once, -⟩ := onlyV_transpose l regs s
    obtain ⟨-, -, again, -⟩ := onlyV_transpose l regs (transpose l regs s)
    rw [again r k untouched, once r k untouched]

/-- A command that is a transpose when it is legal, run twice. -/
theorem transpose_twice (meaning : ∀ s, exec i s = whenLegal i s (.next (transpose l regs s)))
    (different : regs.Nodup) (square : regs.length = l.count) (legal : i.WellFormed s.hasV8)
    (first : exec i s = .next t) (second : exec i t = .next u) :
    (∀ r k, u.getLane r k = s.getLane r k) ∧ SameError s u := by
  obtain ⟨-, -, -, -, -, hasV8, -⟩ := onlyV_transpose l regs s
  rw [meaning, whenLegal_pos legal] at first
  cases first
  rw [meaning, whenLegal_pos (hasV8 ▸ legal)] at second
  cases second
  obtain ⟨status, errcmd⟩ := sameError_transpose l regs s
  obtain ⟨status', errcmd'⟩ := sameError_transpose l regs (transpose l regs s)
  exact ⟨getLane_transpose_transpose different square, status'.trans status, errcmd'.trans errcmd⟩

end Transpose

/-! ### Vector loads and stores -/

section Transfer
variable {s : State} {l : Lanes} {v : VReg} {imm imm' : BitVec 12} {rs1 rs1' : XReg}

/-- The state after a vector load. -/
def afterLoad (order : List Byte → Lane) (l : Lanes) (vd : VReg) (imm : BitVec 12) (rs1 : XReg) (s : State) : State :=
  s.setLanes l vd (laneAt (loadRun order l imm rs1 s).1)

/-- The state after a vector store. -/
def afterStore (order : Lane → List Byte) (l : Lanes) (vs : VReg) (imm : BitVec 12) (rs1 : XReg) (s : State) : State :=
  s.withBus (storeRun order l vs imm rs1 s)

section Exec
variable (types : LanesExist s l) (inside : vecEnd s l imm rs1 ≤ s.memSize)
include types inside

theorem exec_vldle : exec (.vldle l v imm rs1) s = .next (afterLoad laneOfLE l v imm rs1 s) :=
  whenLegal_whenInRange_pos rfl types inside _

theorem exec_vldbe : exec (.vldbe l v imm rs1) s = .next (afterLoad laneOfBE l v imm rs1 s) :=
  whenLegal_whenInRange_pos rfl types inside _

theorem exec_vstle : exec (.vstle l v imm rs1) s = .next (afterStore bytesLE l v imm rs1 s) :=
  whenLegal_whenInRange_pos rfl types inside _

theorem exec_vstbe : exec (.vstbe l v imm rs1) s = .next (afterStore bytesBE l v imm rs1 s) :=
  whenLegal_whenInRange_pos rfl types inside _

end Exec

section Orders
variable {join : List Byte → Lane} {split : Lane → List Byte} (four : ∀ u, (split u).length = 4)
include four

/-- The bytes a stored lane reads as are the lane's. -/
theorem memRead_storeRun {k : Fin 8} (hk : k.val < l.count) :
    memRead (storeRun split l v imm rs1 s).mem ((s.getX rs1).toNat + imm.toNat + 4 * k.val) 4 =
      split (s.getLane v k) := by
  refine List.ext_getElem (by rw [memRead_length, four]) fun j hj _ => ?_
  rw [memRead_length] at hj
  rw [← List.getD_eq_getElem _ 0, ← List.getD_eq_getElem _ 0, List.getD_eq_getElem?_getD, memRead_getElem?, if_pos hj,
    Option.getD_some, memGet_storeRun_inside four hk hj]

/-- A load from where a vector was stored, in an order that joins what the store has split. -/
theorem getLane_load_store (inverse : ∀ u, join (split u) = u) {u : VReg} {k : Fin 8} (hk : k.val < l.count) :
    (afterLoad join l u imm rs1 (afterStore split l v imm rs1 s)).getLane u k = s.getLane v k := by
  rw [afterLoad, getLane_setLanes_written _ hk, laneAt_loadRun _ hk]
  exact (congrArg join (memRead_storeRun four hk)).trans (inverse _)

/-- A store of a vector just loaded moves each lane's bytes, `place` telling where byte `j` comes from. -/
theorem memGet_store_load {place : Nat → Nat}
    (moved : ∀ mem a j, j < 4 → (split (join (memRead mem a 4))).getD j 0 = memGet mem (a + place j))
    {k : Nat} (hk : k < l.count) {j : Nat} (hj : j < 4) :
    memGet (afterStore split l v imm' rs1' (afterLoad join l v imm rs1 s)).mem
        ((s.getX rs1').toNat + imm'.toNat + 4 * k + j) =
      memGet s.mem ((s.getX rs1).toNat + imm.toNat + 4 * k + place j) := by
  have count_le : l.count ≤ 8 := by cases l <;> decide
  have stored := memGet_storeRun_inside (s := afterLoad join l v imm rs1 s) (vs := v) (imm := imm') (rs1 := rs1') four
    (k := ⟨k, by omega⟩) hk hj
  rw [afterLoad, getLane_setLanes_written _ hk, laneAt_loadRun _ hk, moved _ _ _ hj] at stored
  exact stored

/-- In one byte order the bytes come out as they went in. -/
theorem memGet_store_load_same
    (moved : ∀ mem a j, j < 4 → (split (join (memRead mem a 4))).getD j 0 = memGet mem (a + j))
    {j : Nat} (hj : j < 4 * l.count) :
    memGet (afterStore split l v imm' rs1' (afterLoad join l v imm rs1 s)).mem
        ((s.getX rs1').toNat + imm'.toNat + j) = memGet s.mem ((s.getX rs1).toNat + imm.toNat + j) := by
  have lane := memGet_store_load (s := s) (v := v) (imm := imm) (imm' := imm') (rs1 := rs1) (rs1' := rs1') four moved
    (by omega : j / 4 < l.count) (Nat.mod_lt j (by decide : 4 > 0))
  have index : ∀ a, a + 4 * (j / 4) + j % 4 = a + j := fun a => by omega
  rw [index, index] at lane
  exact lane

end Orders

theorem bytesLE_laneOfLE (mem : List Host.Cell) (a j : Nat) (hj : j < 4) :
    (bytesLE (laneOfLE (memRead mem a 4))).getD j 0 = memGet mem (a + j) := by
  rw [bytesLE_getD _ hj, laneByte_laneOfLE _ _ hj]

theorem bytesBE_laneOfBE (mem : List Host.Cell) (a j : Nat) (hj : j < 4) :
    (bytesBE (laneOfBE (memRead mem a 4))).getD j 0 = memGet mem (a + j) := by
  rw [bytesBE_getD _ hj, laneByte_laneOfBE _ _ hj]

theorem bytesBE_laneOfLE (mem : List Host.Cell) (a j : Nat) (hj : j < 4) :
    (bytesBE (laneOfLE (memRead mem a 4))).getD j 0 = memGet mem (a + (3 - j)) := by
  rw [bytesBE_getD _ hj, laneByte_laneOfLE _ _ (by omega)]

end Transfer

/-! ### The statements -/

/-- Settles O47: a lane's bytes are joined and split again, in one order or in two. -/
theorem vectorRoundTrips : Obligations.VectorRoundTrips := by
  intro l v u imm imm' rs1 rs1' s types inside inside'
  exact ⟨⟨_, _, exec_vldle types inside, exec_vstle (s := afterLoad ..) types inside',
      fun _ => memGet_store_load_same bytesLE_length bytesLE_laneOfLE⟩,
    ⟨_, _, exec_vldbe types inside, exec_vstbe (s := afterLoad ..) types inside',
      fun _ => memGet_store_load_same bytesBE_length bytesBE_laneOfBE⟩,
    ⟨_, _, exec_vstle types inside, exec_vldle (s := afterStore ..) types inside,
      fun _ => getLane_load_store bytesLE_length laneOfLE_bytesLE⟩,
    ⟨_, _, exec_vstbe types inside, exec_vldbe (s := afterStore ..) types inside,
      fun _ => getLane_load_store bytesBE_length laneOfBE_bytesBE⟩,
    ⟨_, _, exec_vldle types inside, exec_vstbe (s := afterLoad ..) types inside',
      fun _ hk _ => memGet_store_load bytesBE_length bytesBE_laneOfLE hk⟩⟩

/-- Settles O51: `BitVec` shifts at width 32, the amount below 32. -/
theorem vectorShifts : Obligations.VectorShifts := by
  intro l vd vs1 n s
  refine ⟨rfl, rfl, fun types amount => ⟨?vshl, ?vshr⟩, fun bad => ?bad⟩
  case vshl =>
    refine ⟨_, whenLegal_pos ((wellFormed_iff_amount rfl).2 ⟨types, amount⟩) _, onlyV_setLanes .., fun k hk => ?_⟩
    rw [getLane_mapLanes_written _ hk, BitVec.toNat_shiftLeft, Nat.shiftLeft_eq]
  case vshr =>
    refine ⟨_, whenLegal_pos ((wellFormed_iff_amount rfl).2 ⟨types, amount⟩) _, onlyV_setLanes .., fun k hk => ?_⟩
    rw [getLane_mapLanes_written _ hk, BitVec.toNat_ushiftRight, Nat.shiftRight_eq_div_pow]
  case bad =>
    have illegal : ¬ (LanesExist s l ∧ n ≠ 0) := by tauto
    exact ⟨whenLegal_neg (mt (wellFormed_iff_amount rfl).1 illegal) _,
      whenLegal_neg (mt (wellFormed_iff_amount rfl).1 illegal) _⟩

/-- Settles O53: all 64 lanes are read from the old state before any is written. -/
theorem vtrn8Transposes : Obligations.Vtrn8Transposes := by
  intro t0 t1 t2 t3 t4 t5 t6 t7 s
  refine ⟨rfl, fun legal => ?transposed, fun illegal => whenLegal_neg (mt wellFormed_vtrn8.1 illegal) _⟩
  case transposed =>
    obtain ⟨hasV8, different⟩ := legal
    exact ⟨_, whenLegal_pos (wellFormed_vtrn8.2 ⟨hasV8, different⟩) _, onlyV_transpose ..,
      fun i j => getLane_transpose different s i.isLt j.isLt⟩

/-- Settles O54: a legal transpose is square and names different registers, and keeps `HAS_V8`. -/
theorem transposeTwiceIsIdentity : Obligations.TransposeTwiceIsIdentity := by
  intro i s t u legal form first second
  rcases form with ⟨va, vb, vc, vd, rfl⟩ | ⟨t0, t1, t2, t3, t4, t5, t6, t7, rfl⟩
  · exact transpose_twice (fun _ => rfl) (wellFormed_vtrn4.1 legal) rfl legal first second
  · obtain ⟨-, different⟩ := wellFormed_vtrn8.1 legal
    exact transpose_twice (fun _ => rfl) different rfl legal first second

/-- Settles O55: the rules' rotations are `BitVec` rotations since the amounts are below 32. -/
theorem vandcAndVrho : Obligations.VandcAndVrho := by
  intro l vd vs1 vs2 r1 r2 r3 s
  refine ⟨rfl, rfl, fun types => ?vandc, fun types amounts => ?vrho,
    fun absent => whenLegal_of_lanesAbsent rfl absent _, fun bad => whenLegal_neg (mt wellFormed_vrho.1 (by tauto)) _⟩
  case vandc =>
    refine ⟨_, whenLegal_of_lanesExist rfl types _, onlyV_setLanes .., fun k hk b hb => ?_⟩
    rw [getLane_zipLanes_written _ hk, BitVec.getLsbD_and, BitVec.getLsbD_not, decide_eq_true hb, Bool.true_and]
  case vrho =>
    refine ⟨_, whenLegal_pos (wellFormed_vrho.2 ⟨types, amounts⟩) _, onlyV_setLanes .., fun k hk => ?_⟩
    rw [getLane_mapLanes_written _ hk]
    refine ⟨rho32_eq_rotateRight .., ?_⟩
    rintro rfl
    rw [rho32_self, rotr32_eq_rotateRight]

/-- Settles O56: the swap is a law of bytes, the others laws of OR and XOR. -/
theorem laneLaws : Obligations.LaneLaws := by
  intro a n r1 r2 r3 _ hn _ _ _ _ _ _
  refine ⟨rotl32_eq_rotr32 a (by omega), rfl, bswap32_bswap32 a, ?_, rfl, rho32_swap12 .., rho32_swap23 ..⟩
  rw [laneOfLE_bytesLE, laneOfBE_bytesLE]

end Sys2Proof.Machine
end

section
/-!
Laws between vector commands (10_state.md R37, 43_simd.md section 10): what each command leaves as a function of the
state, the 8-lane forms against the 4-lane forms, and the runs of commands that undo or replace one another.
-/

namespace Sys2Proof.Machine

/-! ### What the commands of a run leave -/

section Exec
variable {s : State} {l : Lanes} {vd a b : VReg} {n r1 r2 r3 : BitVec 5} (types : LanesExist s l)
include types

theorem exec_vadd : exec (.vadd l vd a b) s = .next (zipLanes l vd a b (fun u v => u + v) s) :=
  whenLegal_of_lanesExist rfl types _

theorem exec_vsub : exec (.vsub l vd a b) s = .next (zipLanes l vd a b (fun u v => u - v) s) :=
  whenLegal_of_lanesExist rfl types _

theorem exec_vxor : exec (.vxor l vd a b) s = .next (zipLanes l vd a b (fun u v => u ^^^ v) s) :=
  whenLegal_of_lanesExist rfl types _

theorem exec_vor : exec (.vor l vd a b) s = .next (zipLanes l vd a b (fun u v => u ||| v) s) :=
  whenLegal_of_lanesExist rfl types _

theorem exec_vand : exec (.vand l vd a b) s = .next (zipLanes l vd a b (fun u v => u &&& v) s) :=
  whenLegal_of_lanesExist rfl types _

theorem exec_vandc : exec (.vandc l vd a b) s = .next (zipLanes l vd a b (fun u v => ~~~u &&& v) s) :=
  whenLegal_of_lanesExist rfl types _

theorem exec_vnot : exec (.vnot l vd a) s = .next (mapLanes l vd a (fun u => ~~~u) s) :=
  whenLegal_of_lanesExist rfl types _

theorem exec_vbswap : exec (.vbswap l vd a) s = .next (mapLanes l vd a bswap32 s) :=
  whenLegal_of_lanesExist rfl types _

theorem exec_vrotl (amount : n ≠ 0) :
    exec (.vrotl l vd a n) s = .next (mapLanes l vd a (fun u => rotl32 u n.toNat) s) :=
  whenLegal_pos ((wellFormed_iff_amount rfl).2 ⟨types, amount⟩) _

theorem exec_vrotr (amount : n ≠ 0) :
    exec (.vrotr l vd a n) s = .next (mapLanes l vd a (fun u => rotr32 u n.toNat) s) :=
  whenLegal_pos ((wellFormed_iff_amount rfl).2 ⟨types, amount⟩) _

theorem exec_vshl (amount : n ≠ 0) :
    exec (.vshl l vd a n) s = .next (mapLanes l vd a (fun u => u <<< n.toNat) s) :=
  whenLegal_pos ((wellFormed_iff_amount rfl).2 ⟨types, amount⟩) _

theorem exec_vshr (amount : n ≠ 0) :
    exec (.vshr l vd a n) s = .next (mapLanes l vd a (fun u => u >>> n.toNat) s) :=
  whenLegal_pos ((wellFormed_iff_amount rfl).2 ⟨types, amount⟩) _

theorem exec_vrho (amounts : r1 ≠ 0 ∧ r2 ≠ 0 ∧ r3 ≠ 0) :
    exec (.vrho l vd a r1 r2 r3) s = .next (mapLanes l vd a (fun u => rho32 u r1.toNat r2.toNat r3.toNat) s) :=
  whenLegal_pos (wellFormed_vrho.2 ⟨types, amounts⟩) _

end Exec

/-- A run completes when its first command does and the run of the others does from there. -/
theorem execAll_cons_eq {i : Instr} {is : List Instr} {s t : State} {u : Option State} (first : exec i s = .next t)
    (rest : execAll is t = u) : execAll (i :: is) s = u := (execAll_cons first).trans rest

section Runs
variable {s : State} {l : Lanes}

theorem mapLanes_other {vd a q : VReg} (f : Lane → Lane) (k : Fin 8) (other : q ≠ vd) :
    (mapLanes l vd a f s).getLane q k = s.getLane q k := by
  rw [getLane_mapLanes, if_neg fun h => other h.1]

theorem zipLanes_other {vd a b q : VReg} (f : Lane → Lane → Lane) (k : Fin 8) (other : q ≠ vd) :
    (zipLanes l vd a b f s).getLane q k = s.getLane q k := by
  rw [getLane_zipLanes, if_neg fun h => other h.1]

/-- Two commands of two sources, the second undoing the first: `b` is read again, so `p` must not be `b`. -/
theorem getLane_zip_zip {f g : Lane → Lane → Lane} (undo : ∀ u v, g (f u v) v = u) {a b p d : VReg} (differ : p ≠ b)
    {k : Fin 8} (hk : k.val < l.count) :
    (zipLanes l d p b g (zipLanes l p a b f s)).getLane d k = s.getLane a k := by
  rw [getLane_zipLanes_written _ hk, getLane_zipLanes_written _ hk, zipLanes_other _ _ differ.symm, undo]

theorem getLane_map_map {f : Lane → Lane} (undo : ∀ u, f (f u) = u) {a p d : VReg} {k : Fin 8} (hk : k.val < l.count) :
    (mapLanes l d p f (mapLanes l p a f s)).getLane d k = s.getLane a k := by
  rw [getLane_mapLanes_written _ hk, getLane_mapLanes_written _ hk, undo]

end Runs

/-! ### Eight lanes and four -/

/-- The 8-lane command left `t8`, its 4-lane form `t4`: they agree in lanes 0 to 3 and in all that is no lane, and the
4-lane form left lanes 4 to 7 alone. -/
def ExtendsFour (s t8 t4 : State) : Prop :=
  SameError s t8 ∧
  (∀ (q : VReg) (k : Fin 8), k.val < 4 → t8.getLane q k = t4.getLane q k) ∧
  (∀ (q : VReg) (k : Fin 8), 4 ≤ k.val → t4.getLane q k = s.getLane q k) ∧
  SameX [] t8 t4 ∧ SameM [] t8 t4 ∧ SameBytes 0 0 t8 t4 ∧ SameError t8 t4 ∧ SameHost t8 t4

section EightLanes
variable {s : State} {vd vs : VReg} {imm : BitVec 12} {rs1 : XReg}

theorem extendsFour_setLanes {f8 f4 : Fin 8 → Lane} (agree : ∀ k : Fin 8, k.val < 4 → f8 k = f4 k) :
    ExtendsFour s (s.setLanes .eight vd f8) (s.setLanes .four vd f4) := by
  refine ⟨⟨rfl, rfl⟩, fun q k hk => ?_, fun q k hk => ?_, fun _ _ => rfl, fun _ _ => rfl, fun _ _ => rfl, ⟨rfl, rfl⟩,
    rfl, rfl, rfl, rfl⟩
  · simp [getLane_setLanes, Lanes.count, hk, agree k hk, Nat.lt_trans hk (by decide : 4 < 8)]
  · rw [getLane_setLanes, if_neg]
    rintro ⟨-, written⟩
    exact absurd written (Nat.not_lt.2 hk)

theorem vecEnd_four_le (s : State) (imm : BitVec 12) (rs1 : XReg) : vecEnd s .four imm rs1 ≤ vecEnd s .eight imm rs1 :=
  Nat.add_le_add_left (by decide) _

theorem extendsFour_afterLoad (order : List Byte → Lane) :
    ExtendsFour s (afterLoad order .eight vd imm rs1 s) (afterLoad order .four vd imm rs1 s) :=
  extendsFour_setLanes fun k hk => by
    rw [laneAt_loadRun _ (Nat.lt_trans hk (by decide)), laneAt_loadRun _ hk]

/-- R83's checks on the 4-lane form are fewer, and its last register for `VPACK` is earlier. -/
theorem wellFormed_fourLaneForm {i8 i4 : Instr} (form : fourLaneForm i8 = some i4) (legal : i8.WellFormed s.hasV8) :
    i4.WellFormed s.hasV8 := by
  have amounts {ns : List (BitVec 5)} (h : (lanesCheck s.hasV8 .eight).or (amountCheck ns) = none) :
      (lanesCheck s.hasV8 .four).or (amountCheck ns) = none := (Option.or_eq_none_iff.1 h).2
  have fewer : Lanes.four.count ≤ Lanes.eight.count := by decide
  unfold fourLaneForm at form
  split at form <;> cases form
  case h_2 => -- `VPACK`
    obtain ⟨-, bound⟩ := wellFormed_vpack.1 legal
    exact wellFormed_vpack.2 ⟨.inl rfl, (Nat.add_le_add_left fewer _).trans bound⟩
  case h_6 | h_7 | h_15 | h_16 | h_18 => exact amounts legal
  all_goals rfl

section Store
variable {split : Lane → List Byte} (four : ∀ u, (split u).length = 4)
include four

/-- Of a store's bytes the first 16 are those of lanes 0 to 3 in either type. -/
theorem memGet_afterStore_eight {b : Nat} (outside : b < vecEnd s .four imm rs1 ∨ vecEnd s .four imm rs1 + 16 ≤ b) :
    memGet (afterStore split .eight vs imm rs1 s).mem b = memGet (afterStore split .four vs imm rs1 s).mem b := by
  obtain ⟨-, -, -, eight, -⟩ := onlyBytes_storeRun (s := s) (l := .eight) (vs := vs) (imm := imm) (rs1 := rs1) four
  obtain ⟨-, -, -, short, -⟩ := onlyBytes_storeRun (s := s) (l := .four) (vs := vs) (imm := imm) (rs1 := rs1) four
  simp only [vecEnd, Lanes.count] at outside eight short
  by_cases first : (s.getX rs1).toNat + imm.toNat ≤ b ∧ b < (s.getX rs1).toNat + imm.toNat + 16
  · obtain ⟨lower, upper⟩ := first
    obtain ⟨d, rfl⟩ := Nat.exists_eq_add_of_le lower
    have hk : d / 4 < 4 := by omega
    have hj : d % 4 < 4 := Nat.mod_lt _ (by decide)
    have place : (s.getX rs1).toNat + imm.toNat + d = (s.getX rs1).toNat + imm.toNat + 4 * (d / 4) + d % 4 := by omega
    rw [place]
    exact (memGet_storeRun_inside four (k := ⟨d / 4, by omega⟩) (Nat.lt_trans hk (by decide)) hj).trans
      (memGet_storeRun_inside four (l := .four) (k := ⟨d / 4, by omega⟩) hk hj).symm
  · exact (eight b (by omega)).trans (short b (by omega)).symm

theorem onlyBytes_afterStore_eight : OnlyBytes (vecEnd s .four imm rs1) 16 (afterStore split .four vs imm rs1 s)
    (afterStore split .eight vs imm rs1 s) :=
  onlyBytes_withBus (s := afterStore split .four vs imm rs1 s) (bus := storeRun split .eight vs imm rs1 s)
    fun _ => memGet_afterStore_eight four

theorem memGet_afterStore_four {b : Nat} (above : vecEnd s .four imm rs1 ≤ b) :
    memGet (afterStore split .four vs imm rs1 s).mem b = memGet s.mem b := by
  obtain ⟨-, -, -, bytes, -⟩ := onlyBytes_storeRun (s := s) (l := .four) (vs := vs) (imm := imm) (rs1 := rs1) four
  exact bytes b (.inr above)

end Store

end EightLanes

/-! ### The statements -/

/-- Settles O57: both forms write the same first four lanes, or the bytes of them, and the 4-lane form no more. -/
theorem eightLanesExtendFour : Obligations.EightLanesExtendFour := by
  refine ⟨fun i8 i4 s form legal inside => ?_, fun vs imm rs1 s hasV8 inside => ?_⟩
  · have legal4 := wellFormed_fourLaneForm form legal
    have types : LanesExist s .four := .inl rfl
    unfold fourLaneForm at form
    split at form <;> cases form
    case h_4 => -- `VLDLE`
      have inside := Nat.not_lt.1 inside
      exact ⟨_, _, exec_vldle ((wellFormed_iff_lanesExist rfl).1 legal) inside,
        exec_vldle types ((vecEnd_four_le ..).trans inside), extendsFour_afterLoad _⟩
    case h_5 => -- `VLDBE`
      have inside := Nat.not_lt.1 inside
      exact ⟨_, _, exec_vldbe ((wellFormed_iff_lanesExist rfl).1 legal) inside,
        exec_vldbe types ((vecEnd_four_le ..).trans inside), extendsFour_afterLoad _⟩
    all_goals
      exact ⟨_, _, whenLegal_pos legal _, whenLegal_pos legal4 _, extendsFour_setLanes fun _ _ => rfl⟩
  · have inside4 := (vecEnd_four_le s imm rs1).trans inside
    exact ⟨⟨_, _, exec_vstle (.inr hasV8) inside, exec_vstle (.inl rfl) inside4,
        onlyBytes_afterStore_eight bytesLE_length, fun _ => memGet_afterStore_four bytesLE_length⟩,
      ⟨_, _, exec_vstbe (.inr hasV8) inside, exec_vstbe (.inl rfl) inside4,
        onlyBytes_afterStore_eight bytesBE_length, fun _ => memGet_afterStore_four bytesBE_length⟩⟩

/-- Settles O58: each run is followed through the lanes its commands write. -/
theorem vectorCommandLaws : Obligations.VectorCommandLaws := by
  intro l s types
  refine ⟨fun a b p d differ => ⟨?addSub, ?subAdd⟩, fun a p d => ⟨?notNot, ?swapSwap⟩, fun a b p d differ => ?andc,
    fun a p q d n n' sum pa pq => ?rotate, fun a p q r d r1 r2 r3 h1 h2 h3 pa qa pq pr qr => ?rho⟩
  case addSub =>
    exact ⟨_, execAll_cons_eq (exec_vadd types) (execAll_cons_eq (exec_vsub types) rfl),
      fun k => getLane_zip_zip BitVec.add_sub_cancel differ⟩
  case subAdd =>
    exact ⟨_, execAll_cons_eq (exec_vsub types) (execAll_cons_eq (exec_vadd types) rfl),
      fun k => getLane_zip_zip BitVec.sub_add_cancel differ⟩
  case notNot =>
    exact ⟨_, execAll_cons_eq (exec_vnot types) (execAll_cons_eq (exec_vnot types) rfl),
      fun k => getLane_map_map fun _ => BitVec.not_not⟩
  case swapSwap =>
    exact ⟨_, execAll_cons_eq (exec_vbswap types) (execAll_cons_eq (exec_vbswap types) rfl),
      fun k => getLane_map_map bswap32_bswap32⟩
  case andc =>
    refine ⟨_, _, exec_vandc types, execAll_cons_eq (exec_vnot types) (execAll_cons_eq (exec_vand types) rfl),
      fun k hk => ?_⟩
    rw [getLane_zipLanes_written _ hk, getLane_zipLanes_written _ hk, getLane_mapLanes_written _ hk,
      mapLanes_other _ _ differ.symm]
  case rotate =>
    have amount : n ≠ 0 := by rintro rfl; exact absurd n'.isLt (by simp at sum; omega)
    have amount' : n' ≠ 0 := by rintro rfl; exact absurd n.isLt (by simp at sum; omega)
    refine ⟨_, _, exec_vrotl types amount, ?right, execAll_cons_eq (exec_vshl types amount)
      (execAll_cons_eq (exec_vshr types amount') (execAll_cons_eq (exec_vor types) rfl)), fun k hk => ?_⟩
    case right =>
      rw [exec_vrotr types amount']
      simp only [rotl32_eq_rotr32 _ sum]
    rw [getLane_mapLanes_written _ hk, getLane_zipLanes_written _ hk, mapLanes_other _ _ pq,
      getLane_mapLanes_written _ hk, getLane_mapLanes_written _ hk, mapLanes_other _ _ pa.symm, rotl32,
      show 32 - n.toNat = n'.toNat by omega]
  case rho =>
    refine ⟨_, _, exec_vrho types ⟨h1, h2, h3⟩, ?swap12, ?swap23, execAll_cons_eq (exec_vrotr types h1)
      (execAll_cons_eq (exec_vrotr types h2) (execAll_cons_eq (exec_vrotr types h3)
        (execAll_cons_eq (exec_vxor types) (execAll_cons_eq (exec_vxor types) rfl)))), fun k hk => ?_⟩
    case swap12 =>
      rw [exec_vrho types ⟨h2, h1, h3⟩]
      simp only [rho32_swap12 _ r2.toNat]
    case swap23 =>
      rw [exec_vrho types ⟨h1, h3, h2⟩]
      simp only [rho32_swap23 _ r1.toNat r3.toNat]
    rw [getLane_mapLanes_written _ hk, getLane_zipLanes_written _ hk, getLane_zipLanes_written _ hk,
      -- register `p`
      mapLanes_other _ _ pr, mapLanes_other _ _ pq, getLane_mapLanes_written _ hk,
      -- register `q`
      mapLanes_other _ _ qr, getLane_mapLanes_written _ hk, mapLanes_other _ _ pa.symm,
      -- register `r`
      zipLanes_other _ _ pr.symm, getLane_mapLanes_written _ hk, mapLanes_other _ _ qa.symm,
      mapLanes_other _ _ pa.symm, rho32]

end Sys2Proof.Machine
end

section
/-!
The access pattern (70_reset_and_hazards.md R268). The log of a command's bus depends on its addresses and lengths
alone, and every byte the bus changes lies in a write of its log; the trace of a command that runs is that log.
-/

namespace Sys2Proof.Machine

/-! ### The log does not depend on the data -/

section Log
variable {b b' : Bus}

theorem selectLoop_log_eq (n : Nat) (set set' : Bool) (len d x y : Nat) (same : b.log = b'.log) :
    (selectLoop n set len d x y b).log = (selectLoop n set' len d x y b').log := by
  induction len generalizing d x y b b' with
  | zero => exact same
  | succ len ih =>
    exact ih _ _ _ (by simp [same, apply_ite List.length])

theorem zeroLoop_log_eq (set set' : Bool) (n d : Nat) (same : b.log = b'.log) :
    (zeroLoop set n d b).log = (zeroLoop set' n d b').log := by
  induction n generalizing d b b' with
  | zero => exact same
  | succ n ih =>
    exact ih _ (by simp [same, apply_ite List.length])

theorem loadLanes_log_eq (order : List Byte → Lane) (n a : Nat) (same : b.log = b'.log) :
    (loadLanes order n a b).2.log = (loadLanes order n a b').2.log := by
  induction n generalizing a b b' with
  | zero => exact same
  | succ n ih => exact ih _ (by simp [same])

theorem storeLanes_log_eq {order : Lane → List Byte} (four : ∀ u, (order u).length = 4) {us us' : List Lane} (a : Nat)
    (length : us.length = us'.length) (same : b.log = b'.log) :
    (storeLanes order us a b).log = (storeLanes order us' a b').log := by
  induction us generalizing us' a b b' with
  | nil =>
    obtain rfl := List.length_eq_zero_iff.1 length.symm
    exact same
  | cons u us ih =>
    obtain ⟨u', us', rfl⟩ := List.exists_cons_of_length_eq_add_one length.symm
    exact ih _ (by simpa using length) (by simp [same, four])

end Log

section Congruence
variable {s t : State} (hasV8 : s.hasV8 = t.hasV8) (memSize : s.memSize = t.memSize)
include hasV8 memSize

theorem whenAccessed_congr (i : Instr) {buffers buffers' : List (Nat × Nat)} {b b' : Bus} (extent : buffers = buffers')
    (log : b.log = b'.log) : whenAccessed i buffers b s = whenAccessed i buffers' b' t := by
  exact if_congr (by simp only [inRange, hasV8, memSize, extent]) log rfl

theorem whenAccessed_load_congr (i : Instr) (order : List Byte → Lane) (l : Lanes) (imm : BitVec 12) {rs1 : XReg}
    (base : s.getX rs1 = t.getX rs1) :
    whenAccessed i (vecBuffers l imm rs1 s) (loadRun order l imm rs1 s).2 s =
      whenAccessed i (vecBuffers l imm rs1 t) (loadRun order l imm rs1 t).2 t := by
  have addr : effAddr s rs1 imm = effAddr t rs1 imm := by rw [effAddr, base, effAddr]
  refine whenAccessed_congr hasV8 memSize i (by rw [vecBuffers, addr, vecBuffers]) ?_
  rw [loadRun, addr]
  exact loadLanes_log_eq _ _ _ rfl

theorem whenAccessed_store_congr (i : Instr) {order : Lane → List Byte} (four : ∀ u, (order u).length = 4) (l : Lanes)
    (vs : VReg) (imm : BitVec 12) {rs1 : XReg} (base : s.getX rs1 = t.getX rs1) :
    whenAccessed i (vecBuffers l imm rs1 s) (storeRun order l vs imm rs1 s) s =
      whenAccessed i (vecBuffers l imm rs1 t) (storeRun order l vs imm rs1 t) t := by
  have addr : effAddr s rs1 imm = effAddr t rs1 imm := by rw [effAddr, base, effAddr]
  refine whenAccessed_congr hasV8 memSize i (by rw [vecBuffers, addr, vecBuffers]) ?_
  rw [storeRun, addr]
  exact storeLanes_log_eq four _ (by rw [laneList_length, laneList_length]) rfl

theorem accessTrace_seln_congr (w : Width) (ms : MReg) {rpd rpx rpy rlen : XReg} (hd : s.getX rpd = t.getX rpd)
    (hx : s.getX rpx = t.getX rpx) (hy : s.getX rpy = t.getX rpy) (hlen : s.getX rlen = t.getX rlen) :
    accessTrace (.seln w ms rpd rpx rpy rlen) s = accessTrace (.seln w ms rpd rpx rpy rlen) t := by
  refine whenAccessed_congr hasV8 memSize _ (by simp only [selnBuffers, bufAddr, bufBytes, hd, hx, hy, hlen]) ?_
  simp only [selnBus, bufAddr, hd, hx, hy, hlen]
  exact selectLoop_log_eq _ _ _ _ _ _ _ rfl

theorem accessTrace_zout_congr (w : Width) (ms : MReg) {rpd rlen : XReg} (hd : s.getX rpd = t.getX rpd)
    (hlen : s.getX rlen = t.getX rlen) : accessTrace (.zout w ms rpd rlen) s = accessTrace (.zout w ms rpd rlen) t := by
  refine whenAccessed_congr hasV8 memSize _ (by simp only [zoutBuffers, bufAddr, bufBytes, hd, hlen]) ?_
  simp only [zoutBus, bufAddr, bufBytes, hd, hlen]
  exact zeroLoop_log_eq _ _ _ _ rfl

end Congruence

/-! ### The log shows every write -/

/-- Every byte that reads otherwise on the bus than in `mem` lies in a write of the bus's log. -/
def Bus.ShowsWrites (mem : List Host.Cell) (b : Bus) : Prop :=
  ∀ c, memGet b.mem c ≠ memGet mem c → ∃ a n, Access.write a n ∈ b.log ∧ a ≤ c ∧ c < a + n

section ShowsWrites
variable {mem : List Host.Cell} {b : Bus}

theorem showsWrites_bus (s : State) : s.bus.ShowsWrites s.mem := fun _ changed => absurd rfl changed

theorem Bus.ShowsWrites.read (h : b.ShowsWrites mem) (a n : Nat) : (b.read a n).2.ShowsWrites mem := by
  intro c changed
  obtain ⟨a', n', logged, inside⟩ := h c changed
  exact ⟨a', n', List.mem_append_left _ logged, inside⟩

theorem Bus.ShowsWrites.write (h : b.ShowsWrites mem) (a : Nat) (bytes : List Byte) :
    (b.write a bytes).ShowsWrites mem := by
  intro c changed
  by_cases written : a ≤ c ∧ c < a + bytes.length
  · exact ⟨a, bytes.length, List.mem_append_right _ List.mem_cons_self, written⟩
  · rw [busWrite_mem, memGet_memWrite_outside _ _ _ _ (by omega)] at changed
    obtain ⟨a', n', logged, inside⟩ := h c changed
    exact ⟨a', n', List.mem_append_left _ logged, inside⟩

theorem Bus.ShowsWrites.selectLoop (h : b.ShowsWrites mem) {n : Nat} {set : Bool} {len d x y : Nat} :
    (selectLoop n set len d x y b).ShowsWrites mem := by
  induction len generalizing d x y b with
  | zero => exact h
  | succ len ih => exact ih (((h.read x n).read y n).write d _)

theorem Bus.ShowsWrites.zeroLoop (h : b.ShowsWrites mem) {set : Bool} {n d : Nat} :
    (zeroLoop set n d b).ShowsWrites mem := by
  induction n generalizing d b with
  | zero => exact h
  | succ n ih => exact ih ((h.read d 1).write d _)

theorem Bus.ShowsWrites.storeLanes (h : b.ShowsWrites mem) {order : Lane → List Byte} {us : List Lane} {a : Nat} :
    (storeLanes order us a b).ShowsWrites mem := by
  induction us generalizing a b with
  | nil => exact h
  | cons u us ih => exact ih (h.write a _)

end ShowsWrites

/-- Every byte that a next state of the meaning changes lies in a write of the trace. -/
def Traced (s : State) (trace : List Access) (r : Result) : Prop :=
  ∀ t, r = .next t → ∀ b, memGet t.mem b ≠ memGet s.mem b → ∃ a n, Access.write a n ∈ trace ∧ a ≤ b ∧ b < a + n

section Traced
variable {s t : State} {i : Instr} {body : Result} {trace : List Access} {buffers : List (Nat × Nat)} {bus : Bus}

theorem Traced.of_mem_eq (same : t.mem = s.mem) : Traced s trace (.next t) := by
  rintro u ⟨⟩ b changed
  exact absurd (by rw [same]) changed

theorem Traced.whenLegal (h : i.WellFormed s.hasV8 → Traced s trace body) : Traced s trace (whenLegal i s body) := by
  intro t result
  rcases whenLegal_cases result with ⟨legal, result⟩ | ⟨-, rfl⟩
  · exact h legal t result
  · exact Traced.of_mem_eq (t := raiseError ..) rfl _ rfl

theorem Traced.whenArgs {ok : Bool} (h : Traced s trace body) : Traced s trace (whenArgs i ok s body) := by
  intro t result
  rcases whenArgs_cases result with ⟨-, result⟩ | ⟨-, rfl⟩
  · exact h t result
  · exact Traced.of_mem_eq (t := raiseError ..) rfl _ rfl

theorem Traced.whenInRange (h : (∀ b ∈ buffers, b.1 + b.2 ≤ s.memSize) → Traced s trace body) :
    Traced s trace (whenInRange i buffers s body) := by
  intro t result
  rcases whenInRange_cases result with ⟨inside, result⟩ | ⟨-, rfl⟩
  · exact h inside t result
  · exact Traced.of_mem_eq (t := raiseError ..) rfl _ rfl

/-- A command that runs keeps its bus's bytes, and its trace is the bus's log. -/
theorem Traced.withBus (shows : bus.ShowsWrites s.mem) (legal : i.WellFormed s.hasV8)
    (inside : ∀ b ∈ buffers, b.1 + b.2 ≤ s.memSize) :
    Traced s (whenAccessed i buffers bus s) (.next (s.withBus bus)) := by
  have runs : whenAccessed i buffers bus s = bus.log := if_pos ⟨legal, by simpa [inRange] using inside⟩
  rintro t ⟨⟩ b changed
  rw [runs]
  exact shows b changed

theorem traced_storeVec {order : Lane → List Byte} {l : Lanes} {vs : VReg} {imm : BitVec 12} {rs1 : XReg} :
    Traced s (whenAccessed i (vecBuffers l imm rs1 s) (storeRun order l vs imm rs1 s) s)
      (storeVec i order l vs imm rs1 s) :=
  .whenLegal fun legal => .whenInRange fun inside => .withBus (showsWrites_bus s).storeLanes legal inside

end Traced

theorem traced_exec (i : Instr) (s : State) : Traced s (accessTrace i s) (exec i s) := by
  cases i with
  | ispow2 | highbit | sigbytes | ctz | clog2 | clz => exact .of_mem_eq rfl
  | mset | mclr | mexp | misz | meq | mlt | mgt | mlte | mgte | mand | mor | mxor | mnot | sel | ifset | mval =>
    exact .of_mem_eq rfl
  | seln => exact .whenInRange fun inside => .withBus (showsWrites_bus s).selectLoop rfl inside
  | zout => exact .whenInRange fun inside => .withBus (showsWrites_bus s).zeroLoop rfl inside
  | wmk | wadd | wor => exact .whenLegal fun _ => .of_mem_eq rfl
  | wshr | wshl | wmul | wcsh | wcmb => exact .whenLegal fun _ => .whenArgs (.of_mem_eq rfl)
  | vldle | vldbe => exact .whenLegal fun _ => .whenInRange fun _ => .of_mem_eq rfl
  | vstle | vstbe => exact traced_storeVec
  | vzero | vpack | vsplat | vrotl | vrotr | vadd | vsub | vxor | vor | vand | vnot | vandc | vshl | vshr | vbswap
  | vrho => exact .whenLegal fun _ => .of_mem_eq rfl
  | vtrn4 | vtrn8 => exact .whenLegal fun _ => .of_mem_eq (writeTransposed_mem ..)

/-! ### The statements -/

/-- Settles O59: only six commands touch memory, and each one's buffers and log follow from its address values. -/
theorem accessPatternIndependentOfData : Obligations.AccessPatternIndependentOfData := by
  intro i s t hasV8 memSize inputs
  cases i with
  | seln w ms =>
    obtain ⟨hd, hx, hy, hlen⟩ := by simpa [addressInputs] using inputs
    exact accessTrace_seln_congr hasV8 memSize w ms hd hx hy hlen
  | zout w ms =>
    obtain ⟨hd, hlen⟩ := by simpa [addressInputs] using inputs
    exact accessTrace_zout_congr hasV8 memSize w ms hd hlen
  | vldle | vldbe => exact whenAccessed_load_congr hasV8 memSize _ _ _ _ (List.singleton_inj.1 inputs)
  | vstle => exact whenAccessed_store_congr hasV8 memSize _ bytesLE_length _ _ _ (List.singleton_inj.1 inputs)
  | vstbe => exact whenAccessed_store_congr hasV8 memSize _ bytesBE_length _ _ _ (List.singleton_inj.1 inputs)
  | _ => rfl

/-- Settles O60: the command's bus shows its writes, and an error writes nothing. -/
theorem accessTraceShowsEveryWrite : Obligations.AccessTraceShowsEveryWrite :=
  fun i s t b result changed => traced_exec i s t result b changed

end Sys2Proof.Machine
end
